-- ==== Sys2Proof/Word.lean ====
section
/-! DEFINITION. The words of the block (00_scope.md R7): payload bytes, 16-bit samples and coefficients, 32-bit MMIO words, and a channel index as the 4 bits `addr[11:8]` (20_memory.md R61). -/

namespace Sys2Proof

/-- A payload byte or an output byte (R7). -/
abbrev Byte := BitVec 8

/-- A coefficient, history or PCM sample pattern: signed 16 bits (R7). -/
abbrev Sample := BitVec 16

/-- An MMIO register word (R7). -/
abbrev Word := BitVec 32

/-- A channel index `c` as an access carries it (R61: `addr[11:8]`). -/
abbrev Chan := BitVec 4

end Sys2Proof
end

