-- ==== Sys2Proof/Config.lean ====
section
/-! DEFINITION. The instance parameters of the block (00_scope.md R6). They are held in State, so a statement over all states is a statement over all instances; this file gives their types, and the instance that `State.reset` is (DESIGN CHOICE, log 3). No value the block computes is undefined, so there is no free value. -/

namespace Sys2Proof

/-- `FIFO_DEPTH` (R6): "an integer >= 1, or unbounded". -/
inductive QueueDepth where
  | unbounded
  | bounded (n : Nat)
  deriving DecidableEq, Repr

/-- The legal values of `FIFO_DEPTH` (R6). -/
def QueueDepth.legal : QueueDepth → Bool
  | .unbounded => true
  | .bounded n => 1 ≤ n

/-- The legal values of `NCH_MAX` (R6): 1 to 16. -/
def legalChannelCount (n : Nat) : Bool := 1 ≤ n && n ≤ 16

/-- The order of the two samples in a seek-table entry (92_eei_decisions.md D31, `SEEK_PAIR_ORDER`). -/
inductive SeekPairOrder where
  | hist1First
  | hist2First
  deriving DecidableEq, Repr

/-- `NCH_MAX` of the instance that `State.reset` is. DESIGN CHOICE (log 3): R6 leaves it a parameter. -/
def Config.resetChannelCount : Nat := 16

/-- `FIFO_DEPTH` of the instance that `State.reset` is. DESIGN CHOICE (log 3): R6 leaves it a parameter. -/
def Config.resetQueueDepth : QueueDepth := .unbounded

/-- `PM_SIZE_c` may be 0 to 2^32 (R6). -/
def Config.maxPayloadSize : Nat := 2 ^ 32

end Sys2Proof
end

