-- ==== Sys2Proof/Syntax.lean ====
section
/-! DEFINITION. The instructions: one constructor per row of spec/opcode_table.json, in the table's order. An engine step carries the fields of the byte it consumes and the channel of the engine that takes it; a host access carries every bit of its key that its row leaves open (30_encoding.md R82, R84, R92). -/

namespace Sys2Proof

inductive Instr where
  /-- HDR, byte `0kkkssss` (40_decode_datapath.md R103). -/
  | hdr (c : Chan) (k : BitVec 3) (sh : BitVec 4)
  /-- HDR_BADPRED, byte `1kkkssss` (R103, R221): `k` holds the low three bits of the pair index. -/
  | hdrBadpred (c : Chan) (k : BitVec 3) (sh : BitVec 4)
  /-- DATA_HI, byte `hhhhllll` (R104). -/
  | dataHi (c : Chan) (hi lo : BitVec 4)
  /-- DATA_LO, no byte (R105). -/
  | dataLo (c : Chan)
  /-- END, no byte (R101). -/
  | endRun (c : Chan)
  | idR
  | idW (data : Word)
  | muxCtrlStart (data : Word)
  | muxCtrlAbort (data : Word)
  | muxCtrlNop (data : Word)
  | muxCtrlR
  | muxCfgW (data : Word)
  | muxCfgR
  | muxStatusR
  | muxOcountR
  /-- GLOBAL_RO_W: `ocount` is `addr[2]`, false for MUX_STATUS and true for MUX_OCOUNT (42_multiplexer.md R185). -/
  | globalRoW (ocount : Bool) (data : Word)
  | chCtrlStart (c : Chan) (data : Word)
  | chCtrlAbort (c : Chan) (data : Word)
  | chCtrlNop (c : Chan) (data : Word)
  | chCtrlR (c : Chan)
  | chStatusR (c : Chan)
  | chStatusW (c : Chan) (data : Word)
  | chBaseW (c : Chan) (data : Word)
  | chBaseR (c : Chan)
  | chLenW (c : Chan) (data : Word)
  | chLenR (c : Chan)
  | chSrateW (c : Chan) (data : Word)
  | chSrateR (c : Chan)
  | chHist1W (c : Chan) (data : Word)
  | chHist1R (c : Chan)
  | chHist2W (c : Chan) (data : Word)
  | chHist2R (c : Chan)
  | chPosR (c : Chan)
  | chPosW (c : Chan) (data : Word)
  | chScountR (c : Chan)
  | chScountW (c : Chan) (data : Word)
  | chPsR (c : Chan)
  | chPsW (c : Chan) (data : Word)
  | chOutR (c : Chan)
  | chOutW (c : Chan) (data : Word)
  | chCoefW (c : Chan) (i : BitVec 4) (data : Word)
  | chCoefR (c : Chan) (i : BitVec 4)
  /-- RSVD_R (20_memory.md R63): the address is the operand. -/
  | rsvdR (addr : BitVec 13)
  /-- RSVD_W (R63). -/
  | rsvdW (addr : BitVec 13) (data : Word)
  deriving DecidableEq, Repr

/-- The row of spec/opcode_table.json a constructor stands for. -/
def Instr.mnemonic : Instr → String
  | .hdr .. => "HDR"
  | .hdrBadpred .. => "HDR_BADPRED"
  | .dataHi .. => "DATA_HI"
  | .dataLo .. => "DATA_LO"
  | .endRun .. => "END"
  | .idR => "ID_R"
  | .idW .. => "ID_W"
  | .muxCtrlStart .. => "MUX_CTRL_START"
  | .muxCtrlAbort .. => "MUX_CTRL_ABORT"
  | .muxCtrlNop .. => "MUX_CTRL_NOP"
  | .muxCtrlR => "MUX_CTRL_R"
  | .muxCfgW .. => "MUX_CFG_W"
  | .muxCfgR => "MUX_CFG_R"
  | .muxStatusR => "MUX_STATUS_R"
  | .muxOcountR => "MUX_OCOUNT_R"
  | .globalRoW .. => "GLOBAL_RO_W"
  | .chCtrlStart .. => "CH_CTRL_START"
  | .chCtrlAbort .. => "CH_CTRL_ABORT"
  | .chCtrlNop .. => "CH_CTRL_NOP"
  | .chCtrlR .. => "CH_CTRL_R"
  | .chStatusR .. => "CH_STATUS_R"
  | .chStatusW .. => "CH_STATUS_W"
  | .chBaseW .. => "CH_BASE_W"
  | .chBaseR .. => "CH_BASE_R"
  | .chLenW .. => "CH_LEN_W"
  | .chLenR .. => "CH_LEN_R"
  | .chSrateW .. => "CH_SRATE_W"
  | .chSrateR .. => "CH_SRATE_R"
  | .chHist1W .. => "CH_HIST1_W"
  | .chHist1R .. => "CH_HIST1_R"
  | .chHist2W .. => "CH_HIST2_W"
  | .chHist2R .. => "CH_HIST2_R"
  | .chPosR .. => "CH_POS_R"
  | .chPosW .. => "CH_POS_W"
  | .chScountR .. => "CH_SCOUNT_R"
  | .chScountW .. => "CH_SCOUNT_W"
  | .chPsR .. => "CH_PS_R"
  | .chPsW .. => "CH_PS_W"
  | .chOutR .. => "CH_OUT_R"
  | .chOutW .. => "CH_OUT_W"
  | .chCoefW .. => "CH_COEF_W"
  | .chCoefR .. => "CH_COEF_R"
  | .rsvdR .. => "RSVD_R"
  | .rsvdW .. => "RSVD_W"

end Sys2Proof
end

