-- ==== Sys2Proof/WellFormed.lean ====
section
/-! DEFINITION. The checks an instruction's fields must meet on a block with `nch` channels: the channel exists, a command word has the command bits its row matches, and a reserved access names an address that no other row matches. -/

namespace Sys2Proof

/-- The reserved word-aligned addresses, from the ranges of 20_memory.md R61 and 10_state.md R34, R39: the gap 0x0100 to 0x0FFF, the reserved offsets of the global window, the windows of channels at or above `NCH_MAX`, and the reserved offsets of a channel window. -/
def reservedAddr (nch : Nat) (a : BitVec 13) : Bool :=
  let n := a.toNat
  let off := n % 0x100
  n % 4 = 0 &&
    if n < 0x100 then (0x04 ≤ off && off ≤ 0x0C) || (0x20 ≤ off && off ≤ 0xFC)
    else if n < 0x1000 then true
    else nch ≤ n / 0x100 % 0x10 || (0x2C ≤ off && off ≤ 0x3C) || (0x80 ≤ off && off ≤ 0xFC)

/-- A command word that requests START: bit 0 set and bit 1 clear (R36, R41). -/
def isStartWord (d : Word) : Bool := d.getLsbD 0 && !d.getLsbD 1

/-- A command word that requests ABORT: bit 1 set, bit 0 ignored (R36, R41). -/
def isAbortWord (d : Word) : Bool := d.getLsbD 1

/-- A command word that requests nothing: bits 1 and 0 clear (41_channel_control.md R145, 42_multiplexer.md R180). -/
def isNopWord (d : Word) : Bool := !d.getLsbD 0 && !d.getLsbD 1

/-- The channel has an engine (10_state.md R20). -/
def hasChannel (nch : Nat) (c : Chan) : Bool := c.toNat < nch

/-- An instruction the encoding of a block with `nch` channels admits. -/
def Instr.wellFormed (nch : Nat) : Instr → Bool
  | .hdr c _ _ => hasChannel nch c
  | .hdrBadpred c _ _ => hasChannel nch c
  | .dataHi c _ _ => hasChannel nch c
  | .dataLo c => hasChannel nch c
  | .endRun c => hasChannel nch c
  | .idR => true
  | .idW _ => true
  | .muxCtrlStart d => isStartWord d
  | .muxCtrlAbort d => isAbortWord d
  | .muxCtrlNop d => isNopWord d
  | .muxCtrlR => true
  | .muxCfgW _ => true
  | .muxCfgR => true
  | .muxStatusR => true
  | .muxOcountR => true
  | .globalRoW _ _ => true
  | .chCtrlStart c d => hasChannel nch c && isStartWord d
  | .chCtrlAbort c d => hasChannel nch c && isAbortWord d
  | .chCtrlNop c d => hasChannel nch c && isNopWord d
  | .chCtrlR c => hasChannel nch c
  | .chStatusR c => hasChannel nch c
  | .chStatusW c _ => hasChannel nch c
  | .chBaseW c _ => hasChannel nch c
  | .chBaseR c => hasChannel nch c
  | .chLenW c _ => hasChannel nch c
  | .chLenR c => hasChannel nch c
  | .chSrateW c _ => hasChannel nch c
  | .chSrateR c => hasChannel nch c
  | .chHist1W c _ => hasChannel nch c
  | .chHist1R c => hasChannel nch c
  | .chHist2W c _ => hasChannel nch c
  | .chHist2R c => hasChannel nch c
  | .chPosR c => hasChannel nch c
  | .chPosW c _ => hasChannel nch c
  | .chScountR c => hasChannel nch c
  | .chScountW c _ => hasChannel nch c
  | .chPsR c => hasChannel nch c
  | .chPsW c _ => hasChannel nch c
  | .chOutR c => hasChannel nch c
  | .chOutW c _ => hasChannel nch c
  | .chCoefW c _ _ => hasChannel nch c
  | .chCoefR c _ => hasChannel nch c
  | .rsvdR a => reservedAddr nch a
  | .rsvdW a _ => reservedAddr nch a

end Sys2Proof
end

