-- ==== Sys2Proof/Decode.lean ====
section
/-! DEFINITION. Decoding (total: every unit gives an instruction or a rejection with a name), the encoder, and the opcode table's match and mask keys (30_encoding.md R92). Written from 20_memory.md R61, 10_state.md R34, R39 and 30_encoding.md R82, R84, R89, R92. -/

namespace Sys2Proof

/-- What one agent step consumes: a payload byte at a header or a data position of channel `c`'s run, the latched low nibble, the end of the run (R100 says which), or a 46-bit host access key (R92). -/
inductive CodeUnit where
  | header (c : Chan) (b : Byte)
  | data (c : Chan) (b : Byte)
  | latched (c : Chan)
  | ended (c : Chan)
  | access (key : BitVec 46)
  deriving DecidableEq, Repr

/-- Why a unit is no instruction. -/
inductive DecodeError where
  /-- `addr[1:0] != 0` (20_memory.md R62). -/
  | misaligned
  /-- An engine unit of a channel at or above `NCH_MAX` (10_state.md R20). -/
  | noSuchEngine
  deriving DecidableEq, Repr

/-- The decoder's answer. -/
inductive Decoded where
  | instr (i : Instr)
  | reject (e : DecodeError)
  deriving DecidableEq, Repr

/-- The decoded instruction, if there is one. -/
def Decoded.toOption : Decoded → Option Instr
  | .instr i => some i
  | .reject _ => none

/-- The access field `dir` (R92: `key[45]`, 1 for a write). -/
def keyWrite (key : BitVec 46) : Bool := key.getLsbD 45

/-- The access field `addr` (R92: `key[44:32]`). -/
def keyAddr (key : BitVec 46) : BitVec 13 := key.extractLsb' 32 13

/-- The access field `data` (R92: `key[31:0]`). -/
def keyData (key : BitVec 46) : Word := key.extractLsb' 0 32

/-- The key of an access (R92). -/
def accessKey (wr : Bool) (addr : BitVec 13) (d : Word) : BitVec 46 := BitVec.ofBool wr ++ addr ++ d

/-- A global register's address (R61). -/
def globalAddr (off : BitVec 8) : BitVec 13 := 0#5 ++ off

/-- A channel register's address (R61): `0x1000 + 0x100*c + off`. -/
def channelAddr (c : Chan) (off : BitVec 8) : BitVec 13 := 1#1 ++ c ++ off

/-- The window offset of `COEF[i]` (R34): `0x40 + 4*i`. -/
def coefOffset (i : BitVec 4) : BitVec 8 := 1#2 ++ i ++ 0#2

/-- A command write's three rows (R36, R41): ABORT when bit 1 is set, else START when bit 0 is, else no operation. -/
def decodeCommand (d : Word) (start abort nop : Instr) : Instr :=
  if d.getLsbD 1 then abort else if d.getLsbD 0 then start else nop

/-- A reserved address (20_memory.md R63). -/
def decodeReserved (wr : Bool) (a : BitVec 13) (d : Word) : Instr :=
  if wr then .rsvdW a d else .rsvdR a

/-- The global window (R39), at word-aligned offset `off` of address `a`. -/
def decodeGlobal (wr : Bool) (a : BitVec 13) (off : BitVec 8) (d : Word) : Instr :=
  if off = 0x00 then (if wr then .idW d else .idR)
  else if off = 0x10 then
    (if wr then decodeCommand d (.muxCtrlStart d) (.muxCtrlAbort d) (.muxCtrlNop d) else .muxCtrlR)
  else if off = 0x14 then (if wr then .muxCfgW d else .muxCfgR)
  else if off = 0x18 then (if wr then .globalRoW false d else .muxStatusR)
  else if off = 0x1C then (if wr then .globalRoW true d else .muxOcountR)
  else decodeReserved wr a d

/-- The window of channel `c` (R34), at word-aligned offset `off` of address `a`. -/
def decodeChannel (wr : Bool) (a : BitVec 13) (c : Chan) (off : BitVec 8) (d : Word) : Instr :=
  if off = 0x00 then
    (if wr then decodeCommand d (.chCtrlStart c d) (.chCtrlAbort c d) (.chCtrlNop c d) else .chCtrlR c)
  else if off = 0x04 then (if wr then .chStatusW c d else .chStatusR c)
  else if off = 0x08 then (if wr then .chBaseW c d else .chBaseR c)
  else if off = 0x0C then (if wr then .chLenW c d else .chLenR c)
  else if off = 0x10 then (if wr then .chSrateW c d else .chSrateR c)
  else if off = 0x14 then (if wr then .chHist1W c d else .chHist1R c)
  else if off = 0x18 then (if wr then .chHist2W c d else .chHist2R c)
  else if off = 0x1C then (if wr then .chPosW c d else .chPosR c)
  else if off = 0x20 then (if wr then .chScountW c d else .chScountR c)
  else if off = 0x24 then (if wr then .chPsW c d else .chPsR c)
  else if off = 0x28 then (if wr then .chOutW c d else .chOutR c)
  else if off.extractLsb' 6 2 = 1#2 then
    (if wr then .chCoefW c (off.extractLsb' 2 4) d else .chCoefR c (off.extractLsb' 2 4))
  else decodeReserved wr a d

/-- The address decode of R61 on a host access key. A read's `data` bits select nothing (R92: 0 in match and mask). -/
def decodeAccess (nch : Nat) (key : BitVec 46) : Decoded :=
  let wr := keyWrite key
  let a := keyAddr key
  let d := keyData key
  let off := a.extractLsb' 0 8
  let c := a.extractLsb' 8 4
  if a.extractLsb' 0 2 ≠ 0#2 then .reject .misaligned
  else if a.getLsbD 12 = false then
    (if a.toNat < 0x100 then .instr (decodeGlobal wr a off d) else .instr (decodeReserved wr a d))
  else if hasChannel nch c then .instr (decodeChannel wr a c off d)
  else .instr (decodeReserved wr a d)

/-- A header byte (R82, R83): bit 7 clear names a pair 0 to 7, bit 7 set one that does not exist. -/
def decodeHeader (c : Chan) (b : Byte) : Instr :=
  if b.getLsbD 7 then .hdrBadpred c (b.extractLsb' 4 3) (b.extractLsb' 0 4)
  else .hdr c (b.extractLsb' 4 3) (b.extractLsb' 0 4)

/-- The decoder of a block with `nch` channels. -/
def decode (nch : Nat) : CodeUnit → Decoded
  | .header c b => if hasChannel nch c then .instr (decodeHeader c b) else .reject .noSuchEngine
  | .data c b =>
    if hasChannel nch c then .instr (.dataHi c (b.extractLsb' 4 4) (b.extractLsb' 0 4))
    else .reject .noSuchEngine
  | .latched c => if hasChannel nch c then .instr (.dataLo c) else .reject .noSuchEngine
  | .ended c => if hasChannel nch c then .instr (.endRun c) else .reject .noSuchEngine
  | .access key => decodeAccess nch key

/-- The instruction this decoder reads from a table row's bits (bit 0 the least significant). Up to 8 bits: a payload byte at a HEADER position of channel 0, the first unit of a run (a byte alone does not say which position it has, log 13). More: a host access key of 46 bits. The block is the one `State.reset` is. -/
def decodeTableWord (nbits w : Nat) : Option Instr :=
  if nbits ≤ 8 then
    (if w < 2 ^ 8 then (decode Config.resetChannelCount (.header 0 (BitVec.ofNat 8 w))).toOption else none)
  else if w < 2 ^ 46 then (decode Config.resetChannelCount (.access (BitVec.ofNat 46 w))).toOption
  else none

/-! ## The encoder -/

/-- A write access. -/
def encodeWrite (a : BitVec 13) (d : Word) : CodeUnit := .access (accessKey true a d)

/-- A read access: its data bits are 0 (R92). -/
def encodeRead (a : BitVec 13) : CodeUnit := .access (accessKey false a 0)

/-- The unit of an instruction. -/
def encode : Instr → CodeUnit
  | .hdr c k sh => .header c (0#1 ++ k ++ sh)
  | .hdrBadpred c k sh => .header c (1#1 ++ k ++ sh)
  | .dataHi c hi lo => .data c (hi ++ lo)
  | .dataLo c => .latched c
  | .endRun c => .ended c
  | .idR => encodeRead (globalAddr 0x00)
  | .idW d => encodeWrite (globalAddr 0x00) d
  | .muxCtrlStart d => encodeWrite (globalAddr 0x10) d
  | .muxCtrlAbort d => encodeWrite (globalAddr 0x10) d
  | .muxCtrlNop d => encodeWrite (globalAddr 0x10) d
  | .muxCtrlR => encodeRead (globalAddr 0x10)
  | .muxCfgW d => encodeWrite (globalAddr 0x14) d
  | .muxCfgR => encodeRead (globalAddr 0x14)
  | .muxStatusR => encodeRead (globalAddr 0x18)
  | .muxOcountR => encodeRead (globalAddr 0x1C)
  | .globalRoW ocount d => encodeWrite (globalAddr (if ocount then 0x1C else 0x18)) d
  | .chCtrlStart c d => encodeWrite (channelAddr c 0x00) d
  | .chCtrlAbort c d => encodeWrite (channelAddr c 0x00) d
  | .chCtrlNop c d => encodeWrite (channelAddr c 0x00) d
  | .chCtrlR c => encodeRead (channelAddr c 0x00)
  | .chStatusR c => encodeRead (channelAddr c 0x04)
  | .chStatusW c d => encodeWrite (channelAddr c 0x04) d
  | .chBaseW c d => encodeWrite (channelAddr c 0x08) d
  | .chBaseR c => encodeRead (channelAddr c 0x08)
  | .chLenW c d => encodeWrite (channelAddr c 0x0C) d
  | .chLenR c => encodeRead (channelAddr c 0x0C)
  | .chSrateW c d => encodeWrite (channelAddr c 0x10) d
  | .chSrateR c => encodeRead (channelAddr c 0x10)
  | .chHist1W c d => encodeWrite (channelAddr c 0x14) d
  | .chHist1R c => encodeRead (channelAddr c 0x14)
  | .chHist2W c d => encodeWrite (channelAddr c 0x18) d
  | .chHist2R c => encodeRead (channelAddr c 0x18)
  | .chPosR c => encodeRead (channelAddr c 0x1C)
  | .chPosW c d => encodeWrite (channelAddr c 0x1C) d
  | .chScountR c => encodeRead (channelAddr c 0x20)
  | .chScountW c d => encodeWrite (channelAddr c 0x20) d
  | .chPsR c => encodeRead (channelAddr c 0x24)
  | .chPsW c d => encodeWrite (channelAddr c 0x24) d
  | .chOutR c => encodeRead (channelAddr c 0x28)
  | .chOutW c d => encodeWrite (channelAddr c 0x28) d
  | .chCoefW c i d => encodeWrite (channelAddr c (coefOffset i)) d
  | .chCoefR c i => encodeRead (channelAddr c (coefOffset i))
  | .rsvdR a => encodeRead a
  | .rsvdW a d => encodeWrite a d

/-! ## The opcode table's keys (R92) -/

/-- A host-access row of opcode_table.json. -/
structure TableRow where
  mnemonic : String
  pattern : BitVec 46
  mask : BitVec 46
  deriving DecidableEq, Repr

/-- `key & mask = match` (R92). -/
def TableRow.admits (r : TableRow) (key : BitVec 46) : Bool := key &&& r.mask == r.pattern

/-- A channel row leaves `addr[11:8]` out of its mask and applies only when the channel exists (R92); the channel rows are those that fix `addr[12]` to 1. -/
def TableRow.applies (r : TableRow) (nch : Nat) (key : BitVec 46) : Bool :=
  r.admits key && (!(r.pattern.getLsbD 44) || hasChannel nch ((keyAddr key).extractLsb' 8 4))

/-- The rows of the global window, as opcode_table.json gives them. -/
def globalRows : List TableRow :=
  [⟨"ID_R", 0x0, 0x3fff00000000⟩, ⟨"ID_W", 0x200000000000, 0x3fff00000000⟩,
   ⟨"MUX_CTRL_START", 0x201000000001, 0x3fff00000003⟩, ⟨"MUX_CTRL_ABORT", 0x201000000002, 0x3fff00000002⟩,
   ⟨"MUX_CTRL_NOP", 0x201000000000, 0x3fff00000003⟩, ⟨"MUX_CTRL_R", 0x1000000000, 0x3fff00000000⟩,
   ⟨"MUX_CFG_W", 0x201400000000, 0x3fff00000000⟩, ⟨"MUX_CFG_R", 0x1400000000, 0x3fff00000000⟩,
   ⟨"MUX_STATUS_R", 0x1800000000, 0x3fff00000000⟩, ⟨"MUX_OCOUNT_R", 0x1c00000000, 0x3fff00000000⟩,
   ⟨"GLOBAL_RO_W", 0x201800000000, 0x3ffb00000000⟩]

/-- The command and status rows of a channel window. -/
def channelCommandRows : List TableRow :=
  [⟨"CH_CTRL_START", 0x300000000001, 0x30ff00000003⟩, ⟨"CH_CTRL_ABORT", 0x300000000002, 0x30ff00000002⟩,
   ⟨"CH_CTRL_NOP", 0x300000000000, 0x30ff00000003⟩, ⟨"CH_CTRL_R", 0x100000000000, 0x30ff00000000⟩,
   ⟨"CH_STATUS_R", 0x100400000000, 0x30ff00000000⟩, ⟨"CH_STATUS_W", 0x300400000000, 0x30ff00000000⟩]

/-- The configuration rows of a channel window. -/
def channelConfigRows : List TableRow :=
  [⟨"CH_BASE_W", 0x300800000000, 0x30ff00000000⟩, ⟨"CH_BASE_R", 0x100800000000, 0x30ff00000000⟩,
   ⟨"CH_LEN_W", 0x300c00000000, 0x30ff00000000⟩, ⟨"CH_LEN_R", 0x100c00000000, 0x30ff00000000⟩,
   ⟨"CH_SRATE_W", 0x301000000000, 0x30ff00000000⟩, ⟨"CH_SRATE_R", 0x101000000000, 0x30ff00000000⟩,
   ⟨"CH_HIST1_W", 0x301400000000, 0x30ff00000000⟩, ⟨"CH_HIST1_R", 0x101400000000, 0x30ff00000000⟩,
   ⟨"CH_HIST2_W", 0x301800000000, 0x30ff00000000⟩, ⟨"CH_HIST2_R", 0x101800000000, 0x30ff00000000⟩,
   ⟨"CH_COEF_W", 0x304000000000, 0x30c300000000⟩, ⟨"CH_COEF_R", 0x104000000000, 0x30c300000000⟩]

/-- The counter and queue rows of a channel window, and the two reserved rows. -/
def channelReadRows : List TableRow :=
  [⟨"CH_POS_R", 0x101c00000000, 0x30ff00000000⟩, ⟨"CH_POS_W", 0x301c00000000, 0x30ff00000000⟩,
   ⟨"CH_SCOUNT_R", 0x102000000000, 0x30ff00000000⟩, ⟨"CH_SCOUNT_W", 0x302000000000, 0x30ff00000000⟩,
   ⟨"CH_PS_R", 0x102400000000, 0x30ff00000000⟩, ⟨"CH_PS_W", 0x302400000000, 0x30ff00000000⟩,
   ⟨"CH_OUT_R", 0x102800000000, 0x30ff00000000⟩, ⟨"CH_OUT_W", 0x302800000000, 0x30ff00000000⟩]

/-- The two rows that match whatever no other row does (R63). -/
def reservedRows : List TableRow :=
  [⟨"RSVD_R", 0x0, 0x200000000000⟩, ⟨"RSVD_W", 0x200000000000, 0x200000000000⟩]

/-- Every row but the two reserved ones. -/
def registerRows : List TableRow :=
  globalRows ++ channelCommandRows ++ channelConfigRows ++ channelReadRows

/-- Every host-access row. -/
def tableRows : List TableRow := registerRows ++ reservedRows

/-- How many mask bits a row sets (R92). -/
def TableRow.maskBits (r : TableRow) : Nat := (List.range 46).countP (r.mask.getLsbD ·)

end Sys2Proof
end

