-- ==== Sys2Proof/Machine/State.lean ====
section
/-! DEFINITION. The state of the block as plain data: every item of 10_state.md R20 to R33, the payload images of 20_memory.md R60, the instance parameters of 00_scope.md R6, and two fields of the model's own (`rdata`, log 5; `pending`, log 1). -/

namespace Sys2Proof.Machine

/-- An engine's or the multiplexer's state, 2 bits (R27, R32): 0 IDLE, 1 RUN, 2 DONE, 3 FAULT. -/
inductive RunState where
  | idle
  | run
  | done
  | fault
  deriving DecidableEq, Repr

/-- `CAUSE_c` (R28, 60_exceptions.md R220); codes 3 to 15 are never raised. -/
inductive ChannelCause where
  | none
  | pred
  | range
  deriving DecidableEq, Repr

/-- `MCAUSE` (R32, 60_exceptions.md R226); codes 5 to 15 are never raised. -/
inductive MuxCause where
  | none
  | chcount
  | rate
  | len
  | src
  deriving DecidableEq, Repr

/-- A payload memory image `PM_c` (20_memory.md R60): a byte for every offset below `size`, and nothing at or above it. The listed cells are those that do not hold 0; every other offset below `size` holds 0. Every byte array has exactly one such form (log 4). -/
structure Memory where
  size : Nat
  cells : List Host.Cell
  deriving DecidableEq, Repr

/-- Decoder engine `c` (R20 to R30) and the payload image it sees. -/
structure Channel where
  /-- `COEF_c[0..15]` (R21). -/
  coef : Vector Sample 16
  /-- `HIST1_c`, the newer sample (R22). -/
  hist1 : Sample
  /-- `HIST2_c`, the older sample (R22). -/
  hist2 : Sample
  /-- `BASE_c` (R23). -/
  base : Word
  /-- `LEN_c` (R23). -/
  len : Word
  /-- `SRATE_c` (R23). -/
  srate : Word
  /-- `POS_c`, the bytes the run has consumed (R24). -/
  pos : Nat
  /-- `NPH_c`: the low nibble of `DB_c` is still to be decoded (R25). -/
  nph : Bool
  /-- `DB_c` (R25). -/
  db : Byte
  /-- `PS_c` (R26). -/
  ps : Byte
  /-- `STATE_c` (R27). -/
  state : RunState
  /-- `F_PRED_c` (R28). -/
  fPred : Bool
  /-- `F_RANGE_c` (R28). -/
  fRange : Bool
  /-- `F_CFGW_c` (R28). -/
  fCfgw : Bool
  /-- `CAUSE_c` (R28). -/
  cause : ChannelCause
  /-- `SCOUNT_c`, exact (R29). -/
  scount : Nat
  /-- `OUTQ_c`, the head first (R30). -/
  outq : List Sample
  /-- `PM_c`, host memory (20_memory.md R60). -/
  pm : Memory
  deriving DecidableEq, Repr

/-- The multiplexer (R31, R32). -/
structure Mux where
  /-- `MNCH` (R31). -/
  mnch : BitVec 8
  /-- `MSRC` (R31). -/
  msrc : BitVec 16
  /-- `MSTATE` (R32). -/
  mstate : RunState
  /-- `CHLIST` (R32). -/
  chlist : List Chan
  /-- `ML` (R32). -/
  ml : Nat
  /-- `MI` (R32). -/
  mi : Nat
  /-- `MJ` (R32). -/
  mj : Nat
  /-- `OCOUNT`, exact (R32, R44). -/
  ocount : Nat
  /-- `MF_CHCOUNT` (R32). -/
  mfChcount : Bool
  /-- `MF_RATE` (R32). -/
  mfRate : Bool
  /-- `MF_LEN` (R32). -/
  mfLen : Bool
  /-- `MF_SRC` (R32). -/
  mfSrc : Bool
  /-- `MF_CFGW` (R32). -/
  mfCfgw : Bool
  /-- `MCAUSE` (R32). -/
  mcause : MuxCause
  deriving DecidableEq, Repr

/-- One host MMIO access as the host issues it: the triple of 30_encoding.md R89 with its width in bytes and an address of any size, so that the accesses the block does not define (20_memory.md R62) can be written down and refused. -/
structure Access where
  write : Bool
  addr : Nat
  width : Nat
  data : Word
  deriving DecidableEq, Repr

/-- What moves next (00_scope.md R10): the host by an access, by replacing a payload image (20_memory.md R70) or by reset (70_reset_and_hazards.md R250), decoder engine `c`, or the multiplexer. -/
inductive Event where
  | host (a : Access)
  | load (c : Chan) (image : Memory)
  | reset
  | engine (c : Chan)
  | mux
  deriving DecidableEq, Repr

/-- The state of the block. -/
structure State where
  /-- `FIFO_DEPTH` (00_scope.md R6), an instance parameter: no step writes it. -/
  fifoDepth : QueueDepth
  /-- The engines, engine `c` at position `c`; `NCH_MAX` is how many there are (R20, R6). -/
  channels : List Channel
  /-- The multiplexer (R31, R32). -/
  mux : Mux
  /-- `mux_out`, the first byte first (R33). -/
  muxOut : List Byte
  /-- The model's own: the word the last host read returned (log 5). -/
  rdata : Option Word
  /-- The model's own: the moves still to come, the next one first (log 1). -/
  pending : List Event
  deriving DecidableEq, Repr

/-- What stops the machine with no state to go on in. The block's own faults (60_exceptions.md) are no such stops: they are next states. -/
inductive Fault where
  /-- Raised by DATA_HI and DATA_LO when `PS_c` names a coefficient pair 8 to 15, which does not exist (40_decode_datapath.md R102, R103). No state that meets the invariant gets here: HDR_BADPRED faults the channel first. Safe (log 7). -/
  | noCoefficientPair
  /-- Raised by a multiplexer step in RUN with a sample due and no channel at `CHLIST[MJ]` (42_multiplexer.md R176). No state that meets the invariant gets here. Safe (log 8). -/
  | noDueChannel
  deriving DecidableEq, Repr

/-- What the model gives no meaning to. -/
inductive Refusal where
  /-- Raised by an arm of exec whose instruction has no meaning yet. Safe. -/
  | notModelled (mnemonic : String)
  /-- Raised by a host access that is not 4 bytes wide (20_memory.md R62: "the model refuses it"). Safe (log 9). -/
  | accessWidth
  /-- Raised by a host access at or above 0x2000 (R62). Safe (log 9). -/
  | accessOutOfSpace
  /-- Raised by a host access with `addr[1:0] != 0` (R62). Safe (log 9). -/
  | accessMisaligned
  /-- Raised by an event that names an engine or an image of a channel at or above `NCH_MAX`: no such agent exists (10_state.md R20). Safe (log 10). -/
  | noSuchEngine
  /-- Raised by a replacement of `PM_c` while `STATE_c = RUN` (20_memory.md R70, 93_implementation_defined.md I10: refuse). Safe (log 11). -/
  | payloadWhileRunning
  /-- Raised by a replacement of `PM_c` by data that is no byte array in canonical form (`Memory.wf`). Safe (log 11). -/
  | payloadIllFormed
  deriving DecidableEq, Repr

/-- An image of no bytes. -/
def Memory.empty : Memory := { size := 0, cells := [] }

/-- A channel after reset (70_reset_and_hazards.md R250), with the image the host supplied (R251). -/
def Channel.afterReset (image : Memory) : Channel where
  coef := Vector.replicate 16 0
  hist1 := 0
  hist2 := 0
  base := 0
  len := 0
  srate := 0
  pos := 0
  nph := false
  db := 0
  ps := 0
  state := .idle
  fPred := false
  fRange := false
  fCfgw := false
  cause := .none
  scount := 0
  outq := []
  pm := image

/-- The multiplexer after reset (R250). -/
def Mux.afterReset : Mux where
  mnch := 0
  msrc := 0
  mstate := .idle
  chlist := []
  ml := 0
  mi := 0
  mj := 0
  ocount := 0
  mfChcount := false
  mfRate := false
  mfLen := false
  mfSrc := false
  mfCfgw := false
  mcause := .none

/-- A block with the given instance parameters and payload images right after its first reset: nothing appended to `mux_out`, no read returned, no event pending. -/
def State.fresh (depth : QueueDepth) (images : List Memory) : State where
  fifoDepth := depth
  channels := images.map Channel.afterReset
  mux := Mux.afterReset
  muxOut := []
  rdata := none
  pending := []

/-- The machine right after reset (R250), for the instance log 3 names, no payload supplied (log 4). -/
def State.reset : State :=
  State.fresh Config.resetQueueDepth (List.replicate Config.resetChannelCount Memory.empty)

end Sys2Proof.Machine
end

