-- ==== Sys2Proof/Machine/Flags.lean ====
section
/-! DEFINITION. The status words: the codes of the states and causes, Q_EMPTY and Q_FULL, and the fields of CH.STATUS and MUX_STATUS (10_state.md R35, R43; 60_exceptions.md R220, R226). -/

namespace Sys2Proof.Machine

/-- The 2-bit code of a state (R27, R32). -/
def RunState.code : RunState → BitVec 2
  | .idle => 0
  | .run => 1
  | .done => 2
  | .fault => 3

/-- The 4-bit code of a channel cause (R220). -/
def ChannelCause.code : ChannelCause → BitVec 4
  | .none => 0
  | .pred => 1
  | .range => 2

/-- The 4-bit code of a multiplexer cause (R226). -/
def MuxCause.code : MuxCause → BitVec 4
  | .none => 0
  | .chcount => 1
  | .rate => 2
  | .len => 3
  | .src => 4

/-- Q_EMPTY (R35): the queue holds no sample. -/
def Channel.queueEmpty (ch : Channel) : Bool := ch.outq.isEmpty

/-- Q_FULL (R35), and the condition on which a pushing step holds (20_memory.md R66): not fewer than `FIFO_DEPTH` samples. A queue never holds more (invariant); were it to, it would not hold fewer (log 12). -/
def Channel.queueFull (depth : QueueDepth) (ch : Channel) : Bool :=
  match depth with
  | .unbounded => false
  | .bounded n => n ≤ ch.outq.length

/-- CH.STATUS (R35), its fields from bit 31 down. -/
def Channel.status (depth : QueueDepth) (ch : Channel) : Word :=
  0#12 ++ ch.cause.code ++ 0#3 ++ BitVec.ofBool (ch.queueFull depth) ++ BitVec.ofBool ch.queueEmpty ++
    BitVec.ofBool ch.fCfgw ++ BitVec.ofBool ch.fRange ++ BitVec.ofBool ch.fPred ++ 0#6 ++ ch.state.code

/-- MUX_STATUS (R43), its fields from bit 31 down. -/
def Mux.status (m : Mux) : Word :=
  0#12 ++ m.mcause.code ++ 0#3 ++ BitVec.ofBool m.mfCfgw ++ BitVec.ofBool m.mfSrc ++ BitVec.ofBool m.mfLen ++
    BitVec.ofBool m.mfRate ++ BitVec.ofBool m.mfChcount ++ 0#6 ++ m.mstate.code

/-- The MUX_CFG word (42_multiplexer.md R183): `(MSRC << 16) | MNCH`. -/
def Mux.cfgWord (m : Mux) : Word := m.msrc ++ 0#8 ++ m.mnch

/-- The ID word (10_state.md R40): `NCH_MAX` in [7:0]. -/
def idWord (nch : Nat) : Word := 0#24 ++ BitVec.ofNat 8 nch

end Sys2Proof.Machine
end

