-- ==== Sys2Proof/Machine/Operands.lean ====
section
/-! DEFINITION. The operand forms: the fields of a header byte and the coefficient pair they select, the predictor's arithmetic on exact integers (40_decode_datapath.md R102, R106 to R111), the sample count of a run (30_encoding.md R87), and the register views that extend or cut a value (10_state.md R37, R44, R45). -/

namespace Sys2Proof.Machine

/-- `x >> n` on an integer: floor division by 2^n (00_scope.md R9; the divisor is positive, so `/` rounds toward minus infinity). -/
def floorShift (x : Int) (n : Nat) : Int := x / (2 ^ n : Int)

/-- `clamp(x, lo, hi)` (00_scope.md R9). -/
def clamp (x lo hi : Int) : Int := if x < lo then lo else if hi < x then hi else x

/-- `scale = 1 << PS[3:0]` (30_encoding.md R82, R107). -/
def scaleOf (ps : Byte) : Int := 2 ^ (ps.extractLsb' 0 4).toNat

/-- The pair index exists when it is 0 to 7, that is, when `PS[7] = 0` (30_encoding.md R83). -/
def pairExists (ps : Byte) : Bool := !ps.getLsbD 7

/-- The pair index `k` of a header byte whose pair exists (R82). -/
def pairOf (ps : Byte) : BitVec 3 := ps.extractLsb' 4 3

/-- `coef1 = COEF_c[2k]` (R106). -/
def Channel.coef1 (ch : Channel) : Sample :=
  ch.coef[2 * (pairOf ch.ps).toNat]'(by have := (pairOf ch.ps).isLt; omega)

/-- `coef2 = COEF_c[2k+1]` (R106). -/
def Channel.coef2 (ch : Channel) : Sample :=
  ch.coef[2 * (pairOf ch.ps).toNat + 1]'(by have := (pairOf ch.ps).isLt; omega)

/-- The exact sum `((sext_4(n) * scale) << 11) + 1024 + c1*h1 + c2*h2` (R102, R108: no wrap). -/
def accumulator (n : BitVec 4) (ps : Byte) (c1 c2 h1 h2 : Sample) : Int :=
  (n.toInt * scaleOf ps) * 2 ^ 11 + 1024 + c1.toInt * h1.toInt + c2.toInt * h2.toInt

/-- `clamp(acc >> 11, -32768, 32767)` (R102, R110, R111). -/
def pcmOf (acc : Int) : Int := clamp (floorShift acc 11) (-32768) 32767

/-- The sample of one nibble (R102). -/
def predict (n : BitVec 4) (ps : Byte) (c1 c2 h1 h2 : Sample) : Sample :=
  BitVec.ofInt 16 (pcmOf (accumulator n ps c1 c2 h1 h2))

/-- The sample count of a run over `len` bytes (R87). -/
def nsamples (len : Nat) : Nat :=
  14 * (len / 8) + (if 1 ≤ len % 8 then 2 * (len % 8 - 1) else 0)

/-- The register view of a signed 16-bit value: sign-extended to 32 bits (R37). -/
def sampleView (v : Sample) : Word := v.signExtend 32

/-- What a write to a 16-bit register stores: bits [15:0] (R37). -/
def sampleStored (d : Word) : Sample := d.extractLsb' 0 16

/-- The register view of an exact counter: modulo 2^32 (R45). -/
def counterView (n : Nat) : Word := BitVec.ofNat 32 n

/-- What a read of OUT returns for a popped sample: VALID and SAMPLE (R38). -/
def outWord (v : Sample) : Word := 0#15 ++ 1#1 ++ v

/-- The two bytes of a sample in `mux_out`, least significant first (42_multiplexer.md R178). -/
def sampleBytes (v : Sample) : List Byte := [v.extractLsb' 0 8, v.extractLsb' 8 8]

end Sys2Proof.Machine
end

