-- ==== Sys2Proof/Machine/Ops.lean ====
section
/-! DEFINITION. The named operations over payload memory, registers and queues; taking a fault and leaving it (60_exceptions.md R224, R225, R230), each once; the fetch of what moves next; the steps of the block that are no rows of the opcode table (the multiplexer step R176, reset R250, the replacement of a payload image R70). -/

namespace Sys2Proof.Machine

/-- The answer of a meaning or of a step. -/
abbrev Result := Host.Outcome State Fault Refusal

/-! ## Payload memory -/

/-- The byte the cells give at `a`; an unlisted offset reads 0 (log 4). -/
def cellsRead : List Host.Cell → Nat → Byte
  | [], _ => 0#8
  | (x, v) :: rest, a => if x = a then v else cellsRead rest a

/-- The cells with the byte at `a` set, in canonical form: rising offsets, no 0 listed. -/
def cellsWrite : List Host.Cell → Nat → Byte → List Host.Cell
  | [], a, b => if b = 0#8 then [] else [(a, b)]
  | (x, v) :: rest, a, b =>
    if a < x then (if b = 0#8 then (x, v) :: rest else (a, b) :: (x, v) :: rest)
    else if a = x then (if b = 0#8 then rest else (a, b) :: rest)
    else (x, v) :: cellsWrite rest a b

/-- Offsets strictly rising from `lo`, below `size`, and no 0 listed. -/
def cellsWf (size : Nat) : Nat → List Host.Cell → Bool
  | _, [] => true
  | lo, (a, b) :: rest => lo ≤ a && a < size && b != 0#8 && cellsWf size (a + 1) rest

/-- The canonical form of an image, of a size R6 allows. -/
def Memory.wf (m : Memory) : Bool := m.size ≤ Config.maxPayloadSize && cellsWf m.size 0 m.cells

/-- `MemRead(PM_c, a, 1)` (00_scope.md R9): defined only for `a < PM_SIZE_c`. -/
def Memory.read (m : Memory) (a : Nat) : Option Byte :=
  if a < m.size then some (cellsRead m.cells a) else none

/-- The image with one of its bytes set; an offset outside it sets nothing. The host's tool: no step of the block writes payload memory (20_memory.md R60). -/
def Memory.write (m : Memory) (a : Nat) (b : Byte) : Memory :=
  if a < m.size then { m with cells := cellsWrite m.cells a b } else m

/-- The cells of a byte list from offset `a` on. -/
def cellsFrom : Nat → List Byte → List Host.Cell
  | _, [] => []
  | a, b :: rest => if b = 0#8 then cellsFrom (a + 1) rest else (a, b) :: cellsFrom (a + 1) rest

/-- The image that is the byte array `bs`. -/
def Memory.ofBytes (bs : List Byte) : Memory := { size := bs.length, cells := cellsFrom 0 bs }

/-! ## Channels and registers -/

/-- `NCH_MAX`. -/
def State.nchMax (s : State) : Nat := s.channels.length

/-- Engine `c`, if the block has it (10_state.md R20). -/
def State.channel? (s : State) (c : Chan) : Option Channel := s.channels[c.toNat]?

/-- The state with engine `c` replaced. -/
def State.setChannel (s : State) (c : Chan) (ch : Channel) : State :=
  { s with channels := s.channels.set c.toNat ch }

/-- The state with the multiplexer replaced. -/
def State.setMux (s : State) (m : Mux) : State := { s with mux := m }

/-- The state after a host read that returns `w` (20_memory.md R64). -/
def State.returning (s : State) (w : Word) : State := { s with rdata := some w }

/-- The state with the next event used up. -/
def State.retire (s : State) : State := { s with pending := s.pending.tail }

/-- A host write that changes engine `c`; a channel the block does not have is a reserved address, and the write is ignored (30_encoding.md R92, log 14). -/
def updateChannel (c : Chan) (f : Channel → Channel) (s : State) : Result :=
  match s.channel? c with
  | none => .next s
  | some ch => .next (s.setChannel c (f ch))

/-- A configuration write (41_channel_control.md R146, R147): in RUN it only sets `F_CFGW_c`. -/
def configWrite (c : Chan) (f : Channel → Channel) (s : State) : Result :=
  updateChannel c (fun ch => if ch.state = .run then { ch with fCfgw := true } else f ch) s

/-- A host read of a channel register without side effect; a channel the block does not have reads 0 (R63, R92, log 14). -/
def readChannel (c : Chan) (view : Channel → Word) (s : State) : Result :=
  match s.channel? c with
  | none => .next (s.returning 0)
  | some ch => .next (s.returning (view ch))

/-- A host read of a word that is no channel's. -/
def readWord (w : Word) (s : State) : Result := .next (s.returning w)

/-- A write to a reserved address or to a read-only register (20_memory.md R63): no state changes. -/
def ignoreWrite (s : State) : Result := .next s

/-! ## Taking a fault, and leaving it -/

/-- Channel fault entry `raise Fault(cause)` (60_exceptions.md R224): STATE, the cause's flag and CAUSE, and nothing more. -/
def Channel.raiseFault (ch : Channel) (cause : ChannelCause) : Channel :=
  { ch with
    state := .fault
    fPred := if cause = .pred then true else ch.fPred
    fRange := if cause = .range then true else ch.fRange
    cause := cause }

/-- The return from a channel fault, and the end of any run, is ABORT (R230, 41_channel_control.md R143). -/
def Channel.abort (ch : Channel) : Channel :=
  { ch with
    state := .idle
    nph := false
    fPred := false
    fRange := false
    fCfgw := false
    cause := .none
    outq := [] }

/-- `raise MuxFault(SRC)` (60_exceptions.md R225, R227). -/
def Mux.raiseSrc (m : Mux) : Mux := { m with mstate := .fault, mfSrc := true, mcause := .src }

/-- Multiplexer fault entry at START (42_multiplexer.md R171): the failing checks' flags, and the lowest failing code as the cause (R226). -/
def Mux.raiseStart (m : Mux) (eCount eRate eLen : Bool) : Mux :=
  { m with
    mfChcount := eCount
    mfRate := eRate
    mfLen := eLen
    mcause := if eCount then .chcount else if eRate then .rate else .len
    mstate := .fault }

/-- The multiplexer's ABORT (42_multiplexer.md R174): `OCOUNT`, `MNCH` and `MSRC` keep their values. -/
def Mux.abort (m : Mux) : Mux :=
  { m with
    mstate := .idle
    chlist := []
    ml := 0
    mi := 0
    mj := 0
    mfChcount := false
    mfRate := false
    mfLen := false
    mfSrc := false
    mfCfgw := false
    mcause := .none }

/-! ## Decoder engine steps -/

/-- The four engine steps (40_decode_datapath.md R100). -/
inductive EngineStep where
  | dataLo
  | finish
  | hdr
  | dataHi
  deriving DecidableEq, Repr

/-- The step the sequencer selects (R100), in the rule's order; none while `STATE_c` is not RUN. -/
def Channel.selects (ch : Channel) : Option EngineStep :=
  if ch.state = .run then
    some (if ch.nph = true then .dataLo
      else if ch.pos = ch.len.toNat then .finish
      else if ch.pos % 8 = 0 then .hdr
      else .dataHi)
  else none

/-- The steps that push a sample, which hold while the queue is full (20_memory.md R66). -/
def EngineStep.pushes : EngineStep → Bool
  | .dataLo => true
  | .finish => false
  | .hdr => false
  | .dataHi => true

/-- The payload offset of the next byte (20_memory.md R65): exact, no wrap. -/
def Channel.address (ch : Channel) : Nat := ch.base.toNat + ch.pos

/-- The part of HDR and DATA_HI before the byte is used (R103, R104): RANGE when it lies outside `PM_c` (60_exceptions.md R222), and then the byte is not examined (R223). -/
def Channel.consuming (ch : Channel) (use : Channel → Option Channel) : Option Channel :=
  if ch.pm.size ≤ ch.address then some (ch.raiseFault .range) else use ch

/-- SAMPLE(n) (R102): the history shifts, the sample is pushed and counted. None when `PS_c` names a pair that does not exist (log 7). -/
def Channel.sample (ch : Channel) (n : BitVec 4) : Option Channel :=
  if pairExists ch.ps then
    let v := predict n ch.ps ch.coef1 ch.coef2 ch.hist1 ch.hist2
    some { ch with hist2 := ch.hist1, hist1 := v, outq := ch.outq ++ [v], scount := ch.scount + 1 }
  else none

/-- One step of engine `c`, if it is the one the sequencer selects: a pushing step with a full queue holds before any check (R100, R223); a step that is not selected is not taken (log 6). -/
def engineStep (c : Chan) (kind : EngineStep) (body : Channel → Option Channel) (s : State) : Result :=
  match s.channel? c with
  | none => .next s
  | some ch =>
    if ch.selects = some kind then
      if (kind.pushes && ch.queueFull s.fifoDepth) = true then .next s
      else
        match body ch with
        | none => .fault .noCoefficientPair
        | some ch' => .next (s.setChannel c ch')
    else .next s

/-- START of an engine that is IDLE or DONE (41_channel_control.md R141). -/
def Channel.start (ch : Channel) : Channel :=
  { ch with pos := 0, nph := false, db := 0, ps := 0, scount := 0, state := .run }

/-- The RANGE fault of a step whose byte cannot be read, so that there is nothing to decode (R65, R222). -/
def takeRange (c : Chan) (s : State) : Result :=
  updateChannel c (fun ch => ch.raiseFault .range) s

/-! ## The multiplexer -/

/-- `S` of 42_multiplexer.md R171: the channels `MSRC` selects, ascending. -/
def sourcesOf (msrc : BitVec 16) : List Chan :=
  ((List.range 16).map (BitVec.ofNat 4)).filter (fun c => msrc.getLsbD c.toNat)

/-- Two members of the list differ. -/
def someDiffer {α : Type} [DecidableEq α] (l : List α) : Bool :=
  l.any (fun a => l.any (fun b => a != b))

/-- The channels of `Sv` (R171): the selected channels the block has. -/
def State.validSources (s : State) (cs : List Chan) : List Channel := cs.filterMap s.channel?

/-- CHCOUNT_BAD(S) (R173). -/
def chcountBad (mnch : BitVec 8) (nch : Nat) (cs : List Chan) : Bool :=
  mnch == 0 || cs.any (fun c => !hasChannel nch c) || cs.length != mnch.toNat

/-- RATE_BAD(Sv) (R172). -/
def rateBad (chs : List Channel) : Bool := someDiffer (chs.map (·.srate))

/-- LEN_BAD(Sv) (R175). -/
def lenBad (chs : List Channel) : Bool := someDiffer (chs.map (fun ch => nsamples ch.len.toNat))

/-- `nsamples(LEN_(S[0]))` (R171). A START that passes its checks has an `S[0]`, and a channel of that index. -/
def firstLength (chs : List Channel) : Nat :=
  match chs with
  | [] => 0
  | ch :: _ => nsamples ch.len.toNat

/-- The multiplexer after START in IDLE or DONE (R171). -/
def State.muxStarted (s : State) : Mux :=
  let cs := sourcesOf s.mux.msrc
  let chs := s.validSources cs
  let eCount := chcountBad s.mux.mnch s.nchMax cs
  let eRate := rateBad chs
  let eLen := lenBad chs
  if eCount || eRate || eLen then s.mux.raiseStart eCount eRate eLen
  else { s.mux with chlist := cs, ml := firstLength chs, mi := 0, mj := 0, ocount := 0, mstate := .run }

/-- The counters after one sample is moved (R176). -/
def Mux.advance (m : Mux) : Mux :=
  if m.mj + 1 = m.chlist.length then { m with ocount := m.ocount + 1, mj := 0, mi := m.mi + 1 }
  else { m with ocount := m.ocount + 1, mj := m.mj + 1 }

/-- The sample `v` moved from channel `c`'s queue to `mux_out` (R176, R178). -/
def State.emitSample (s : State) (c : Chan) (ch : Channel) (v : Sample) (rest : List Sample) : State :=
  { s with
    channels := s.channels.set c.toNat { ch with outq := rest }
    mux := s.mux.advance
    muxOut := s.muxOut ++ sampleBytes v }

/-- The multiplexer step (R176); none while `MSTATE` is not RUN, and a hold changes nothing. -/
def muxStep (s : State) : Result :=
  if s.mux.mstate = .run then
    if s.mux.mi = s.mux.ml then .next (s.setMux { s.mux with mstate := .done })
    else
      match s.mux.chlist[s.mux.mj]? with
      | none => .fault .noDueChannel
      | some c =>
        match s.channel? c with
        | none => .fault .noDueChannel
        | some ch =>
          match ch.outq with
          | v :: rest => .next (s.emitSample c ch v rest)
          | [] => if ch.state = .fault then .next (s.setMux s.mux.raiseSrc) else .next s
  else .next s

/-! ## Reset and payload images -/

/-- Reset (70_reset_and_hazards.md R250): every register of every engine and of the multiplexer. `PM_c` and `mux_out` stay (R251), and so do the instance parameters and the model's own fields (log 5). -/
def State.applyReset (s : State) : State :=
  { s with
    channels := s.channels.map (fun ch => Channel.afterReset ch.pm)
    mux := Mux.afterReset }

/-- The host replaces `PM_c` (20_memory.md R70): only while `STATE_c` is not RUN (93_implementation_defined.md I10). -/
def loadPayload (c : Chan) (image : Memory) (s : State) : Result :=
  match s.channel? c with
  | none => .refused .noSuchEngine
  | some ch =>
    if ch.state = .run then .refused .payloadWhileRunning
    else if image.wf then .next (s.setChannel c { ch with pm := image })
    else .refused .payloadIllFormed

/-! ## Fetching what moves next -/

/-- What the next event is at this state. -/
inductive Fetched where
  /-- No event is pending. -/
  | idle
  /-- The agent has no enabled step now (00_scope.md R9: hold). -/
  | hold
  /-- An instruction's unit, for the decoder. -/
  | code (u : CodeUnit)
  /-- The byte engine `c` must read lies outside `PM_c`. -/
  | outOfRange (c : Chan)
  /-- A multiplexer step. -/
  | muxTurn
  /-- Reset. -/
  | reset
  /-- A payload image for channel `c`. -/
  | load (c : Chan) (image : Memory)
  /-- A move the model refuses. -/
  | refuse (r : Refusal)
  deriving DecidableEq, Repr

/-- A host access: its key, if it is an access the block defines (20_memory.md R62); its alignment is the decoder's check. -/
def fetchAccess (a : Access) : Fetched :=
  if a.width ≠ 4 then .refuse .accessWidth
  else if 0x2000 ≤ a.addr then .refuse .accessOutOfSpace
  else .code (.access (accessKey a.write (BitVec.ofNat 13 a.addr) a.data))

/-- Engine `c`'s next unit (R100): the byte at `BASE_c + POS_c` for HDR and DATA_HI (R65), no byte for DATA_LO and END. -/
def State.fetchEngine (s : State) (c : Chan) : Fetched :=
  match s.channel? c with
  | none => .refuse .noSuchEngine
  | some ch =>
    match ch.selects with
    | none => .hold
    | some .dataLo => .code (.latched c)
    | some .finish => .code (.ended c)
    | some .hdr =>
      match ch.pm.read ch.address with
      | none => .outOfRange c
      | some b => .code (.header c b)
    | some .dataHi =>
      if ch.queueFull s.fifoDepth then .hold
      else
        match ch.pm.read ch.address with
        | none => .outOfRange c
        | some b => .code (.data c b)

/-- What moves next (log 1). -/
def State.fetch (s : State) : Fetched :=
  match s.pending with
  | [] => .idle
  | .host a :: _ => fetchAccess a
  | .load c image :: _ => .load c image
  | .reset :: _ => .reset
  | .engine c :: _ => s.fetchEngine c
  | .mux :: _ => .muxTurn

/-- The refusal of a unit that is no instruction. -/
def refusalOf : DecodeError → Refusal
  | .misaligned => .accessMisaligned
  | .noSuchEngine => .noSuchEngine

/-! ## Placing one instruction to run next -/

/-- Channel 0 set to consume the byte `b` as the header byte of a run (log 13): RUN, at position 0, at least one byte long, and the byte at `BASE_c`. -/
def Channel.placeHeader (ch : Channel) (b : Byte) : Channel :=
  let size := max ch.pm.size (ch.base.toNat + 1)
  { ch with
    state := .run
    nph := false
    pos := 0
    len := if ch.len = 0 then 1 else ch.len
    pm := Memory.write { ch.pm with size := size } ch.base.toNat b }

/-- The state whose next event is engine 0 consuming the byte `b` as a header. -/
def State.placeHeader (s : State) (b : Byte) : State :=
  match s.channel? 0 with
  | none => { s with pending := .engine 0 :: s.pending }
  | some ch => { s.setChannel 0 (ch.placeHeader b) with pending := .engine 0 :: s.pending }

/-- The state whose next event is the host access of a key (30_encoding.md R92). -/
def State.placeAccess (s : State) (key : BitVec 46) : State :=
  let a : Access := { write := keyWrite key, addr := (keyAddr key).toNat, width := 4, data := keyData key }
  { s with pending := .host a :: s.pending }

end Sys2Proof.Machine
end

