-- ==== Sys2Proof/Machine/ChannelControl.lean ====
section
/-! DEFINITION. The meanings of the host accesses to a channel window (41_channel_control.md). -/

namespace Sys2Proof.Machine

/-! ## Commands -/

/-- CH.CTRL with START (R141); in RUN and FAULT nothing changes (R142). -/
def execChCtrlStart (c : Chan) (_d : Word) (s : State) : Result :=
  updateChannel c (fun ch => if ch.state = .idle ∨ ch.state = .done then ch.start else ch) s

/-- CH.CTRL with ABORT (R143), also with both command bits set (R144). -/
def execChCtrlAbort (c : Chan) (_d : Word) (s : State) : Result := updateChannel c Channel.abort s

/-- CH.CTRL with neither command bit (R145). -/
def execChCtrlNop (_c : Chan) (_d : Word) (s : State) : Result := ignoreWrite s

/-- A read of CH.CTRL returns 0 (10_state.md R36). -/
def execChCtrlR (c : Chan) (s : State) : Result := readChannel c (fun _ => 0) s

/-! ## Configuration writes (R146, R147) -/

def execChBaseW (c : Chan) (d : Word) (s : State) : Result := configWrite c (fun ch => { ch with base := d }) s

def execChLenW (c : Chan) (d : Word) (s : State) : Result := configWrite c (fun ch => { ch with len := d }) s

def execChSrateW (c : Chan) (d : Word) (s : State) : Result := configWrite c (fun ch => { ch with srate := d }) s

def execChHist1W (c : Chan) (d : Word) (s : State) : Result :=
  configWrite c (fun ch => { ch with hist1 := sampleStored d }) s

def execChHist2W (c : Chan) (d : Word) (s : State) : Result :=
  configWrite c (fun ch => { ch with hist2 := sampleStored d }) s

def execChCoefW (c : Chan) (i : BitVec 4) (d : Word) (s : State) : Result :=
  configWrite c (fun ch => { ch with coef := ch.coef.set i.toNat (sampleStored d) i.isLt }) s

/-! ## Reads (R148, R149, R150) -/

def execChBaseR (c : Chan) (s : State) : Result := readChannel c (fun ch => ch.base) s

def execChLenR (c : Chan) (s : State) : Result := readChannel c (fun ch => ch.len) s

def execChSrateR (c : Chan) (s : State) : Result := readChannel c (fun ch => ch.srate) s

def execChHist1R (c : Chan) (s : State) : Result := readChannel c (fun ch => sampleView ch.hist1) s

def execChHist2R (c : Chan) (s : State) : Result := readChannel c (fun ch => sampleView ch.hist2) s

def execChCoefR (c : Chan) (i : BitVec 4) (s : State) : Result :=
  readChannel c (fun ch => sampleView (ch.coef[i.toNat]'i.isLt)) s

def execChStatusR (c : Chan) (s : State) : Result := readChannel c (fun ch => ch.status s.fifoDepth) s

def execChPosR (c : Chan) (s : State) : Result := readChannel c (fun ch => counterView ch.pos) s

def execChScountR (c : Chan) (s : State) : Result := readChannel c (fun ch => counterView ch.scount) s

def execChPsR (c : Chan) (s : State) : Result := readChannel c (fun ch => ch.ps.setWidth 32) s

/-- CH.OUT read (R152): pops a sample, unless the multiplexer owns the queue or it is empty. -/
def execChOutR (c : Chan) (s : State) : Result :=
  match s.channel? c with
  | none => .next (s.returning 0)
  | some ch =>
    if s.mux.mstate = .run ∧ c ∈ s.mux.chlist then .next (s.returning 0)
    else
      match ch.outq with
      | [] => .next (s.returning 0)
      | v :: rest => .next ((s.setChannel c { ch with outq := rest }).returning (outWord v))

/-! ## Writes to read-only registers (R151) -/

def execChStatusW (_c : Chan) (_d : Word) (s : State) : Result := ignoreWrite s

def execChPosW (_c : Chan) (_d : Word) (s : State) : Result := ignoreWrite s

def execChScountW (_c : Chan) (_d : Word) (s : State) : Result := ignoreWrite s

def execChPsW (_c : Chan) (_d : Word) (s : State) : Result := ignoreWrite s

def execChOutW (_c : Chan) (_d : Word) (s : State) : Result := ignoreWrite s

end Sys2Proof.Machine
end

