-- ==== Sys2Proof/Machine/DecoderEngine.lean ====
section
/-! DEFINITION. The meanings of the engine steps HDR, HDR_BADPRED, DATA_HI, DATA_LO and END (40_decode_datapath.md). -/

namespace Sys2Proof.Machine

/-- HDR (R103): the byte is latched in `PS_c` and consumed; RANGE when it lies outside `PM_c`. -/
def execHdr (c : Chan) (k : BitVec 3) (sh : BitVec 4) (s : State) : Result :=
  engineStep c .hdr
    (fun ch => ch.consuming fun ch => some { ch with ps := 0#1 ++ k ++ sh, pos := ch.pos + 1 }) s

/-- HDR_BADPRED (R103, 60_exceptions.md R221): the byte is latched in `PS_c` and the channel takes PRED; it is not consumed. RANGE first (R223). -/
def execHdrBadpred (c : Chan) (k : BitVec 3) (sh : BitVec 4) (s : State) : Result :=
  engineStep c .hdr
    (fun ch => ch.consuming fun ch => some ({ ch with ps := 1#1 ++ k ++ sh }.raiseFault .pred)) s

/-- DATA_HI (R104): the byte is latched in `DB_c` and consumed, and its high nibble decoded. -/
def execDataHi (c : Chan) (hi lo : BitVec 4) (s : State) : Result :=
  engineStep c .dataHi
    (fun ch => ch.consuming fun ch => { ch with db := hi ++ lo, pos := ch.pos + 1, nph := true }.sample hi) s

/-- DATA_LO (R105): the low nibble of `DB_c` is decoded. -/
def execDataLo (c : Chan) (s : State) : Result :=
  engineStep c .dataLo (fun ch => { ch with nph := false }.sample (ch.db.extractLsb' 0 4)) s

/-- END (R101). -/
def execEndRun (c : Chan) (s : State) : Result :=
  engineStep c .finish (fun ch => some { ch with state := .done }) s

end Sys2Proof.Machine
end

