-- ==== Sys2Proof/Machine/Multiplexer.lean ====
section
/-! DEFINITION. The meanings of the host accesses to the global window (42_multiplexer.md, 10_state.md R39 to R44) and to reserved addresses (20_memory.md R63). -/

namespace Sys2Proof.Machine

/-- ID read (10_state.md R40, R185). -/
def execIdR (s : State) : Result := readWord (idWord s.nchMax) s

/-- ID is read-only (R185). -/
def execIdW (_d : Word) (s : State) : Result := ignoreWrite s

/-- MUX_CTRL with START (R171); in RUN and FAULT nothing changes (R179). -/
def execMuxCtrlStart (_d : Word) (s : State) : Result :=
  if s.mux.mstate = .idle ∨ s.mux.mstate = .done then .next (s.setMux s.muxStarted) else .next s

/-- MUX_CTRL with ABORT (R174), also with both command bits set (R180). -/
def execMuxCtrlAbort (_d : Word) (s : State) : Result := .next (s.setMux s.mux.abort)

/-- MUX_CTRL with neither command bit (R180). -/
def execMuxCtrlNop (_d : Word) (s : State) : Result := ignoreWrite s

/-- A read of MUX_CTRL returns 0 (10_state.md R41). -/
def execMuxCtrlR (s : State) : Result := readWord 0 s

/-- MUX_CFG write (R182); in RUN it only sets `MF_CFGW` (R181). -/
def execMuxCfgW (d : Word) (s : State) : Result :=
  if s.mux.mstate = .run then .next (s.setMux { s.mux with mfCfgw := true })
  else .next (s.setMux { s.mux with mnch := d.extractLsb' 0 8, msrc := d.extractLsb' 16 16 })

/-- MUX_CFG read (R183). -/
def execMuxCfgR (s : State) : Result := readWord s.mux.cfgWord s

/-- MUX_STATUS read (R184). -/
def execMuxStatusR (s : State) : Result := readWord s.mux.status s

/-- MUX_OCOUNT read (R185, 10_state.md R44). -/
def execMuxOcountR (s : State) : Result := readWord (counterView s.mux.ocount) s

/-- MUX_STATUS and MUX_OCOUNT are read-only (R185). -/
def execGlobalRoW (_ocount : Bool) (_d : Word) (s : State) : Result := ignoreWrite s

/-- A reserved address reads 0 (20_memory.md R63). -/
def execRsvdR (_a : BitVec 13) (s : State) : Result := readWord 0 s

/-- A write to a reserved address changes nothing (R63). -/
def execRsvdW (_a : BitVec 13) (_d : Word) (s : State) : Result := ignoreWrite s

end Sys2Proof.Machine
end

