-- ==== Sys2Proof/Machine/Dispatch.lean ====
section
/-! DEFINITION. One arm per instruction: the call of its meaning. -/

namespace Sys2Proof.Machine

def exec (i : Instr) (s : State) : Host.Outcome State Fault Refusal :=
  match i with
  | .hdr c k sh => Sys2Proof.Machine.execHdr c k sh s
  | .hdrBadpred c k sh => Sys2Proof.Machine.execHdrBadpred c k sh s
  | .dataHi c hi lo => Sys2Proof.Machine.execDataHi c hi lo s
  | .dataLo c => Sys2Proof.Machine.execDataLo c s
  | .endRun c => Sys2Proof.Machine.execEndRun c s
  | .idR => Sys2Proof.Machine.execIdR s
  | .idW data => Sys2Proof.Machine.execIdW data s
  | .muxCtrlStart data => Sys2Proof.Machine.execMuxCtrlStart data s
  | .muxCtrlAbort data => Sys2Proof.Machine.execMuxCtrlAbort data s
  | .muxCtrlNop data => Sys2Proof.Machine.execMuxCtrlNop data s
  | .muxCtrlR => Sys2Proof.Machine.execMuxCtrlR s
  | .muxCfgW data => Sys2Proof.Machine.execMuxCfgW data s
  | .muxCfgR => Sys2Proof.Machine.execMuxCfgR s
  | .muxStatusR => Sys2Proof.Machine.execMuxStatusR s
  | .muxOcountR => Sys2Proof.Machine.execMuxOcountR s
  | .globalRoW ocount data => Sys2Proof.Machine.execGlobalRoW ocount data s
  | .chCtrlStart c data => Sys2Proof.Machine.execChCtrlStart c data s
  | .chCtrlAbort c data => Sys2Proof.Machine.execChCtrlAbort c data s
  | .chCtrlNop c data => Sys2Proof.Machine.execChCtrlNop c data s
  | .chCtrlR c => Sys2Proof.Machine.execChCtrlR c s
  | .chStatusR c => Sys2Proof.Machine.execChStatusR c s
  | .chStatusW c data => Sys2Proof.Machine.execChStatusW c data s
  | .chBaseW c data => Sys2Proof.Machine.execChBaseW c data s
  | .chBaseR c => Sys2Proof.Machine.execChBaseR c s
  | .chLenW c data => Sys2Proof.Machine.execChLenW c data s
  | .chLenR c => Sys2Proof.Machine.execChLenR c s
  | .chSrateW c data => Sys2Proof.Machine.execChSrateW c data s
  | .chSrateR c => Sys2Proof.Machine.execChSrateR c s
  | .chHist1W c data => Sys2Proof.Machine.execChHist1W c data s
  | .chHist1R c => Sys2Proof.Machine.execChHist1R c s
  | .chHist2W c data => Sys2Proof.Machine.execChHist2W c data s
  | .chHist2R c => Sys2Proof.Machine.execChHist2R c s
  | .chPosR c => Sys2Proof.Machine.execChPosR c s
  | .chPosW c data => Sys2Proof.Machine.execChPosW c data s
  | .chScountR c => Sys2Proof.Machine.execChScountR c s
  | .chScountW c data => Sys2Proof.Machine.execChScountW c data s
  | .chPsR c => Sys2Proof.Machine.execChPsR c s
  | .chPsW c data => Sys2Proof.Machine.execChPsW c data s
  | .chOutR c => Sys2Proof.Machine.execChOutR c s
  | .chOutW c data => Sys2Proof.Machine.execChOutW c data s
  | .chCoefW c j data => Sys2Proof.Machine.execChCoefW c j data s
  | .chCoefR c j => Sys2Proof.Machine.execChCoefR c j s
  | .rsvdR addr => Sys2Proof.Machine.execRsvdR addr s
  | .rsvdW addr data => Sys2Proof.Machine.execRsvdW addr data s

end Sys2Proof.Machine
end

