-- ==== Sys2Proof/Machine/Step.lean ====
section
/-! DEFINITION. One step of the block: fetch what moves next, decode it if it is an instruction, and run it on the state with that event used up. -/

namespace Sys2Proof.Machine

def step (s : State) : Host.Outcome State Fault Refusal :=
  match s.fetch with
  | .idle => .next s
  | .hold => .next s.retire
  | .code u =>
    match decode s.nchMax u with
    | .instr i => exec i s.retire
    | .reject e => .refused (refusalOf e)
  | .outOfRange c => takeRange c s.retire
  | .muxTurn => muxStep s.retire
  | .reset => .next s.retire.applyReset
  | .load c image => loadPayload c image s.retire
  | .refuse r => .refused r

/-- The state with the instruction of a table row's bits placed to run next (log 13): up to 8 bits, a header byte for engine 0; more, a host access key. -/
def State.withFetchWord (s : State) (nbits w : Nat) : State :=
  if nbits ≤ 8 then s.placeHeader (BitVec.ofNat 8 w) else s.placeAccess (BitVec.ofNat 46 w)

end Sys2Proof.Machine
end

