-- ==== Sys2Proof/Machine/HostInterface.lean ====
section
/-! DEFINITION. The host's side of a conversion (43_host_interface.md, 70_reset_and_hazards.md R253, R254, R264): the DSP file header, the register writes that load it, the pseudo-operations of 30_encoding.md R91, and the seek entry of R209. These functions make event lists for `pending`; the block does not call them (log 16). -/

namespace Sys2Proof.Machine

/-! ## The DSP file header (R200, R201) -/

/-- A big-endian 16-bit field (R201). -/
def be16 (bs : List Byte) (off : Nat) : BitVec 16 := bs.getD off 0 ++ bs.getD (off + 1) 0

/-- A big-endian 32-bit field (R201). -/
def be32 (bs : List Byte) (off : Nat) : Word := be16 bs off ++ be16 bs (off + 2)

/-- The fields of the 0x60-byte header (R200). -/
structure DspHeader where
  sampleCount : Word
  nibbleCount : Word
  sampleRate : Word
  loopFlag : BitVec 16
  format : BitVec 16
  loopStart : Word
  loopEnd : Word
  currentAddress : Word
  coefs : List Sample
  gain : Sample
  initPred : Sample
  history1 : Sample
  history2 : Sample
  loopPred : Sample
  loopHist1 : Sample
  loopHist2 : Sample
  reserved : List Sample
  deriving DecidableEq, Repr

/-- The length of the header (R200). -/
def dspHeaderSize : Nat := 0x60

/-- The header's fields at the offsets of R200; a file shorter than the header has none. -/
def parseDspHeader (file : List Byte) : Option DspHeader :=
  if file.length < dspHeaderSize then none
  else some {
    sampleCount := be32 file 0x00
    nibbleCount := be32 file 0x04
    sampleRate := be32 file 0x08
    loopFlag := be16 file 0x0C
    format := be16 file 0x0E
    loopStart := be32 file 0x10
    loopEnd := be32 file 0x14
    currentAddress := be32 file 0x18
    coefs := (List.range 16).map (fun i => be16 file (0x1C + 2 * i))
    gain := be16 file 0x3C
    initPred := be16 file 0x3E
    history1 := be16 file 0x40
    history2 := be16 file 0x42
    loopPred := be16 file 0x44
    loopHist1 := be16 file 0x46
    loopHist2 := be16 file 0x48
    reserved := (List.range 11).map (fun i => be16 file (0x4A + 2 * i)) }

/-! ## Accesses and pseudo-operations (R90, R91) -/

/-- `W <reg>, <value>` at a byte address. -/
def hostWrite (addr : Nat) (d : Word) : Event := .host { write := true, addr := addr, width := 4, data := d }

/-- `R <reg>` at a byte address. -/
def hostRead (addr : Nat) : Event := .host { write := false, addr := addr, width := 4, data := 0 }

/-- The address of a channel register (10_state.md R34). -/
def channelReg (c : Chan) (off : Nat) : Nat := 0x1000 + 0x100 * c.toNat + off

/-- The writes of coefficients from index `i` on, in order. -/
def loadCoefFrom (c : Chan) : Nat → List Sample → List Event
  | _, [] => []
  | i, v :: rest => hostWrite (channelReg c (0x40 + 4 * i)) (sampleView v) :: loadCoefFrom c (i + 1) rest

/-- `LOADCOEF CH<c>, v0..v15` (R91). -/
def loadCoef (c : Chan) (vs : List Sample) : List Event := loadCoefFrom c 0 vs

/-- `POLL` (R91), as `n` repeats of the read: the event list is fixed before the run, so the count is an argument (log 16). -/
def poll (addr n : Nat) : List Event := List.replicate n (hostRead addr)

/-- `DRAIN CH<c>` (R91), as `n` repeats of the OUT read (log 16). -/
def drain (c : Chan) (n : Nat) : List Event := List.replicate n (hostRead (channelReg c 0x28))

/-! ## Loading a DSP file (R202 to R204, R207, R253) -/

/-- The two ways R204 gives the host to supply the payload. -/
inductive PayloadPlacement where
  | wholeFile
  | payloadOnly
  deriving DecidableEq, Repr


/-- The `BASE` the host writes (R204). -/
def PayloadPlacement.base (p : PayloadPlacement) : Word :=
  match p with
  | .wholeFile => 0x60
  | .payloadOnly => 0

/-- `LEN = nibbleCount div 2`, an odd count rounding down (R204). -/
def DspHeader.payloadLength (h : DspHeader) : Word := BitVec.ofNat 32 (h.nibbleCount.toNat / 2)

/-- The payload of a file (R204): the `nibbleCount div 2` bytes after the header, and nothing that follows them. -/
def DspHeader.payload (h : DspHeader) (file : List Byte) : List Byte :=
  (file.drop dspHeaderSize).take h.payloadLength.toNat

/-- The bytes the host supplies as `PM_c` (R204): the whole file, or the payload alone. -/
def PayloadPlacement.bytes (p : PayloadPlacement) (h : DspHeader) (file : List Byte) : List Byte :=
  match p with
  | .wholeFile => file
  | .payloadOnly => h.payload file

/-- The configuration writes of a channel (R202, R203, R204, R207; R253 step 2). -/
def configureChannel (c : Chan) (p : PayloadPlacement) (h : DspHeader) : List Event :=
  loadCoef c h.coefs ++
    [hostWrite (channelReg c 0x14) (sampleView h.history1),
     hostWrite (channelReg c 0x18) (sampleView h.history2),
     hostWrite (channelReg c 0x08) p.base,
     hostWrite (channelReg c 0x0C) h.payloadLength,
     hostWrite (channelReg c 0x10) h.sampleRate]

/-- CH.CTRL.START (R253 step 3). -/
def startChannel (c : Chan) : Event := hostWrite (channelReg c 0x00) 1

/-- The moves before a channel run, in the order of R253; none for a file shorter than a header. -/
def channelRun (c : Chan) (p : PayloadPlacement) (file : List Byte) : Option (List Event) :=
  (parseDspHeader file).map fun h =>
    .load c (Memory.ofBytes (p.bytes h file)) :: configureChannel c p h ++ [startChannel c]

/-- The MUX_CFG word of a declared count and a source mask (10_state.md R42). -/
def muxCfgWord (mnch : BitVec 8) (msrc : BitVec 16) : Word := msrc ++ 0#8 ++ mnch

/-- The moves of R254 steps 2 to 4, every selected channel started after the multiplexer. -/
def muxRun (mnch : BitVec 8) (msrc : BitVec 16) : List Event :=
  hostWrite 0x14 (muxCfgWord mnch msrc) :: hostWrite 0x10 1 :: (sourcesOf msrc).map startChannel

/-! ## The end of a conversion, and seek entries (R264, R209) -/

/-- A run has ended (R264). -/
def RunState.ended (st : RunState) : Bool := st == .done || st == .fault

/-- A conversion has ended correctly: the multiplexer is DONE and no selected channel reports a fault (R264). -/
def State.conversionEnded (s : State) : Bool :=
  s.mux.mstate == .done && (s.validSources s.mux.chlist).all (fun ch => ch.state != .fault)

/-- The seek entry of group `g` (R209): (0, 0) for group 0, else the pair the engine holds before the group, in the order `SEEK_PAIR_ORDER` gives (92_eei_decisions.md D31). -/
def seekEntry (order : SeekPairOrder) (g : Nat) (hist1 hist2 : Sample) : Sample × Sample :=
  if g = 0 then (0, 0)
  else
    match order with
    | .hist1First => (hist1, hist2)
    | .hist2First => (hist2, hist1)

end Sys2Proof.Machine
end

