-- ==== Sys2Proof/Safety.lean ====
section
/-! DEFINITION. What claims are stated in terms of: the invariant of the block's state, the bytes of payload memory, and the reference functions of a whole run (the source's decoder over a byte list, and its interleaver), which know no step, queue or position. -/

namespace Sys2Proof.Machine

/-- The state of a next answer. -/
def nextOf : Result → Option State
  | .next t => some t
  | .fault _ => none
  | .refused _ => none

/-- `k` steps of the machine. -/
def runSteps (k : Nat) (s : State) : Result := core.run k s

/-- The queue holds fewer than `FIFO_DEPTH` samples (40_decode_datapath.md R104, R105). -/
def hasRoom (depth : QueueDepth) (ch : Channel) : Prop := ∀ n, depth = .bounded n → ch.outq.length < n

/-- A unit with the bits that select nothing cleared: the data bits of a read (30_encoding.md R92). -/
def canonicalUnit : CodeUnit → CodeUnit
  | .header c b => .header c b
  | .data c b => .data c b
  | .latched c => .latched c
  | .ended c => .ended c
  | .access key => if keyWrite key then .access key else .access (accessKey false (keyAddr key) 0)

/-- The byte engine `c` would read at offset `a`: none outside `PM_c`, and none for a channel the block has not. -/
def State.payloadByte (s : State) (c : Chan) (a : Nat) : Option Byte :=
  (s.channel? c).bind (fun ch => ch.pm.read a)

/-- The instruction the next step runs, if it runs one. -/
def State.nextInstr (s : State) : Option Instr :=
  match s.fetch with
  | .code u => (decode s.nchMax u).toOption
  | _ => none

/-- The same block but for engine `c`. -/
def SameButChannel (c : Chan) (s t : State) : Prop :=
  t.fifoDepth = s.fifoDepth ∧ t.mux = s.mux ∧ t.muxOut = s.muxOut ∧ t.rdata = s.rdata ∧ t.pending = s.pending ∧
    t.nchMax = s.nchMax ∧ ∀ d : Chan, d ≠ c → t.channel? d = s.channel? d

/-- What no engine step writes of its own channel (10_state.md R47, 41_channel_control.md R147): the configuration, the warning flag and the payload image. -/
def SameConfiguration (ch ch' : Channel) : Prop :=
  ch'.coef = ch.coef ∧ ch'.base = ch.base ∧ ch'.len = ch.len ∧ ch'.srate = ch.srate ∧ ch'.pm = ch.pm

/-- The moves that write nothing on the host's part: turns of the engines and of the multiplexer, and host reads. -/
def turnsAndReads (es : List Event) : Prop :=
  ∀ e ∈ es, e = .mux ∨ (∃ d, e = .engine d) ∨ ∃ a, e = .host a ∧ a.write = false

/-! ## The invariant -/

/-- The queue holds at most `FIFO_DEPTH` samples (10_state.md R30). -/
def withinDepth (depth : QueueDepth) (n : Nat) : Prop :=
  match depth with
  | .unbounded => True
  | .bounded d => n ≤ d

/-- Engine `c`: its image is in canonical form; its queue is within the depth (R30); while it runs, `POS_c <= LEN_c` (R24) and `PS_c` names a pair that exists (R103); a low nibble waits only while it runs, after a data byte (R104); it is in FAULT exactly with a cause, and the flags follow the cause (R224); and unless it is IDLE the samples pushed, with the one that waits, are those of the bytes consumed (R87). -/
def Channel.Inv (depth : QueueDepth) (ch : Channel) : Prop :=
  ch.pm.wf = true ∧ withinDepth depth ch.outq.length ∧
  (ch.state = .run → ch.pos ≤ ch.len.toNat ∧ pairExists ch.ps = true) ∧
  (ch.nph = true → ch.state = .run ∧ 2 ≤ ch.pos ∧ ch.pos % 8 ≠ 1) ∧
  (ch.state = .fault ↔ ch.cause ≠ .none) ∧
  (ch.fPred = true ↔ ch.cause = .pred) ∧ (ch.fRange = true ↔ ch.cause = .range) ∧
  (ch.state ≠ .idle → ch.scount + (if ch.nph then 1 else 0) = nsamples ch.pos)

/-- The multiplexer: `CHLIST` holds channels of the block, ascending (R32, R171); while it runs it has a channel due, `MI` and `MJ` are in range, `OCOUNT` counts the samples moved and the count is the declared one (R171, R176); when it is done it has moved `ML` samples of every channel (R186); it is in FAULT exactly with a cause, and the flags agree with the cause (R226). -/
def Mux.Inv (nch : Nat) (m : Mux) : Prop :=
  (∀ c ∈ m.chlist, c.toNat < nch) ∧ m.chlist.Pairwise (fun c d => c.toNat < d.toNat) ∧
  (m.mstate = .run → m.mj < m.chlist.length ∧ m.mi ≤ m.ml ∧ (m.mi = m.ml → m.mj = 0) ∧
    m.ocount = m.mi * m.chlist.length + m.mj ∧ m.chlist.length = m.mnch.toNat) ∧
  (m.mstate = .done → m.ocount = m.chlist.length * m.ml) ∧
  (m.mstate = .fault ↔ m.mcause ≠ .none) ∧
  (m.mfChcount = true ↔ m.mcause = .chcount) ∧ (m.mfSrc = true ↔ m.mcause = .src) ∧
  (m.mcause = .rate → m.mfRate = true) ∧ (m.mcause = .len → m.mfLen = true) ∧
  (m.mfRate = true → m.mcause = .chcount ∨ m.mcause = .rate) ∧
  (m.mfLen = true → m.mcause = .chcount ∨ m.mcause = .rate ∨ m.mcause = .len)

/-- The block: legal instance parameters (00_scope.md R6), every engine and the multiplexer. -/
def State.Inv (s : State) : Prop :=
  legalChannelCount s.nchMax = true ∧ s.fifoDepth.legal = true ∧
  (∀ ch ∈ s.channels, ch.Inv s.fifoDepth) ∧ s.mux.Inv s.nchMax

/-! ## A whole channel run, without the machine -/

/-- The sample of one nibble under a coefficient file (40_decode_datapath.md R102, R106). -/
def refSample (coef : Vector Sample 16) (ps : Byte) (h1 h2 : Sample) (n : BitVec 4) : Sample :=
  predict n ps (coef.toList.getD (2 * (pairOf ps).toNat) 0) (coef.toList.getD (2 * (pairOf ps).toNat + 1) 0) h1 h2

/-- The samples of the bytes from position `pos` of a run on, with the header byte `ps` in force and the history `h1`, `h2`: a byte at a multiple of 8 is a header, any other gives two samples, high nibble first (R80 to R86). -/
def refDecode (coef : Vector Sample 16) : Nat → Byte → Sample → Sample → List Byte → List Sample
  | _, _, _, _, [] => []
  | pos, ps, h1, h2, b :: rest =>
    if pos % 8 = 0 then refDecode coef (pos + 1) b h1 h2 rest
    else
      let x := refSample coef ps h1 h2 (b.extractLsb' 4 4)
      let y := refSample coef ps x h1 (b.extractLsb' 0 4)
      x :: y :: refDecode coef (pos + 1) ps y x rest

/-- The history after those bytes (R109): newer sample first. -/
def refHistory (coef : Vector Sample 16) : Nat → Byte → Sample → Sample → List Byte → Sample × Sample
  | _, _, h1, h2, [] => (h1, h2)
  | pos, ps, h1, h2, b :: rest =>
    if pos % 8 = 0 then refHistory coef (pos + 1) b h1 h2 rest
    else
      let x := refSample coef ps h1 h2 (b.extractLsb' 4 4)
      let y := refSample coef ps x h1 (b.extractLsb' 0 4)
      refHistory coef (pos + 1) ps y x rest

/-- Every header byte of the bytes from position `pos` on names a pair that exists (R83). -/
def headersExist : Nat → List Byte → Bool
  | _, [] => true
  | pos, b :: rest => (pos % 8 != 0 || pairExists b) && headersExist (pos + 1) rest

/-- The engine steps the bytes from position `pos` on take: one for a header, two for a data byte, and END (R100). -/
def refSteps : Nat → List Byte → Nat
  | _, [] => 1
  | pos, _ :: rest => (if pos % 8 = 0 then 1 else 2) + refSteps (pos + 1) rest

/-- The bytes a run consumes from position `pos` on, of the `n` it has left: up to the first it faults on, which is one outside `PM_c` (R65) or a header byte whose pair does not exist (R83). -/
def bytesAhead (pm : Memory) (base : Nat) : Nat → Nat → List Byte
  | _, 0 => []
  | pos, n + 1 =>
    match pm.read (base + pos) with
    | none => []
    | some b => if pos % 8 = 0 ∧ pairExists b = false then [] else b :: bytesAhead pm base (pos + 1) n

/-- The samples a running channel has still to push (R118): the one of the waiting low nibble, if it waits, and those of the bytes ahead. -/
def Channel.samplesAhead (ch : Channel) : List Sample :=
  let bs := bytesAhead ch.pm ch.base.toNat ch.pos (ch.len.toNat - ch.pos)
  if ch.nph then
    let y := refSample ch.coef ch.ps ch.hist1 ch.hist2 (ch.db.extractLsb' 0 4)
    y :: refDecode ch.coef ch.pos ch.ps y ch.hist1 bs
  else refDecode ch.coef ch.pos ch.ps ch.hist1 ch.hist2 bs

/-! ## A whole multiplexer run, without the machine -/

/-- Sample `i` of every queue, in the queues' order, as bytes (42_multiplexer.md R177, R178). -/
def refRow (queues : List (List Sample)) (i : Nat) : List Byte :=
  queues.flatMap (fun q => sampleBytes (q.getD i 0))

/-- Samples 0 to `ml - 1` of every queue, interleaved (R177). -/
def refInterleave (queues : List (List Sample)) (ml : Nat) : List Byte :=
  (List.range ml).flatMap (refRow queues)

end Sys2Proof.Machine
end

