-- ==== Sys2Proof/Certificates/Slice0/Obligations.lean ====
section
/-! DEFINITION. The statements about the block, each formalising rules of spec/ or resting on them; none is proved here. -/

open Sys2Proof Sys2Proof.Machine

/-! ## Encoding -/

/-- R82, R84, R92: words written out from the encodings decode to their instructions. Header byte 0x3C is `0 011 1100`; 0xD5 is `1 101 0101`; data byte 0x17; key fields are `dir`, `addr`, `data`. -/
def Obligations.SampleWordsDecode : Prop :=
  decode 16 (.header 2 0b00111100) = .instr (.hdr 2 3 12) ∧
  decode 16 (.header 0 0b11010101) = .instr (.hdrBadpred 0 5 5) ∧
  decode 16 (.data 1 0b00010111) = .instr (.dataHi 1 1 7) ∧
  decode 16 (.access (accessKey true 0x0010 0x1)) = .instr (.muxCtrlStart 0x1) ∧
  decode 16 (.access (accessKey true 0x0010 0x3)) = .instr (.muxCtrlAbort 0x3) ∧
  decode 16 (.access (accessKey false 0x001C 0)) = .instr .muxOcountR ∧
  decode 16 (.access (accessKey true 0x1300 0x1)) = .instr (.chCtrlStart 3 0x1) ∧
  decode 16 (.access (accessKey true 0x1F0C 0x10)) = .instr (.chLenW 15 0x10) ∧
  decode 16 (.access (accessKey true 0x104C 0xFFFFFC00)) = .instr (.chCoefW 0 3 0xFFFFFC00) ∧
  decode 16 (.access (accessKey false 0x1028 0)) = .instr (.chOutR 0) ∧
  decode 16 (.access (accessKey false 0x102C 0)) = .instr (.rsvdR 0x102C) ∧
  decode 2 (.access (accessKey false 0x1204 0)) = .instr (.rsvdR 0x1204)

/-- The decoder reads back every well-formed instruction, every operand at every value the encoding admits, for every channel count. -/
def Obligations.DecodeOfEncodeIsTheInstruction : Prop :=
  ∀ (nch : Nat) (i : Instr), i.wellFormed nch = true → decode nch (encode i) = .instr i

/-- Every unit the decoder accepts is a well-formed instruction's own unit, but for the data bits of a read, which select nothing (R92). -/
def Obligations.EncodeOfDecodeIsTheUnit : Prop :=
  ∀ (nch : Nat) (u : CodeUnit) (i : Instr), decode nch u = .instr i →
    i.wellFormed nch = true ∧ encode i = canonicalUnit u

/-- R92: an access decodes to the instruction of the opcode table's row that applies to its key and has more mask bits than any other that does. -/
def Obligations.DecoderFollowsOpcodeTable : Prop :=
  ∀ (nch : Nat) (key : BitVec 46), (keyAddr key).toNat % 4 = 0 →
    ∃ i r, decode nch (.access key) = .instr i ∧ r ∈ tableRows ∧ r.mnemonic = i.mnemonic ∧
      r.applies nch key = true ∧
      ∀ r' ∈ tableRows, r'.applies nch key = true → r' ≠ r → r'.maskBits < r.maskBits

/-! ## The step -/

/-- A step runs the decoded instruction: a host access its key's, an engine the unit its sequencer and payload give (R92, R100, R65), on the state with that event used up. -/
def Obligations.StepRunsDecodedInstruction : Prop :=
  ∀ (s : State) (i : Instr) (rest : List Event),
    (∀ a : Access, s.pending = .host a :: rest → a.width = 4 → a.addr < 0x2000 →
      decode s.nchMax (.access (accessKey a.write (BitVec.ofNat 13 a.addr) a.data)) = .instr i →
      step s = exec i { s with pending := rest }) ∧
    (∀ (c : Chan) (ch : Channel), s.pending = .engine c :: rest → s.channel? c = some ch →
      (ch.selects = some .dataLo → decode s.nchMax (.latched c) = .instr i →
        step s = exec i { s with pending := rest }) ∧
      (ch.selects = some .finish → decode s.nchMax (.ended c) = .instr i →
        step s = exec i { s with pending := rest }) ∧
      (∀ b : Byte, ch.selects = some .hdr → ch.pm.read (ch.base.toNat + ch.pos) = some b →
        decode s.nchMax (.header c b) = .instr i → step s = exec i { s with pending := rest }) ∧
      (∀ b : Byte, ch.selects = some .dataHi → hasRoom s.fifoDepth ch →
        ch.pm.read (ch.base.toNat + ch.pos) = some b →
        decode s.nchMax (.data c b) = .instr i → step s = exec i { s with pending := rest }))

/-- R100: the sequencer's choice, in the rule's order; an engine that is not in RUN has no step, and a selected step that would push into a full queue holds. That such a turn uses up its event and changes nothing else is the model's choice (log 2). -/
def Obligations.SequencerSelectsInOrder : Prop :=
  ∀ (s : State) (c : Chan) (ch : Channel) (rest : List Event), s.channel? c = some ch →
    s.pending = .engine c :: rest →
    (ch.state ≠ .run → ch.selects = none ∧ step s = .next { s with pending := rest }) ∧
    (ch.state = .run → ch.nph = true → ch.selects = some .dataLo) ∧
    (ch.state = .run → ch.nph = false → ch.pos = ch.len.toNat → ch.selects = some .finish) ∧
    (ch.state = .run → ch.nph = false → ch.pos ≠ ch.len.toNat → ch.pos % 8 = 0 → ch.selects = some .hdr) ∧
    (ch.state = .run → ch.nph = false → ch.pos ≠ ch.len.toNat → ch.pos % 8 ≠ 0 → ch.selects = some .dataHi) ∧
    (ch.selects = some .dataLo ∨ ch.selects = some .dataHi → ¬ hasRoom s.fifoDepth ch →
      step s = .next { s with pending := rest })

/-- R176: the multiplexer's turn changes nothing but the event when it is not in RUN, and when it is and the due channel's queue is empty and that channel is not in FAULT; with no event pending nothing changes (the model's choice, log 2). -/
def Obligations.HeldMultiplexerChangesNothing : Prop :=
  ∀ (s : State) (rest : List Event),
    (s.pending = [] → step s = .next s) ∧
    (s.pending = .mux :: rest → s.mux.mstate ≠ .run → step s = .next { s with pending := rest }) ∧
    (∀ (d : Chan) (ch : Channel), s.pending = .mux :: rest → s.mux.mstate = .run → s.mux.mi ≠ s.mux.ml →
      s.mux.chlist[s.mux.mj]? = some d → s.channel? d = some ch → ch.outq = [] → ch.state ≠ .fault →
      step s = .next { s with pending := rest })

/-- R62: an access that is not 32 bits wide, not aligned or not below 0x2000 is refused; every other access, from any state, completes. -/
def Obligations.OnlyUndefinedAccessesAreRefused : Prop :=
  ∀ (s : State) (a : Access) (rest : List Event), s.pending = .host a :: rest →
    ((a.width ≠ 4 ∨ a.addr % 4 ≠ 0 ∨ 0x2000 ≤ a.addr) → ∃ r, step s = .refused r) ∧
    (a.width = 4 → a.addr % 4 = 0 → a.addr < 0x2000 → ∃ t, step s = .next t)

/-- R63: a read of a reserved address returns 0, and a write to one, or to a read-only register, changes no state. -/
def Obligations.ReservedReadsZeroIgnoresWrites : Prop :=
  (∀ (s : State) (a : Access) (rest : List Event), s.pending = .host a :: rest → a.width = 4 → a.addr < 0x2000 →
    reservedAddr s.nchMax (BitVec.ofNat 13 a.addr) = true →
    step s = .next (if a.write then { s with pending := rest } else { s with pending := rest, rdata := some 0 })) ∧
  (∀ (s : State) (c : Chan) (a : BitVec 13) (g : Bool) (d : Word),
    exec (.rsvdR a) s = .next { s with rdata := some 0 } ∧ exec (.rsvdW a d) s = .next s ∧
    exec (.idW d) s = .next s ∧ exec (.globalRoW g d) s = .next s ∧ exec (.chStatusW c d) s = .next s ∧
    exec (.chPosW c d) s = .next s ∧ exec (.chScountW c d) s = .next s ∧ exec (.chPsW c d) s = .next s ∧
    exec (.chOutW c d) s = .next s)

/-! ## Decoder engine -/

/-- R103: HDR reads the byte at `BASE_c + POS_c`. Outside `PM_c` the channel takes RANGE; a byte with bit 7 set is latched in `PS_c` and the channel takes PRED, the byte not consumed; any other byte is latched and consumed. Nothing else changes. Said of the two instructions, and of the step of an engine whose sequencer selects HDR. -/
def Obligations.HdrLatchesAndConsumesItsByte : Prop :=
  ∀ (s : State) (c : Chan) (ch : Channel) (k : BitVec 3) (sh : BitVec 4), s.channel? c = some ch →
    ch.state = .run → ch.nph = false → ch.pos ≠ ch.len.toNat → ch.pos % 8 = 0 →
    (ch.base.toNat + ch.pos < ch.pm.size →
      exec (.hdr c k sh) s = .next (s.setChannel c { ch with ps := 0#1 ++ k ++ sh, pos := ch.pos + 1 }) ∧
      exec (.hdrBadpred c k sh) s = .next (s.setChannel c
        { ch with ps := 1#1 ++ k ++ sh, state := .fault, fPred := true, cause := .pred })) ∧
    (ch.pm.size ≤ ch.base.toNat + ch.pos → ∀ i ∈ [Instr.hdr c k sh, .hdrBadpred c k sh],
      exec i s = .next (s.setChannel c { ch with state := .fault, fRange := true, cause := .range })) ∧
    ∀ rest, s.pending = .engine c :: rest →
      (ch.pm.read (ch.base.toNat + ch.pos) = none → step s = .next (State.setChannel { s with pending := rest } c
        { ch with state := .fault, fRange := true, cause := .range })) ∧
      ∀ b, ch.pm.read (ch.base.toNat + ch.pos) = some b → step s = .next (State.setChannel { s with pending := rest } c
        (if b.getLsbD 7 then { ch with ps := b, state := .fault, fPred := true, cause := .pred }
          else { ch with ps := b, pos := ch.pos + 1 }))

/-- R104: DATA_HI reads the byte at `BASE_c + POS_c`; outside `PM_c` the channel takes RANGE. The byte is latched in `DB_c` and consumed, and the sample of its high nibble is pushed (R102); with a full queue the step is not enabled. Said of the instruction, and of the step of an engine whose sequencer selects DATA_HI. -/
def Obligations.DataHiDecodesHighNibble : Prop :=
  ∀ (s : State) (c : Chan) (ch : Channel) (hi lo : BitVec 4), s.channel? c = some ch →
    ch.state = .run → ch.nph = false → ch.pos ≠ ch.len.toNat → ch.pos % 8 ≠ 0 →
    (¬ hasRoom s.fifoDepth ch → exec (.dataHi c hi lo) s = .next s) ∧
    (hasRoom s.fifoDepth ch → ch.base.toNat + ch.pos < ch.pm.size → ch.ps.getLsbD 7 = false →
      exec (.dataHi c hi lo) s = .next (s.setChannel c
        { ch with
          db := hi ++ lo, pos := ch.pos + 1, nph := true, hist2 := ch.hist1
          hist1 := refSample ch.coef ch.ps ch.hist1 ch.hist2 hi
          outq := ch.outq ++ [refSample ch.coef ch.ps ch.hist1 ch.hist2 hi], scount := ch.scount + 1 })) ∧
    (hasRoom s.fifoDepth ch → ch.pm.size ≤ ch.base.toNat + ch.pos →
      exec (.dataHi c hi lo) s = .next (s.setChannel c { ch with state := .fault, fRange := true, cause := .range })) ∧
    ∀ rest, s.pending = .engine c :: rest → hasRoom s.fifoDepth ch →
      (ch.pm.read (ch.base.toNat + ch.pos) = none → step s = .next (State.setChannel { s with pending := rest } c
        { ch with state := .fault, fRange := true, cause := .range })) ∧
      ∀ b, ch.pm.read (ch.base.toNat + ch.pos) = some b → ch.ps.getLsbD 7 = false →
        step s = .next (State.setChannel { s with pending := rest } c
          { ch with
            db := b, pos := ch.pos + 1, nph := true, hist2 := ch.hist1
            hist1 := refSample ch.coef ch.ps ch.hist1 ch.hist2 (b.extractLsb' 4 4)
            outq := ch.outq ++ [refSample ch.coef ch.ps ch.hist1 ch.hist2 (b.extractLsb' 4 4)]
            scount := ch.scount + 1 })

/-- R105: DATA_LO pushes the sample of the low nibble of `DB_c`; with a full queue the step is not enabled. -/
def Obligations.DataLoDecodesLatchedNibble : Prop :=
  ∀ (s : State) (c : Chan) (ch : Channel), s.channel? c = some ch → ch.state = .run → ch.nph = true →
    (¬ hasRoom s.fifoDepth ch → exec (.dataLo c) s = .next s) ∧
    (hasRoom s.fifoDepth ch → ch.ps.getLsbD 7 = false →
      exec (.dataLo c) s = .next (s.setChannel c
        { ch with
          nph := false, hist2 := ch.hist1
          hist1 := refSample ch.coef ch.ps ch.hist1 ch.hist2 (ch.db.extractLsb' 0 4)
          outq := ch.outq ++ [refSample ch.coef ch.ps ch.hist1 ch.hist2 (ch.db.extractLsb' 0 4)]
          scount := ch.scount + 1 }))

/-- R101: END sets STATE to DONE and changes nothing else. -/
def Obligations.EndOnlySetsDone : Prop :=
  ∀ (s : State) (c : Chan) (ch : Channel), s.channel? c = some ch →
    ch.state = .run → ch.nph = false → ch.pos = ch.len.toNat →
    exec (.endRun c) s = .next (s.setChannel c { ch with state := .done })

/-- R102: SAMPLE(n) is the predictor recurrence on exact integers: the coefficient pair and the scale of `PS_c`, the floor of the sum over 2^11, the clamp, the history shift, the push and the count. -/
def Obligations.SampleIsThePredictorRecurrence : Prop :=
  ∀ (ch : Channel) (n : BitVec 4), ch.ps.getLsbD 7 = false →
    ∃ v : Sample,
      v.toInt = max (-32768) (min 32767
        ⌊(((n.toInt * 2 ^ (ch.ps.toNat % 16)) * 2 ^ 11 + 1024
            + (ch.coef.toList.getD (2 * (ch.ps.toNat / 16)) 0).toInt * ch.hist1.toInt
            + (ch.coef.toList.getD (2 * (ch.ps.toNat / 16) + 1) 0).toInt * ch.hist2.toInt : Int) : ℚ) / 2 ^ 11⌋) ∧
      ch.sample n = some
        { ch with hist2 := ch.hist1, hist1 := v, outq := ch.outq ++ [v], scount := ch.scount + 1 }

/-- R108: the range of the exact sum over all operands; both ends are reached. -/
def Obligations.AccumulatorRangeIsTight : Prop :=
  (∀ (n : BitVec 4) (ps : Byte) (c1 c2 h1 h2 : Sample),
    -2684288000 ≤ accumulator n ps c1 c2 h1 h2 ∧ accumulator n ps c1 c2 h1 h2 ≤ 2617246720) ∧
  (∃ n ps c1 c2 h1 h2, accumulator n ps c1 c2 h1 h2 = -2684288000) ∧
  (∃ n ps c1 c2 h1 h2, accumulator n ps c1 c2 h1 h2 = 2617246720)

/-- R114: a coefficient is a weight with 11 fraction bits: with the other coefficient 0 and a zero nibble, 2048 gives the history sample itself, and -2048 its negation, clamped. -/
def Obligations.CoefficientUnitWeights : Prop :=
  ∀ (ps : Byte) (h1 h2 : Sample),
    predict 0 ps 2048 0 h1 h2 = h1 ∧ predict 0 ps 0 2048 h1 h2 = h2 ∧
    (predict 0 ps (-2048) 0 h1 h2).toInt = min 32767 (-h1.toInt)

/-- R65, R222, R223, R224: a step whose byte lies outside `PM_c` takes RANGE: STATE, F_RANGE and CAUSE, and nothing more of the block changes. -/
def Obligations.UnreadableByteTakesRange : Prop :=
  ∀ (s : State) (c : Chan) (ch : Channel) (rest : List Event), s.pending = .engine c :: rest →
    s.channel? c = some ch → ch.state = .run → ch.nph = false → ch.pos ≠ ch.len.toNat →
    (ch.pos % 8 = 0 ∨ hasRoom s.fifoDepth ch) → ch.pm.size ≤ ch.base.toNat + ch.pos →
    step s = .next (State.setChannel { s with pending := rest } c
      { ch with state := .fault, fRange := true, cause := .range })

/-- Frame of the engine instructions (R47, R113): the rest of the block, the configuration, the warning flag and every byte of payload memory stay; HDR and HDR_BADPRED leave the history, the latch, the phase, the count and the queue; DATA_HI leaves `PS_c`; DATA_LO leaves `PS_c`, `POS_c`, `DB_c`, STATE and the fault flags; END leaves everything but STATE. -/
def Obligations.EngineInstructionFrame : Prop :=
  ∀ (s t : State) (c : Chan) (i : Instr) (k : BitVec 3) (sh hi lo : BitVec 4),
    i ∈ [.hdr c k sh, .hdrBadpred c k sh, .dataHi c hi lo, .dataLo c, .endRun c] → exec i s = .next t →
    SameButChannel c s t ∧ (∀ (d : Chan) (a : Nat), t.payloadByte d a = s.payloadByte d a) ∧
    ∀ ch ch', s.channel? c = some ch → t.channel? c = some ch' →
      SameConfiguration ch ch' ∧ ch'.fCfgw = ch.fCfgw ∧
      (i = .hdr c k sh ∨ i = .hdrBadpred c k sh → ch'.hist1 = ch.hist1 ∧ ch'.hist2 = ch.hist2 ∧ ch'.db = ch.db ∧
        ch'.nph = ch.nph ∧ ch'.scount = ch.scount ∧ ch'.outq = ch.outq) ∧
      (i = .dataHi c hi lo → ch'.ps = ch.ps ∧ ch'.fPred = ch.fPred) ∧
      (i = .dataLo c → ch'.ps = ch.ps ∧ ch'.pos = ch.pos ∧ ch'.db = ch.db ∧ ch'.state = ch.state ∧
        ch'.fPred = ch.fPred ∧ ch'.fRange = ch.fRange ∧ ch'.cause = ch.cause) ∧
      (i = .endRun c → { ch' with state := ch.state } = ch)

/-- R113: two engines' steps may be taken in either order. -/
def Obligations.EngineStepsCommute : Prop :=
  ∀ (s t : State) (c d : Chan) (rest : List Event), c ≠ d → s.pending = .engine c :: .engine d :: rest →
    runSteps 2 s = .next t → runSteps 2 { s with pending := .engine d :: .engine c :: rest } = .next t

/-- R47, R113: what an engine's step does to its channel depends on that channel and the queue depth alone, and it changes no other part of the block. -/
def Obligations.EngineStepSeesOnlyItsChannel : Prop :=
  ∀ (s1 s2 t1 : State) (c : Chan) (rest1 rest2 : List Event),
    s1.pending = .engine c :: rest1 → s2.pending = .engine c :: rest2 →
    s1.channel? c = s2.channel? c → s1.fifoDepth = s2.fifoDepth → step s1 = .next t1 →
    SameButChannel c { s1 with pending := rest1 } t1 ∧
    ∃ t2, step s2 = .next t2 ∧ t2.channel? c = t1.channel? c

/-- R87: the sample count of a run over whole frames, and over a last frame of `r` bytes. -/
def Obligations.SampleCountOfLength : Prop :=
  ∀ n r : Nat, nsamples (n * 8) = n * 14 ∧ (1 ≤ r → r ≤ 7 → nsamples (n * 8 + r) = n * 14 + 2 * (r - 1))

/-- R115: when a run ends in DONE it has pushed exactly `nsamples(LEN_c)` samples (in every state that meets the invariant). -/
def Obligations.DoneRunPushedAllSamples : Prop :=
  ∀ (s : State) (c : Chan) (ch : Channel) (rest : List Event), s.Inv → s.pending = .engine c :: rest →
    s.channel? c = some ch → ch.state = .run → ch.nph = false → ch.pos = ch.len.toNat →
    ∃ t ch', step s = .next t ∧ t.channel? c = some ch' ∧ ch'.state = .done ∧
      ch'.scount = nsamples ch'.len.toNat ∧ ch'.pos = ch'.len.toNat

/-- A whole channel run (R80 to R87, R100 to R105, R112, R115): from just after START, over a readable payload whose header bytes name pairs that exist and with an unbounded queue, the engine's steps end in DONE with the reference decoder's samples pushed in order, its history left, and nothing else of the block changed but the byte latches. -/
def Obligations.FullRunDecodesThePayload : Prop :=
  ∀ (s : State) (c : Chan) (ch : Channel) (bs : List Byte) (rest : List Event), s.channel? c = some ch →
    ch.state = .run → ch.pos = 0 → ch.nph = false → ch.scount = 0 → s.fifoDepth = .unbounded →
    bs.length = ch.len.toNat → (∀ i < bs.length, ch.pm.read (ch.base.toNat + i) = bs[i]?) →
    headersExist 0 bs = true → s.pending = List.replicate (refSteps 0 bs) (.engine c) ++ rest →
    ∃ ps db, runSteps (refSteps 0 bs) s = .next (State.setChannel { s with pending := rest } c
      { ch with
        state := .done, pos := bs.length, scount := nsamples bs.length, ps := ps, db := db
        hist1 := (refHistory ch.coef 0 ch.ps ch.hist1 ch.hist2 bs).1
        hist2 := (refHistory ch.coef 0 ch.ps ch.hist1 ch.hist2 bs).2
        outq := ch.outq ++ refDecode ch.coef 0 ch.ps ch.hist1 ch.hist2 bs })

/-- R118: under any interleaving of engine turns, multiplexer turns and host reads, and at any queue depth, a run pushes the samples its starting channel determines, in order: at every moment the samples pushed so far are the first of them, of which the queue keeps a tail, and at the end of the run they are all of them. Two runs from the same channel (queues and depths apart) that end, end alike: history, position, header latch, state, cause, flags and count. -/
def Obligations.RunResultIsScheduleIndependent : Prop :=
  (∀ (s t : State) (c : Chan) (x y : Channel) (k : Nat), s.Inv → s.channel? c = some x → x.state = .run →
    turnsAndReads s.pending → runSteps k s = .next t → t.channel? c = some y →
    ∃ m ≤ x.samplesAhead.length, y.scount = x.scount + m ∧ y.outq <:+ x.outq ++ x.samplesAhead.take m ∧
      (y.state ≠ .run → m = x.samplesAhead.length)) ∧
  (∀ (s1 s2 t1 t2 : State) (c : Chan) (x1 x2 y1 y2 : Channel) (k1 k2 : Nat),
    s1.channel? c = some x1 → s2.channel? c = some x2 → x1.state = .run →
    { x1 with outq := [] } = { x2 with outq := [] } → turnsAndReads s1.pending → turnsAndReads s2.pending →
    runSteps k1 s1 = .next t1 → runSteps k2 s2 = .next t2 → t1.channel? c = some y1 → t2.channel? c = some y2 →
    y1.state ≠ .run → y2.state ≠ .run → { y1 with outq := [] } = { y2 with outq := [] })

/-- R205: one run decodes a whole stream. Another decodes its first `n` frames and ends in DONE; then the host writes the BASE and LEN of what is left, and START. Under any interleaving of engine turns, multiplexer turns and host reads in each run, and at any queue depth, the second run pushes the samples of the one run that follow the first `14 n`: at every moment its queue is a tail of the queue it found and those samples up to its count. When both have ended they have the same history, state and cause, and the positions and counts of the two parts add up to those of the one run. -/
def Obligations.ResumedDecodeContinues : Prop :=
  ∀ (s2 t2 t3 : State) (c : Chan) (ch y2 y3 : Channel) (q : List Sample) (k3 n : Nat) (first second : List Event)
    (base len : Word), 8 * n ≤ ch.len.toNat → base.toNat = ch.base.toNat + 8 * n → len.toNat = ch.len.toNat - 8 * n →
    s2.channel? c = some { ch.start with len := BitVec.ofNat 32 (8 * n), outq := q } →
    s2.pending = first ++ hostWrite (channelReg c 0x08) base :: hostWrite (channelReg c 0x0C) len ::
      startChannel c :: second →
    turnsAndReads first → turnsAndReads second →
    runSteps first.length s2 = .next t2 → t2.channel? c = some y2 → y2.state = .done →
    runSteps (3 + k3) t2 = .next t3 → t3.channel? c = some y3 →
    y2.scount = 14 * n ∧
    (14 * n + y3.scount ≤ ch.start.samplesAhead.length ∧
      y3.outq <:+ y2.outq ++ (ch.start.samplesAhead.drop (14 * n)).take y3.scount) ∧
    ∀ (s1 t1 : State) (y1 : Channel) (k1 : Nat), s1.channel? c = some ch.start → turnsAndReads s1.pending →
      runSteps k1 s1 = .next t1 → t1.channel? c = some y1 → y1.state ≠ .run → y3.state ≠ .run →
      y3.hist1 = y1.hist1 ∧ y3.hist2 = y1.hist2 ∧ y3.state = y1.state ∧ y3.cause = y1.cause ∧
        8 * n + y3.pos = y1.pos ∧ 14 * n + y3.scount = y1.scount

/-! ## Whole-machine rules -/

/-- R60, R70: no instruction writes payload memory, and no step changes the payload memory of a channel in RUN. -/
def Obligations.PayloadIsNotWrittenDuringRun : Prop :=
  (∀ (i : Instr) (s t : State), exec i s = .next t → ∀ (c : Chan) (a : Nat), t.payloadByte c a = s.payloadByte c a) ∧
  (∀ (s t : State) (c : Chan) (ch : Channel), step s = .next t → s.channel? c = some ch → ch.state = .run →
    ∀ a : Nat, t.payloadByte c a = s.payloadByte c a)

/-- R147: whatever moves, but for reset, the configuration of a channel in RUN stays. -/
def Obligations.ConfigurationConstantDuringRun : Prop :=
  ∀ (s t : State) (c : Chan) (ch : Channel), step s = .next t → s.pending.head? ≠ some .reset →
    s.channel? c = some ch → ch.state = .run → ∃ ch', t.channel? c = some ch' ∧ SameConfiguration ch ch'

/-- R229: no engine step and no multiplexer step clears a fault flag, a warning flag or a cause; and (in every state that meets the invariant) no step at all does, but for an ABORT of that agent and reset. -/
def Obligations.FaultFlagsAreSticky : Prop :=
  ∀ s t : State, step s = .next t →
    (∀ (e : Event) (rest : List Event), s.pending = e :: rest → (e = .mux ∨ ∃ c, e = .engine c) →
      (∀ (c : Chan) (ch : Channel), s.channel? c = some ch → ∃ ch', t.channel? c = some ch' ∧
        (ch.fPred = true → ch'.fPred = true) ∧ (ch.fRange = true → ch'.fRange = true) ∧
        (ch.fCfgw = true → ch'.fCfgw = true) ∧ (ch.cause ≠ .none → ch'.cause ≠ .none)) ∧
      (s.mux.mfChcount = true → t.mux.mfChcount = true) ∧ (s.mux.mfRate = true → t.mux.mfRate = true) ∧
      (s.mux.mfLen = true → t.mux.mfLen = true) ∧ (s.mux.mfSrc = true → t.mux.mfSrc = true) ∧
      (s.mux.mfCfgw = true → t.mux.mfCfgw = true) ∧ (s.mux.mcause ≠ .none → t.mux.mcause ≠ .none)) ∧
    (s.Inv → s.pending.head? ≠ some .reset →
      (∀ (c : Chan) (ch : Channel), s.channel? c = some ch → (∀ d, s.nextInstr ≠ some (.chCtrlAbort c d)) →
        ∃ ch', t.channel? c = some ch' ∧ (ch.fPred = true → ch'.fPred = true) ∧
          (ch.fRange = true → ch'.fRange = true) ∧ (ch.fCfgw = true → ch'.fCfgw = true) ∧
          (ch.cause ≠ .none → ch'.cause = ch.cause)) ∧
      ((∀ d, s.nextInstr ≠ some (.muxCtrlAbort d)) →
        (s.mux.mfChcount = true → t.mux.mfChcount = true) ∧ (s.mux.mfRate = true → t.mux.mfRate = true) ∧
        (s.mux.mfLen = true → t.mux.mfLen = true) ∧ (s.mux.mfSrc = true → t.mux.mfSrc = true) ∧
        (s.mux.mfCfgw = true → t.mux.mfCfgw = true) ∧ (s.mux.mcause ≠ .none → t.mux.mcause = s.mux.mcause)))

/-- R33, R178, R261: every step leaves `mux_out` alone, but for a multiplexer step, which may append the two bytes of the due channel's head sample, least significant first. -/
def Obligations.OnlyMultiplexerAppendsOutput : Prop :=
  ∀ s t : State, step s = .next t →
    t.muxOut = s.muxOut ∨
    (s.pending.head? = some .mux ∧ ∃ c ch v q, s.mux.chlist[s.mux.mj]? = some c ∧ s.channel? c = some ch ∧
      ch.outq = v :: q ∧ t.muxOut = s.muxOut ++ [v.extractLsb' 0 8, v.extractLsb' 8 8])

/-- R71: a channel in DONE or FAULT keeps its position, count, header latch and state through every step but a START, an ABORT and reset, and its history through every step but those and a host write of that history register; that exception is the model's reading of R71 beside R146 (log 18). -/
def Obligations.EndedRunKeepsItsResults : Prop :=
  ∀ (s t : State) (c : Chan) (ch : Channel), step s = .next t → s.channel? c = some ch →
    (ch.state = .done ∨ ch.state = .fault) → s.pending.head? ≠ some .reset →
    (∀ d, s.nextInstr ≠ some (.chCtrlStart c d)) → (∀ d, s.nextInstr ≠ some (.chCtrlAbort c d)) →
    ∃ ch', t.channel? c = some ch' ∧ ch'.state = ch.state ∧ ch'.pos = ch.pos ∧ ch'.scount = ch.scount ∧
      ch'.ps = ch.ps ∧ ((∀ d, s.nextInstr ≠ some (.chHist1W c d)) → ch'.hist1 = ch.hist1) ∧
      ((∀ d, s.nextInstr ≠ some (.chHist2W c d)) → ch'.hist2 = ch.hist2)

/-- The state after reset meets the invariant, for every legal instance (R6, R250). -/
def Obligations.ResetMeetsInvariant : Prop :=
  State.reset.Inv ∧
  ∀ (depth : QueueDepth) (images : List Memory), depth.legal = true → legalChannelCount images.length = true →
    (∀ m ∈ images, m.wf = true) → (State.fresh depth images).Inv

/-- Every step from a state that meets the invariant gives one that does. -/
def Obligations.StepKeepsTheInvariant : Prop :=
  ∀ s t : State, s.Inv → step s = .next t → t.Inv

/-- From a state that meets the invariant no step ends in a fault: the block goes on from each of its own faults (R224, R225). -/
def Obligations.NoStepFaultsUnderTheInvariant : Prop :=
  ∀ (s : State) (f : Fault), s.Inv → step s ≠ .fault f

/-- R250, R251: reset sets every piece of the block's state to its reset value, and leaves `PM_c`, `mux_out` and the instance parameters; every register then reads 0, except CH.STATUS and ID. -/
def Obligations.ResetSetsEveryRegister : Prop :=
  ∀ (s : State) (rest : List Event), s.pending = .reset :: rest →
    ∃ t, step s = .next t ∧ t.pending = rest ∧ t.fifoDepth = s.fifoDepth ∧ t.nchMax = s.nchMax ∧
      t.muxOut = s.muxOut ∧
      t.mux = { mnch := 0, msrc := 0, mstate := .idle, chlist := [], ml := 0, mi := 0, mj := 0, ocount := 0,
                mfChcount := false, mfRate := false, mfLen := false, mfSrc := false, mfCfgw := false,
                mcause := .none } ∧
      (∀ (c : Chan) (ch : Channel), s.channel? c = some ch → ∃ ch', t.channel? c = some ch' ∧
        (∀ (i : Nat) (h : i < 16), ch'.coef[i] = 0) ∧
        ch' = { coef := ch'.coef, hist1 := 0, hist2 := 0, base := 0, len := 0, srate := 0, pos := 0, nph := false,
                db := 0, ps := 0, state := .idle, fPred := false, fRange := false, fCfgw := false, cause := .none,
                scount := 0, outq := [], pm := ch.pm }) ∧
      (s.fifoDepth.legal = true → ∀ (c : Chan) (j : BitVec 4), c.toNat < s.nchMax →
        (∀ i ∈ [Instr.muxCtrlR, .muxCfgR, .muxStatusR, .muxOcountR, .chCtrlR c, .chBaseR c, .chLenR c, .chSrateR c,
            .chHist1R c, .chHist2R c, .chPosR c, .chScountR c, .chPsR c, .chOutR c, .chCoefR c j],
          exec i t = .next { t with rdata := some 0 }) ∧
        exec (.chStatusR c) t = .next { t with rdata := some 0x00000800 } ∧
        exec .idR t = .next { t with rdata := some (BitVec.ofNat 32 (s.nchMax % 256)) })

/-- R252: after reset no decoder engine and no multiplexer has a step: its turn uses up its event and changes nothing else, which is the model's choice for an agent without a step (log 2). -/
def Obligations.NoAgentMovesAfterReset : Prop :=
  ∀ (s : State) (e : Event) (rest : List Event), (e = .mux ∨ ∃ c : Chan, c.toNat < s.nchMax ∧ e = .engine c) →
    step { s.applyReset with pending := e :: rest } = .next { s.applyReset with pending := rest }

/-! ## Channel register operations -/

/-- R141, R142: START begins a run from IDLE or DONE and does nothing in RUN and FAULT. -/
def Obligations.ChannelStartBeginsARun : Prop :=
  ∀ (s : State) (c : Chan) (ch : Channel) (d : Word), s.channel? c = some ch →
    (ch.state = .idle ∨ ch.state = .done →
      exec (.chCtrlStart c d) s = .next (s.setChannel c
        { ch with pos := 0, nph := false, db := 0, ps := 0, scount := 0, state := .run })) ∧
    (ch.state = .run ∨ ch.state = .fault → exec (.chCtrlStart c d) s = .next s)

/-- R143, R144, R230: ABORT returns the engine to IDLE from any state, clears the flags and the cause and empties the queue, and keeps the rest; a command with neither bit does nothing (R145). -/
def Obligations.ChannelAbortReturnsToIdle : Prop :=
  ∀ (s : State) (c : Chan) (ch : Channel) (d : Word), s.channel? c = some ch →
    exec (.chCtrlAbort c d) s = .next (s.setChannel c
      { ch with
        state := .idle, nph := false, fPred := false, fRange := false, fCfgw := false, cause := .none, outq := [] }) ∧
    exec (.chCtrlNop c d) s = .next s

/-- R146: a configuration write outside RUN stores the written word, or its low 16 bits in a 16-bit register, and changes nothing else. -/
def Obligations.ConfigurationWriteStores : Prop :=
  ∀ (s : State) (c : Chan) (ch : Channel) (i : BitVec 4) (d : Word), s.channel? c = some ch → ch.state ≠ .run →
    exec (.chBaseW c d) s = .next (s.setChannel c { ch with base := d }) ∧
    exec (.chLenW c d) s = .next (s.setChannel c { ch with len := d }) ∧
    exec (.chSrateW c d) s = .next (s.setChannel c { ch with srate := d }) ∧
    exec (.chHist1W c d) s = .next (s.setChannel c { ch with hist1 := BitVec.ofNat 16 d.toNat }) ∧
    exec (.chHist2W c d) s = .next (s.setChannel c { ch with hist2 := BitVec.ofNat 16 d.toNat }) ∧
    ∃ coef : Vector Sample 16, exec (.chCoefW c i d) s = .next (s.setChannel c { ch with coef := coef }) ∧
      ∀ (j : Nat) (h : j < 16), coef[j] = if j = i.toNat then BitVec.ofNat 16 d.toNat else ch.coef[j]

/-- R147: a configuration write in RUN sets `F_CFGW_c` and writes no register. -/
def Obligations.ConfigurationWriteIgnoredInRun : Prop :=
  ∀ (s : State) (c : Chan) (ch : Channel) (j : BitVec 4) (d : Word), s.channel? c = some ch → ch.state = .run →
    ∀ i ∈ [Instr.chBaseW c d, .chLenW c d, .chSrateW c d, .chHist1W c d, .chHist2W c d, .chCoefW c j d],
      exec i s = .next (s.setChannel c { ch with fCfgw := true })

/-- R37, R148: reads of configuration registers return the stored word, or the stored value sign-extended to 32 bits, and change only what the host got. -/
def Obligations.ConfigurationReadsReturnStored : Prop :=
  ∀ (s : State) (c : Chan) (ch : Channel) (i : BitVec 4), s.channel? c = some ch →
    exec (.chBaseR c) s = .next { s with rdata := some ch.base } ∧
    exec (.chLenR c) s = .next { s with rdata := some ch.len } ∧
    exec (.chSrateR c) s = .next { s with rdata := some ch.srate } ∧
    exec (.chHist1R c) s = .next { s with rdata := some (BitVec.ofInt 32 ch.hist1.toInt) } ∧
    exec (.chHist2R c) s = .next { s with rdata := some (BitVec.ofInt 32 ch.hist2.toInt) } ∧
    exec (.chCoefR c i) s =
      .next { s with rdata := some (BitVec.ofInt 32 (ch.coef.toList.getD i.toNat 0).toInt) }

/-- R36, R45, R149, R150: CTRL reads 0, POS and SCOUNT their counters modulo 2^32, PS the latched byte; no side effect. -/
def Obligations.CounterReadsReturnViews : Prop :=
  ∀ (s : State) (c : Chan) (ch : Channel), s.channel? c = some ch →
    exec (.chCtrlR c) s = .next { s with rdata := some 0 } ∧
    exec (.chPosR c) s = .next { s with rdata := some (BitVec.ofNat 32 (ch.pos % 2 ^ 32)) } ∧
    exec (.chScountR c) s = .next { s with rdata := some (BitVec.ofNat 32 (ch.scount % 2 ^ 32)) } ∧
    exec (.chPsR c) s = .next { s with rdata := some (BitVec.ofNat 32 ch.ps.toNat) }

/-- R35, R149: CH.STATUS reads its fields, every other bit 0: the word is the sum of the fields at their places. Bit 12 says, of a queue of at most `FIFO_DEPTH` samples (R30), whether it holds `FIFO_DEPTH`; it is never 1 when unbounded. -/
def Obligations.ChannelStatusFields : Prop :=
  ∀ (s : State) (c : Chan) (ch : Channel), s.channel? c = some ch →
    ∃ (w : Word) (qFull : Bool), exec (.chStatusR c) s = .next { s with rdata := some w } ∧
      (withinDepth s.fifoDepth ch.outq.length → (qFull = true ↔ s.fifoDepth = .bounded ch.outq.length)) ∧
      w.toNat = (match ch.state with | .idle => 0 | .run => 1 | .done => 2 | .fault => 3)
        + 2 ^ 8 * (if ch.fPred then 1 else 0) + 2 ^ 9 * (if ch.fRange then 1 else 0)
        + 2 ^ 10 * (if ch.fCfgw then 1 else 0) + 2 ^ 11 * (if ch.outq = [] then 1 else 0)
        + 2 ^ 12 * (if qFull then 1 else 0)
        + 2 ^ 16 * (match ch.cause with | .none => 0 | .pred => 1 | .range => 2)

/-- R38, R152: a read of CH.OUT returns 0 and pops nothing while the multiplexer owns the queue or when it is empty; else it pops the head and returns it with VALID. -/
def Obligations.OutReadPopsOneSample : Prop :=
  ∀ (s : State) (c : Chan) (ch : Channel), s.channel? c = some ch →
    (s.mux.mstate = .run → c ∈ s.mux.chlist → exec (.chOutR c) s = .next { s with rdata := some 0 }) ∧
    (ch.outq = [] → exec (.chOutR c) s = .next { s with rdata := some 0 }) ∧
    (∀ v q, ¬ (s.mux.mstate = .run ∧ c ∈ s.mux.chlist) → ch.outq = v :: q →
      exec (.chOutR c) s = .next { s.setChannel c { ch with outq := q } with
        rdata := some (BitVec.ofNat 32 (2 ^ 16 + v.toNat)) })

/-- R61, R92: an instruction of a channel the block does not have acts as its access's reserved row: a read returns 0 and a write changes nothing. The decoder gives no such instruction; that exec acts so is the model's inference (log 14). -/
def Obligations.AbsentChannelActsReserved : Prop :=
  ∀ (s : State) (c : Chan) (j : BitVec 4) (d : Word), s.nchMax ≤ c.toNat →
    (∀ i ∈ [Instr.chCtrlStart c d, .chCtrlAbort c d, .chCtrlNop c d, .chStatusW c d, .chBaseW c d, .chLenW c d,
        .chSrateW c d, .chHist1W c d, .chHist2W c d, .chPosW c d, .chScountW c d, .chPsW c d, .chOutW c d,
        .chCoefW c j d], exec i s = .next s) ∧
    (∀ i ∈ [Instr.chCtrlR c, .chStatusR c, .chBaseR c, .chLenR c, .chSrateR c, .chHist1R c, .chHist2R c, .chPosR c,
        .chScountR c, .chPsR c, .chOutR c, .chCoefR c j], exec i s = .next { s with rdata := some 0 })

/-! ## Multiplexer -/

/-- R171: a START whose checks pass latches the selected channels, ascending, and the sample count, and begins a run; nothing else changes. -/
def Obligations.MuxStartBeginsARun : Prop :=
  ∀ (s : State) (d : Word), (s.mux.mstate = .idle ∨ s.mux.mstate = .done) → s.mux.mnch ≠ 0 →
    (∀ c : Chan, s.mux.msrc.getLsbD c.toNat = true → c.toNat < s.nchMax) →
    ((List.range 16).countP (fun b => s.mux.msrc.getLsbD b)) = s.mux.mnch.toNat →
    (∀ (c e : Chan) (x y : Channel), s.mux.msrc.getLsbD c.toNat = true → s.mux.msrc.getLsbD e.toNat = true →
      s.channel? c = some x → s.channel? e = some y →
      x.srate = y.srate ∧ nsamples x.len.toNat = nsamples y.len.toNat) →
    ∃ (cs : List Chan) (ml : Nat), exec (.muxCtrlStart d) s = .next (s.setMux
        { s.mux with chlist := cs, ml := ml, mi := 0, mj := 0, ocount := 0, mstate := .run }) ∧
      cs.length = s.mux.mnch.toNat ∧ cs.Pairwise (fun a b => a.toNat < b.toNat) ∧
      (∀ c : Chan, c ∈ cs ↔ s.mux.msrc.getLsbD c.toNat = true) ∧
      (∀ c ∈ cs, ∀ x, s.channel? c = some x → ml = nsamples x.len.toNat)

/-- R171, R172, R173, R175, R226: a START that fails a check puts the multiplexer in FAULT with every failing check's flag and the lowest failing code; nothing else changes. -/
def Obligations.MuxStartFailsItsChecks : Prop :=
  ∀ (s : State) (d : Word) (eCount eRate eLen : Bool), (s.mux.mstate = .idle ∨ s.mux.mstate = .done) →
    (eCount = true ↔ s.mux.mnch = 0 ∨ (∃ c : Chan, s.mux.msrc.getLsbD c.toNat = true ∧ s.nchMax ≤ c.toNat) ∨
      ((List.range 16).countP (fun b => s.mux.msrc.getLsbD b)) ≠ s.mux.mnch.toNat) →
    (eRate = true ↔ ∃ (c e : Chan) (x y : Channel), s.mux.msrc.getLsbD c.toNat = true ∧
      s.mux.msrc.getLsbD e.toNat = true ∧ s.channel? c = some x ∧ s.channel? e = some y ∧ x.srate ≠ y.srate) →
    (eLen = true ↔ ∃ (c e : Chan) (x y : Channel), s.mux.msrc.getLsbD c.toNat = true ∧
      s.mux.msrc.getLsbD e.toNat = true ∧ s.channel? c = some x ∧ s.channel? e = some y ∧
      nsamples x.len.toNat ≠ nsamples y.len.toNat) →
    (eCount = true ∨ eRate = true ∨ eLen = true) →
    exec (.muxCtrlStart d) s = .next (s.setMux
      { s.mux with
        mfChcount := eCount, mfRate := eRate, mfLen := eLen, mstate := .fault
        mcause := if eCount then .chcount else if eRate then .rate else .len })

/-- R179: START in RUN or FAULT does nothing. -/
def Obligations.MuxStartIgnoredInRunAndFault : Prop :=
  ∀ (s : State) (d : Word), (s.mux.mstate = .run ∨ s.mux.mstate = .fault) → exec (.muxCtrlStart d) s = .next s

/-- R174, R180: ABORT returns the multiplexer to IDLE and clears its run state, flags and cause; `OCOUNT`, the configuration, every channel and `mux_out` stay; a command with neither bit does nothing. -/
def Obligations.MuxAbortReturnsToIdle : Prop :=
  ∀ (s : State) (d : Word),
    exec (.muxCtrlAbort d) s = .next { s with mux :=
      { mnch := s.mux.mnch, msrc := s.mux.msrc, mstate := .idle, chlist := [], ml := 0, mi := 0, mj := 0,
        ocount := s.mux.ocount, mfChcount := false, mfRate := false, mfLen := false, mfSrc := false,
        mfCfgw := false, mcause := .none } } ∧
    exec (.muxCtrlNop d) s = .next s

/-- R181, R182: a MUX_CFG write outside RUN stores `MNCH` and `MSRC`, and in RUN only sets `MF_CFGW`. -/
def Obligations.MuxConfigurationWrite : Prop :=
  ∀ (s : State) (d : Word),
    (s.mux.mstate ≠ .run → exec (.muxCfgW d) s = .next { s with mux :=
      { s.mux with mnch := BitVec.ofNat 8 d.toNat, msrc := BitVec.ofNat 16 (d.toNat / 2 ^ 16) } }) ∧
    (s.mux.mstate = .run → exec (.muxCfgW d) s = .next { s with mux := { s.mux with mfCfgw := true } })

/-- R40, R41, R183, R185: MUX_CFG, MUX_OCOUNT, MUX_CTRL and ID reads; no side effect. -/
def Obligations.GlobalReadsReturnViews : Prop :=
  ∀ s : State,
    exec .muxCfgR s =
      .next { s with rdata := some (BitVec.ofNat 32 (s.mux.msrc.toNat * 2 ^ 16 + s.mux.mnch.toNat)) } ∧
    exec .muxOcountR s = .next { s with rdata := some (BitVec.ofNat 32 (s.mux.ocount % 2 ^ 32)) } ∧
    exec .muxCtrlR s = .next { s with rdata := some 0 } ∧
    exec .idR s = .next { s with rdata := some (BitVec.ofNat 32 (s.nchMax % 256)) }

/-- R43, R184: MUX_STATUS reads its fields, every other bit 0. -/
def Obligations.MuxStatusFields : Prop :=
  ∀ s : State, ∃ w : Word, exec .muxStatusR s = .next { s with rdata := some w } ∧
    w.toNat = (match s.mux.mstate with | .idle => 0 | .run => 1 | .done => 2 | .fault => 3)
      + 2 ^ 8 * (if s.mux.mfChcount then 1 else 0) + 2 ^ 9 * (if s.mux.mfRate then 1 else 0)
      + 2 ^ 10 * (if s.mux.mfLen then 1 else 0) + 2 ^ 11 * (if s.mux.mfSrc then 1 else 0)
      + 2 ^ 12 * (if s.mux.mfCfgw then 1 else 0)
      + 2 ^ 16 * (match s.mux.mcause with | .none => 0 | .chcount => 1 | .rate => 2 | .len => 3 | .src => 4)

/-- R176, R178, R225, R227: the multiplexer step in RUN: DONE at the end; a sample of the due channel moved, and the counters advanced; SRC when the due channel's queue is empty and it is in FAULT; a hold when it is empty and it is not. That a held turn uses up its event and changes nothing else is the model's choice (log 2). -/
def Obligations.MuxStepMovesOneSample : Prop :=
  ∀ (s : State) (rest : List Event), s.pending = .mux :: rest → s.mux.mstate = .run →
    (s.mux.mi = s.mux.ml → step s = .next { s with pending := rest, mux := { s.mux with mstate := .done } }) ∧
    (∀ (c : Chan) (ch : Channel), s.mux.mi ≠ s.mux.ml → s.mux.chlist[s.mux.mj]? = some c → s.channel? c = some ch →
      (∀ v q, ch.outq = v :: q →
        step s = .next { State.setChannel { s with pending := rest } c { ch with outq := q } with
          muxOut := s.muxOut ++ [BitVec.ofNat 8 v.toNat, BitVec.ofNat 8 (v.toNat / 2 ^ 8)]
          mux := { s.mux with
            ocount := s.mux.ocount + 1
            mj := if s.mux.mj + 1 = s.mux.chlist.length then 0 else s.mux.mj + 1
            mi := if s.mux.mj + 1 = s.mux.chlist.length then s.mux.mi + 1 else s.mux.mi } }) ∧
      (ch.outq = [] → ch.state = .fault →
        step s = .next { s with pending := rest, mux := { s.mux with mstate := .fault, mfSrc := true, mcause := .src } }) ∧
      (ch.outq = [] → ch.state ≠ .fault → step s = .next { s with pending := rest }))

/-- R177: in a run over `N` channels (in every state that meets the invariant) the sample a multiplexer step appends after `q = OCOUNT` others is the head of the queue of channel `CHLIST[q mod N]`, with the sample index `q div N`; the step takes it from that queue and from no other, and counts it. It is appended whenever that queue has a head and `q` is below `ML * N`. -/
def Obligations.InterleaveOrderFollowsCount : Prop :=
  ∀ (s t : State) (rest : List Event), s.Inv → s.pending = .mux :: rest → s.mux.mstate = .run → step s = .next t →
    (t.muxOut ≠ s.muxOut →
      ∃ (c : Chan) (ch : Channel) (v : Sample) (q : List Sample),
        s.mux.chlist[s.mux.ocount % s.mux.chlist.length]? = some c ∧ s.mux.mi = s.mux.ocount / s.mux.chlist.length ∧
        s.mux.ocount < s.mux.ml * s.mux.chlist.length ∧ s.channel? c = some ch ∧ ch.outq = v :: q ∧
        t.muxOut = s.muxOut ++ [v.extractLsb' 0 8, v.extractLsb' 8 8] ∧ t.mux.ocount = s.mux.ocount + 1 ∧
        t.channel? c = some { ch with outq := q } ∧ ∀ d : Chan, d ≠ c → t.channel? d = s.channel? d) ∧
    ∀ (c : Chan) (ch : Channel) (v : Sample) (q : List Sample), s.mux.ocount < s.mux.ml * s.mux.chlist.length →
      s.mux.chlist[s.mux.ocount % s.mux.chlist.length]? = some c → s.channel? c = some ch → ch.outq = v :: q →
      t.muxOut = s.muxOut ++ [v.extractLsb' 0 8, v.extractLsb' 8 8]

/-- R186: a multiplexer run that ends in DONE has moved `MNCH * ML` samples (in every state that meets the invariant). -/
def Obligations.DoneMuxRunMovedEverySample : Prop :=
  ∀ (s t : State) (rest : List Event), s.Inv → s.pending = .mux :: rest → s.mux.mstate = .run → step s = .next t →
    t.mux.mstate = .done → t.mux.ocount = t.mux.mnch.toNat * t.mux.ml

/-- A whole multiplexer run (R176, R177, R178, R186, R187): when every selected channel's queue holds `ML` samples, the multiplexer's steps end in DONE, `mux_out` has the interleaved bytes appended, and every selected queue has lost its first `ML` samples. -/
def Obligations.FullMuxRunInterleavesTheQueues : Prop :=
  ∀ (s : State) (queues : List (List Sample)) (rest : List Event), s.mux.mstate = .run → s.mux.mi = 0 → s.mux.mj = 0 →
    s.mux.ocount = 0 → s.mux.chlist ≠ [] → s.mux.chlist.Nodup → queues.length = s.mux.chlist.length →
    (∀ (k : Nat) (c : Chan), s.mux.chlist[k]? = some c →
      ∃ ch, s.channel? c = some ch ∧ queues[k]? = some ch.outq ∧ s.mux.ml ≤ ch.outq.length) →
    s.pending = List.replicate (s.mux.ml * s.mux.chlist.length + 1) .mux ++ rest →
    ∃ t, runSteps (s.mux.ml * s.mux.chlist.length + 1) s = .next t ∧ t.pending = rest ∧ t.mux.mstate = .done ∧
      t.mux.ocount = s.mux.ml * s.mux.chlist.length ∧ t.muxOut = s.muxOut ++ refInterleave queues s.mux.ml ∧
      ∀ c ∈ s.mux.chlist, ∀ ch, s.channel? c = some ch →
        t.channel? c = some { ch with outq := ch.outq.drop s.mux.ml }

/-- R188: two multiplexer runs from the same multiplexer state over the same selected channels that end (in DONE or in FAULT), under any interleaving of engine turns, multiplexer turns and host reads and at any two queue depths, append the same bytes and end in the same multiplexer state. -/
def Obligations.MuxOutputIsScheduleIndependent : Prop :=
  ∀ (s1 s2 t1 t2 : State) (k1 k2 : Nat), s1.mux.mstate = .run → s2.mux = s1.mux → s2.muxOut = s1.muxOut →
    (∀ c ∈ s1.mux.chlist, s2.channel? c = s1.channel? c) → turnsAndReads s1.pending → turnsAndReads s2.pending →
    runSteps k1 s1 = .next t1 → runSteps k2 s2 = .next t2 → t1.mux.mstate ≠ .run → t2.mux.mstate ≠ .run →
    t1.muxOut = t2.muxOut ∧ t1.mux = t2.mux

/-! ## Payload memory and the host's programs -/

/-- Two images in canonical form that hold the same bytes are equal (20_memory.md R60; the model's representation, log 4). -/
def Obligations.PayloadImagesAreCanonical : Prop :=
  ∀ m m' : Memory, m.wf = true → m'.wf = true → m.size = m'.size → (∀ a, m.read a = m'.read a) → m = m'

/-- R70: the host replaces an image only while the channel is not in RUN; the bytes are then the new image's, and nothing else changes. -/
def Obligations.PayloadReplacedOnlyOutsideRun : Prop :=
  ∀ (s : State) (c : Chan) (ch : Channel) (image : Memory) (rest : List Event), s.pending = .load c image :: rest →
    s.channel? c = some ch → image.wf = true →
    (ch.state ≠ .run → step s = .next (State.setChannel { s with pending := rest } c { ch with pm := image })) ∧
    (ch.state = .run → step s = .refused .payloadWhileRunning)

/-- R201, R202, R203, R204, R207: the host's configuration writes for a DSP file leave the header's big-endian fields in the channel's registers, the byte at the lower offset the more significant, and change nothing else. -/
def Obligations.HostProgramLoadsTheHeader : Prop :=
  ∀ (s : State) (c : Chan) (ch : Channel) (p : PayloadPlacement) (file : List Byte) (h : DspHeader)
    (rest : List Event), s.channel? c = some ch → ch.state ≠ .run → parseDspHeader file = some h →
    s.pending = configureChannel c p h ++ rest →
    ∃ (coef : Vector Sample 16) (hist1 hist2 : Sample) (len srate : Word),
      (∀ (i : Nat) (hi : i < 16),
        coef[i].toNat = (file.getD (0x1C + 2 * i) 0).toNat * 256 + (file.getD (0x1D + 2 * i) 0).toNat) ∧
      hist1.toNat = (file.getD 0x40 0).toNat * 256 + (file.getD 0x41 0).toNat ∧
      hist2.toNat = (file.getD 0x42 0).toNat * 256 + (file.getD 0x43 0).toNat ∧
      len.toNat = ((file.getD 0x04 0).toNat * 2 ^ 24 + (file.getD 0x05 0).toNat * 2 ^ 16 +
        (file.getD 0x06 0).toNat * 2 ^ 8 + (file.getD 0x07 0).toNat) / 2 ∧
      srate.toNat = (file.getD 0x08 0).toNat * 2 ^ 24 + (file.getD 0x09 0).toNat * 2 ^ 16 +
        (file.getD 0x0A 0).toNat * 2 ^ 8 + (file.getD 0x0B 0).toNat ∧
      runSteps 21 s = .next (State.setChannel { s with pending := rest } c
        { ch with
          coef := coef, hist1 := hist1, hist2 := hist2
          base := match p with | .wholeFile => 0x60 | .payloadOnly => 0
          len := len, srate := srate })

/-- R204: the host supplies the whole file as `PM_c`, or the payload alone, which is the `nibbleCount div 2` bytes after the header and no byte more; nothing else of the block changes. -/
def Obligations.HostSuppliesThePayload : Prop :=
  ∀ (s : State) (c : Chan) (ch : Channel) (p : PayloadPlacement) (file : List Byte) (es rest : List Event),
    s.channel? c = some ch → ch.state ≠ .run → file.length ≤ 2 ^ 32 → channelRun c p file = some es →
    s.pending = es ++ rest →
    ∃ m : Memory, step s = .next (State.setChannel { s with pending := es.tail ++ rest } c { ch with pm := m }) ∧
      ∀ (n : Nat), n = ((file.getD 0x04 0).toNat * 2 ^ 24 + (file.getD 0x05 0).toNat * 2 ^ 16 +
          (file.getD 0x06 0).toNat * 2 ^ 8 + (file.getD 0x07 0).toNat) / 2 →
        (p = .wholeFile → m.size = file.length ∧ ∀ a, m.read a = file[a]?) ∧
        (p = .payloadOnly → m.size = min n (file.length - 0x60) ∧
          ∀ i, m.read i = if i < n then file[0x60 + i]? else none)
end

