-- ==== Sys2Proof/Laws/State.lean ====
section
/-! SUPPORT. One lemma per field per update of State and of a channel, and reading a channel after replacing one. -/

namespace Sys2Proof.Machine

variable (s : State) (c d : Chan) (ch : Channel) (m : Mux) (w : Word)

@[simp] theorem State.setChannel_fifoDepth : (s.setChannel c ch).fifoDepth = s.fifoDepth := rfl
@[simp] theorem State.setChannel_channels : (s.setChannel c ch).channels = s.channels.set c.toNat ch := rfl
@[simp] theorem State.setChannel_mux : (s.setChannel c ch).mux = s.mux := rfl
@[simp] theorem State.setChannel_muxOut : (s.setChannel c ch).muxOut = s.muxOut := rfl
@[simp] theorem State.setChannel_rdata : (s.setChannel c ch).rdata = s.rdata := rfl
@[simp] theorem State.setChannel_pending : (s.setChannel c ch).pending = s.pending := rfl

@[simp] theorem State.setMux_fifoDepth : (s.setMux m).fifoDepth = s.fifoDepth := rfl
@[simp] theorem State.setMux_channels : (s.setMux m).channels = s.channels := rfl
@[simp] theorem State.setMux_mux : (s.setMux m).mux = m := rfl
@[simp] theorem State.setMux_muxOut : (s.setMux m).muxOut = s.muxOut := rfl
@[simp] theorem State.setMux_rdata : (s.setMux m).rdata = s.rdata := rfl
@[simp] theorem State.setMux_pending : (s.setMux m).pending = s.pending := rfl

@[simp] theorem State.returning_fifoDepth : (s.returning w).fifoDepth = s.fifoDepth := rfl
@[simp] theorem State.returning_channels : (s.returning w).channels = s.channels := rfl
@[simp] theorem State.returning_mux : (s.returning w).mux = s.mux := rfl
@[simp] theorem State.returning_muxOut : (s.returning w).muxOut = s.muxOut := rfl
@[simp] theorem State.returning_rdata : (s.returning w).rdata = some w := rfl
@[simp] theorem State.returning_pending : (s.returning w).pending = s.pending := rfl

@[simp] theorem State.retire_fifoDepth : s.retire.fifoDepth = s.fifoDepth := rfl
@[simp] theorem State.retire_channels : s.retire.channels = s.channels := rfl
@[simp] theorem State.retire_mux : s.retire.mux = s.mux := rfl
@[simp] theorem State.retire_muxOut : s.retire.muxOut = s.muxOut := rfl
@[simp] theorem State.retire_rdata : s.retire.rdata = s.rdata := rfl
@[simp] theorem State.retire_pending : s.retire.pending = s.pending.tail := rfl

@[simp] theorem State.applyReset_fifoDepth : s.applyReset.fifoDepth = s.fifoDepth := rfl
@[simp] theorem State.applyReset_channels : s.applyReset.channels = s.channels.map (fun ch => Channel.afterReset ch.pm) := rfl
@[simp] theorem State.applyReset_mux : s.applyReset.mux = Mux.afterReset := rfl
@[simp] theorem State.applyReset_muxOut : s.applyReset.muxOut = s.muxOut := rfl
@[simp] theorem State.applyReset_rdata : s.applyReset.rdata = s.rdata := rfl
@[simp] theorem State.applyReset_pending : s.applyReset.pending = s.pending := rfl

@[simp] theorem State.emitSample_fifoDepth (v : Sample) (rest : List Sample) :
    (s.emitSample c ch v rest).fifoDepth = s.fifoDepth := rfl
@[simp] theorem State.emitSample_channels (v : Sample) (rest : List Sample) :
    (s.emitSample c ch v rest).channels = s.channels.set c.toNat { ch with outq := rest } := rfl
@[simp] theorem State.emitSample_mux (v : Sample) (rest : List Sample) :
    (s.emitSample c ch v rest).mux = s.mux.advance := rfl
@[simp] theorem State.emitSample_muxOut (v : Sample) (rest : List Sample) :
    (s.emitSample c ch v rest).muxOut = s.muxOut ++ sampleBytes v := rfl
@[simp] theorem State.emitSample_rdata (v : Sample) (rest : List Sample) :
    (s.emitSample c ch v rest).rdata = s.rdata := rfl
@[simp] theorem State.emitSample_pending (v : Sample) (rest : List Sample) :
    (s.emitSample c ch v rest).pending = s.pending := rfl

@[simp] theorem Channel.abort_coef : ch.abort.coef = ch.coef := rfl
@[simp] theorem Channel.abort_hist1 : ch.abort.hist1 = ch.hist1 := rfl
@[simp] theorem Channel.abort_hist2 : ch.abort.hist2 = ch.hist2 := rfl
@[simp] theorem Channel.abort_base : ch.abort.base = ch.base := rfl
@[simp] theorem Channel.abort_len : ch.abort.len = ch.len := rfl
@[simp] theorem Channel.abort_srate : ch.abort.srate = ch.srate := rfl
@[simp] theorem Channel.abort_pos : ch.abort.pos = ch.pos := rfl
@[simp] theorem Channel.abort_nph : ch.abort.nph = false := rfl
@[simp] theorem Channel.abort_db : ch.abort.db = ch.db := rfl
@[simp] theorem Channel.abort_ps : ch.abort.ps = ch.ps := rfl
@[simp] theorem Channel.abort_state : ch.abort.state = .idle := rfl
@[simp] theorem Channel.abort_fPred : ch.abort.fPred = false := rfl
@[simp] theorem Channel.abort_fRange : ch.abort.fRange = false := rfl
@[simp] theorem Channel.abort_fCfgw : ch.abort.fCfgw = false := rfl
@[simp] theorem Channel.abort_cause : ch.abort.cause = .none := rfl
@[simp] theorem Channel.abort_scount : ch.abort.scount = ch.scount := rfl
@[simp] theorem Channel.abort_outq : ch.abort.outq = [] := rfl
@[simp] theorem Channel.abort_pm : ch.abort.pm = ch.pm := rfl

@[simp] theorem Channel.start_coef : ch.start.coef = ch.coef := rfl
@[simp] theorem Channel.start_hist1 : ch.start.hist1 = ch.hist1 := rfl
@[simp] theorem Channel.start_hist2 : ch.start.hist2 = ch.hist2 := rfl
@[simp] theorem Channel.start_base : ch.start.base = ch.base := rfl
@[simp] theorem Channel.start_len : ch.start.len = ch.len := rfl
@[simp] theorem Channel.start_srate : ch.start.srate = ch.srate := rfl
@[simp] theorem Channel.start_pos : ch.start.pos = 0 := rfl
@[simp] theorem Channel.start_nph : ch.start.nph = false := rfl
@[simp] theorem Channel.start_db : ch.start.db = 0 := rfl
@[simp] theorem Channel.start_ps : ch.start.ps = 0 := rfl
@[simp] theorem Channel.start_state : ch.start.state = .run := rfl
@[simp] theorem Channel.start_fPred : ch.start.fPred = ch.fPred := rfl
@[simp] theorem Channel.start_fRange : ch.start.fRange = ch.fRange := rfl
@[simp] theorem Channel.start_fCfgw : ch.start.fCfgw = ch.fCfgw := rfl
@[simp] theorem Channel.start_cause : ch.start.cause = ch.cause := rfl
@[simp] theorem Channel.start_scount : ch.start.scount = 0 := rfl
@[simp] theorem Channel.start_outq : ch.start.outq = ch.outq := rfl
@[simp] theorem Channel.start_pm : ch.start.pm = ch.pm := rfl

@[simp] theorem Channel.raiseFault_coef (e : ChannelCause) : (ch.raiseFault e).coef = ch.coef := rfl
@[simp] theorem Channel.raiseFault_hist1 (e : ChannelCause) : (ch.raiseFault e).hist1 = ch.hist1 := rfl
@[simp] theorem Channel.raiseFault_hist2 (e : ChannelCause) : (ch.raiseFault e).hist2 = ch.hist2 := rfl
@[simp] theorem Channel.raiseFault_base (e : ChannelCause) : (ch.raiseFault e).base = ch.base := rfl
@[simp] theorem Channel.raiseFault_len (e : ChannelCause) : (ch.raiseFault e).len = ch.len := rfl
@[simp] theorem Channel.raiseFault_srate (e : ChannelCause) : (ch.raiseFault e).srate = ch.srate := rfl
@[simp] theorem Channel.raiseFault_pos (e : ChannelCause) : (ch.raiseFault e).pos = ch.pos := rfl
@[simp] theorem Channel.raiseFault_nph (e : ChannelCause) : (ch.raiseFault e).nph = ch.nph := rfl
@[simp] theorem Channel.raiseFault_db (e : ChannelCause) : (ch.raiseFault e).db = ch.db := rfl
@[simp] theorem Channel.raiseFault_ps (e : ChannelCause) : (ch.raiseFault e).ps = ch.ps := rfl
@[simp] theorem Channel.raiseFault_state (e : ChannelCause) : (ch.raiseFault e).state = .fault := rfl
@[simp] theorem Channel.raiseFault_fPred (e : ChannelCause) : (ch.raiseFault e).fPred = (if e = .pred then true else ch.fPred) := rfl
@[simp] theorem Channel.raiseFault_fRange (e : ChannelCause) : (ch.raiseFault e).fRange = (if e = .range then true else ch.fRange) := rfl
@[simp] theorem Channel.raiseFault_fCfgw (e : ChannelCause) : (ch.raiseFault e).fCfgw = ch.fCfgw := rfl
@[simp] theorem Channel.raiseFault_cause (e : ChannelCause) : (ch.raiseFault e).cause = e := rfl
@[simp] theorem Channel.raiseFault_scount (e : ChannelCause) : (ch.raiseFault e).scount = ch.scount := rfl
@[simp] theorem Channel.raiseFault_outq (e : ChannelCause) : (ch.raiseFault e).outq = ch.outq := rfl
@[simp] theorem Channel.raiseFault_pm (e : ChannelCause) : (ch.raiseFault e).pm = ch.pm := rfl

@[simp] theorem Mux.raiseSrc_mnch : m.raiseSrc.mnch = m.mnch := rfl
@[simp] theorem Mux.raiseSrc_msrc : m.raiseSrc.msrc = m.msrc := rfl
@[simp] theorem Mux.raiseSrc_mstate : m.raiseSrc.mstate = .fault := rfl
@[simp] theorem Mux.raiseSrc_chlist : m.raiseSrc.chlist = m.chlist := rfl
@[simp] theorem Mux.raiseSrc_ml : m.raiseSrc.ml = m.ml := rfl
@[simp] theorem Mux.raiseSrc_mi : m.raiseSrc.mi = m.mi := rfl
@[simp] theorem Mux.raiseSrc_mj : m.raiseSrc.mj = m.mj := rfl
@[simp] theorem Mux.raiseSrc_ocount : m.raiseSrc.ocount = m.ocount := rfl
@[simp] theorem Mux.raiseSrc_mfChcount : m.raiseSrc.mfChcount = m.mfChcount := rfl
@[simp] theorem Mux.raiseSrc_mfRate : m.raiseSrc.mfRate = m.mfRate := rfl
@[simp] theorem Mux.raiseSrc_mfLen : m.raiseSrc.mfLen = m.mfLen := rfl
@[simp] theorem Mux.raiseSrc_mfSrc : m.raiseSrc.mfSrc = true := rfl
@[simp] theorem Mux.raiseSrc_mfCfgw : m.raiseSrc.mfCfgw = m.mfCfgw := rfl
@[simp] theorem Mux.raiseSrc_mcause : m.raiseSrc.mcause = .src := rfl

@[simp] theorem Mux.raiseStart_mnch (e1 e2 e3 : Bool) :
    (m.raiseStart e1 e2 e3).mnch = m.mnch := rfl
@[simp] theorem Mux.raiseStart_msrc (e1 e2 e3 : Bool) :
    (m.raiseStart e1 e2 e3).msrc = m.msrc := rfl
@[simp] theorem Mux.raiseStart_mstate (e1 e2 e3 : Bool) :
    (m.raiseStart e1 e2 e3).mstate = .fault := rfl
@[simp] theorem Mux.raiseStart_chlist (e1 e2 e3 : Bool) :
    (m.raiseStart e1 e2 e3).chlist = m.chlist := rfl
@[simp] theorem Mux.raiseStart_ml (e1 e2 e3 : Bool) :
    (m.raiseStart e1 e2 e3).ml = m.ml := rfl
@[simp] theorem Mux.raiseStart_mi (e1 e2 e3 : Bool) :
    (m.raiseStart e1 e2 e3).mi = m.mi := rfl
@[simp] theorem Mux.raiseStart_mj (e1 e2 e3 : Bool) :
    (m.raiseStart e1 e2 e3).mj = m.mj := rfl
@[simp] theorem Mux.raiseStart_ocount (e1 e2 e3 : Bool) :
    (m.raiseStart e1 e2 e3).ocount = m.ocount := rfl
@[simp] theorem Mux.raiseStart_mfChcount (e1 e2 e3 : Bool) :
    (m.raiseStart e1 e2 e3).mfChcount = e1 := rfl
@[simp] theorem Mux.raiseStart_mfRate (e1 e2 e3 : Bool) :
    (m.raiseStart e1 e2 e3).mfRate = e2 := rfl
@[simp] theorem Mux.raiseStart_mfLen (e1 e2 e3 : Bool) :
    (m.raiseStart e1 e2 e3).mfLen = e3 := rfl
@[simp] theorem Mux.raiseStart_mfSrc (e1 e2 e3 : Bool) :
    (m.raiseStart e1 e2 e3).mfSrc = m.mfSrc := rfl
@[simp] theorem Mux.raiseStart_mfCfgw (e1 e2 e3 : Bool) :
    (m.raiseStart e1 e2 e3).mfCfgw = m.mfCfgw := rfl
@[simp] theorem Mux.raiseStart_mcause (e1 e2 e3 : Bool) :
    (m.raiseStart e1 e2 e3).mcause = (if e1 then .chcount else if e2 then .rate else .len) := rfl

@[simp] theorem Mux.abort_mnch : m.abort.mnch = m.mnch := rfl
@[simp] theorem Mux.abort_msrc : m.abort.msrc = m.msrc := rfl
@[simp] theorem Mux.abort_mstate : m.abort.mstate = .idle := rfl
@[simp] theorem Mux.abort_chlist : m.abort.chlist = [] := rfl
@[simp] theorem Mux.abort_ml : m.abort.ml = 0 := rfl
@[simp] theorem Mux.abort_mi : m.abort.mi = 0 := rfl
@[simp] theorem Mux.abort_mj : m.abort.mj = 0 := rfl
@[simp] theorem Mux.abort_ocount : m.abort.ocount = m.ocount := rfl
@[simp] theorem Mux.abort_mfChcount : m.abort.mfChcount = false := rfl
@[simp] theorem Mux.abort_mfRate : m.abort.mfRate = false := rfl
@[simp] theorem Mux.abort_mfLen : m.abort.mfLen = false := rfl
@[simp] theorem Mux.abort_mfSrc : m.abort.mfSrc = false := rfl
@[simp] theorem Mux.abort_mfCfgw : m.abort.mfCfgw = false := rfl
@[simp] theorem Mux.abort_mcause : m.abort.mcause = .none := rfl

/-! ## Channels -/

@[simp] theorem State.setChannel_nchMax : (s.setChannel c ch).nchMax = s.nchMax := by
  simp [State.nchMax]

@[simp] theorem State.setMux_nchMax : (s.setMux m).nchMax = s.nchMax := rfl

@[simp] theorem State.returning_nchMax : (s.returning w).nchMax = s.nchMax := rfl

@[simp] theorem State.retire_nchMax : s.retire.nchMax = s.nchMax := rfl

@[simp] theorem State.applyReset_nchMax : s.applyReset.nchMax = s.nchMax := by
  simp [State.nchMax]

@[simp] theorem State.setMux_channel? : (s.setMux m).channel? d = s.channel? d := rfl

@[simp] theorem State.returning_channel? : (s.returning w).channel? d = s.channel? d := rfl

@[simp] theorem State.retire_channel? : s.retire.channel? d = s.channel? d := rfl

@[simp] theorem State.applyReset_channel? :
    s.applyReset.channel? d = (s.channel? d).map (fun ch => Channel.afterReset ch.pm) := by
  simp [State.channel?]

variable {s c d ch}

/-- Engine `c` exists exactly when `c < NCH_MAX`. -/
theorem State.channel?_isSome_iff : (s.channel? c).isSome = true ↔ c.toNat < s.nchMax := by
  simp [State.channel?, State.nchMax]

theorem State.lt_nchMax (h : s.channel? c = some ch) : c.toNat < s.nchMax :=
  State.channel?_isSome_iff.1 (by simp [h])

theorem State.channel?_eq_none_iff : s.channel? c = none ↔ s.nchMax ≤ c.toNat := by
  simp [State.channel?, State.nchMax]

theorem State.mem_channels (h : s.channel? c = some ch) : ch ∈ s.channels :=
  List.mem_of_getElem? h

/-- Reading the engine that was replaced. -/
theorem State.setChannel_channel?_self {ch' : Channel} (h : s.channel? c = some ch) :
    (s.setChannel c ch').channel? c = some ch' := by
  have := State.lt_nchMax h
  simp_all [State.channel?, State.nchMax]

/-- Reading another engine than the one replaced. -/
theorem State.setChannel_channel?_ne {ch' : Channel} (h : d ≠ c) :
    (s.setChannel c ch').channel? d = s.channel? d := by
  have : c.toNat ≠ d.toNat := fun e => h (BitVec.eq_of_toNat_eq e.symm)
  simp [State.channel?, this]

/-- What any engine is after one is replaced. -/
theorem State.setChannel_channel?_cases {ch' ch0 : Channel} (h : s.channel? c = some ch0) :
    (s.setChannel c ch').channel? d = if d = c then some ch' else s.channel? d := by
  by_cases e : d = c
  · subst e; simp [State.setChannel_channel?_self h]
  · simp [e, State.setChannel_channel?_ne e]

/-- A property of every engine of the list holds after one is replaced by another that has it. -/
theorem State.forall_setChannel {P : Channel → Prop} {ch' : Channel} (h : ∀ x ∈ s.channels, P x) (h' : P ch') :
    ∀ x ∈ (s.setChannel c ch').channels, P x := by
  intro x hx
  rcases List.mem_or_eq_of_mem_set hx with hx | rfl
  · exact h x hx
  · exact h'

end Sys2Proof.Machine
end

