-- ==== Sys2Proof/Laws/Ops.lean ====
section
/-! SUPPORT. What each shared operation can do, said once: the engine step, the host's channel writes and reads, the multiplexer step, and the parts of a step around exec. -/

namespace Sys2Proof.Machine

variable {s t : State} {c : Chan} {ch : Channel}

/-- Two next answers are equal only with equal states. -/
theorem next_eq {x y : State} (h : (Host.Outcome.next x : Result) = .next y) : y = x := by
  cases h
  rfl

/-! ## Selection and room -/

theorem Channel.selects_eq_some {kind : EngineStep} (h : ch.selects = some kind) : ch.state = .run := by
  unfold Channel.selects at h
  split at h
  · assumption
  · cases h

theorem Channel.selects_dataLo : ch.selects = some .dataLo ↔ ch.state = .run ∧ ch.nph = true := by
  unfold Channel.selects
  by_cases h1 : ch.state = .run <;> by_cases h2 : ch.nph = true <;> simp [h1, h2]
  repeat' split
  all_goals simp

theorem Channel.selects_finish :
    ch.selects = some .finish ↔ ch.state = .run ∧ ch.nph = false ∧ ch.pos = ch.len.toNat := by
  unfold Channel.selects
  by_cases h1 : ch.state = .run <;> by_cases h2 : ch.nph = true <;> by_cases h3 : ch.pos = ch.len.toNat <;>
    simp [h1, h2, h3]
  split <;> simp

theorem Channel.selects_hdr :
    ch.selects = some .hdr ↔ ch.state = .run ∧ ch.nph = false ∧ ch.pos ≠ ch.len.toNat ∧ ch.pos % 8 = 0 := by
  unfold Channel.selects
  by_cases h1 : ch.state = .run <;> by_cases h2 : ch.nph = true <;> by_cases h3 : ch.pos = ch.len.toNat <;>
    by_cases h4 : ch.pos % 8 = 0 <;> simp_all

theorem Channel.selects_dataHi :
    ch.selects = some .dataHi ↔ ch.state = .run ∧ ch.nph = false ∧ ch.pos ≠ ch.len.toNat ∧ ch.pos % 8 ≠ 0 := by
  unfold Channel.selects
  by_cases h1 : ch.state = .run <;> by_cases h2 : ch.nph = true <;> by_cases h3 : ch.pos = ch.len.toNat <;>
    by_cases h4 : ch.pos % 8 = 0 <;> simp_all

theorem Channel.selects_none : ch.selects = none ↔ ch.state ≠ .run := by
  unfold Channel.selects
  by_cases h1 : ch.state = .run <;> simp [h1]

theorem Channel.queueFull_eq_false_iff {depth : QueueDepth} :
    ch.queueFull depth = false ↔ hasRoom depth ch := by
  cases depth <;> simp [Channel.queueFull, hasRoom]

theorem Channel.queueFull_eq_true_iff {depth : QueueDepth} :
    ch.queueFull depth = true ↔ ¬ hasRoom depth ch := by
  rw [← Channel.queueFull_eq_false_iff]; simp

/-! ## The engine step -/

/-- An engine step that is selected and not held does its body to its own channel. -/
theorem engineStep_of_taken {kind : EngineStep} {body : Channel → Option Channel} {ch' : Channel}
    (hc : s.channel? c = some ch) (hs : ch.selects = some kind)
    (hf : kind.pushes = true → hasRoom s.fifoDepth ch) (hb : body ch = some ch') :
    engineStep c kind body s = .next (s.setChannel c ch') := by
  have : (kind.pushes && ch.queueFull s.fifoDepth) = false := by
    cases hk : kind.pushes
    · rfl
    · simpa using Channel.queueFull_eq_false_iff.2 (hf hk)
  simp [engineStep, hc, hs, this, hb]

/-- Everything an engine step that goes on can have done: nothing, or its body to its own channel. -/
theorem engineStep_next {kind : EngineStep} {body : Channel → Option Channel}
    (h : engineStep c kind body s = .next t) :
    t = s ∨ ∃ ch ch', s.channel? c = some ch ∧ ch.selects = some kind ∧
      (kind.pushes = true → hasRoom s.fifoDepth ch) ∧ body ch = some ch' ∧ t = s.setChannel c ch' := by
  unfold engineStep at h
  split at h
  · exact .inl (next_eq h)
  · rename_i ch hc
    split at h
    · rename_i hs
      split at h
      · exact .inl (next_eq h)
      · rename_i hf
        split at h
        · cases h
        · rename_i ch' hb
          refine .inr ⟨ch, ch', hc, hs, fun hk => ?_, hb, next_eq h⟩
          rw [← Channel.queueFull_eq_false_iff]
          simpa [hk] using hf
    · exact .inl (next_eq h)

/-- When an engine step stops: its channel's `PS_c` names no pair. -/
theorem engineStep_fault {kind : EngineStep} {body : Channel → Option Channel} {f : Fault}
    (h : engineStep c kind body s = .fault f) :
    ∃ ch, s.channel? c = some ch ∧ ch.selects = some kind ∧ body ch = none := by
  unfold engineStep at h
  split at h
  · cases h
  · split at h
    · split at h
      · cases h
      · split at h
        · exact ⟨_, ‹_›, ‹_›, ‹_›⟩
        · cases h
    · cases h

theorem engineStep_not_refused {kind : EngineStep} {body : Channel → Option Channel} {r : Refusal} :
    engineStep c kind body s ≠ .refused r := by
  unfold engineStep
  repeat' split
  all_goals simp

theorem engineStep_of_not_selected {kind : EngineStep} {body : Channel → Option Channel}
    (h : ∀ ch, s.channel? c = some ch → ch.selects ≠ some kind) : engineStep c kind body s = .next s := by
  unfold engineStep
  split
  · rfl
  · rename_i ch hc
    simp [h ch hc]

theorem engineStep_of_full {kind : EngineStep} {body : Channel → Option Channel}
    (hc : s.channel? c = some ch) (hk : kind.pushes = true) (hf : ¬ hasRoom s.fifoDepth ch) :
    engineStep c kind body s = .next s := by
  have := Channel.queueFull_eq_true_iff.2 hf
  simp [engineStep, hc, hk, this]

theorem Channel.consuming_of_lt {use : Channel → Option Channel} (h : ch.base.toNat + ch.pos < ch.pm.size) :
    ch.consuming use = use ch := by
  have : ¬ ch.pm.size ≤ ch.base.toNat + ch.pos := by omega
  simp [Channel.consuming, Channel.address, this]

theorem Channel.consuming_of_le {use : Channel → Option Channel} (h : ch.pm.size ≤ ch.base.toNat + ch.pos) :
    ch.consuming use = some (ch.raiseFault .range) := by
  simp [Channel.consuming, Channel.address, h]

theorem pairExists_iff {ps : Byte} : pairExists ps = true ↔ ps.getLsbD 7 = false := by
  unfold pairExists
  cases ps.getLsbD 7 <;> simp

theorem Channel.sample_of_pair {n : BitVec 4} (h : pairExists ch.ps = true) :
    ch.sample n = some
      { ch with
        hist2 := ch.hist1
        hist1 := predict n ch.ps ch.coef1 ch.coef2 ch.hist1 ch.hist2
        outq := ch.outq ++ [predict n ch.ps ch.coef1 ch.coef2 ch.hist1 ch.hist2]
        scount := ch.scount + 1 } := by
  simp [Channel.sample, h]

theorem Channel.sample_eq_none {n : BitVec 4} (h : ch.sample n = none) : pairExists ch.ps = false := by
  by_contra hp
  simp [Channel.sample, hp] at h

/-- The machine's sample is the reference's. -/
theorem refSample_eq (n : BitVec 4) :
    refSample ch.coef ch.ps ch.hist1 ch.hist2 n = predict n ch.ps ch.coef1 ch.coef2 ch.hist1 ch.hist2 := by
  have hk := (pairOf ch.ps).isLt
  have h1 : 2 * (pairOf ch.ps).toNat < 16 := by omega
  have h2 : 2 * (pairOf ch.ps).toNat + 1 < 16 := by omega
  simp [refSample, Channel.coef1, Channel.coef2, h1, h2, List.getD_eq_getElem?_getD]

/-! ## Host writes and reads -/

theorem updateChannel_some {f : Channel → Channel} (hc : s.channel? c = some ch) :
    updateChannel c f s = .next (s.setChannel c (f ch)) := by
  simp [updateChannel, hc]

theorem updateChannel_none {f : Channel → Channel} (hc : s.channel? c = none) : updateChannel c f s = .next s := by
  simp [updateChannel, hc]

/-- Everything a host write to a channel can do: nothing, or its function to that channel. -/
theorem updateChannel_next {f : Channel → Channel} (h : updateChannel c f s = .next t) :
    t = s ∨ ∃ ch, s.channel? c = some ch ∧ t = s.setChannel c (f ch) := by
  unfold updateChannel at h
  split at h
  · exact .inl (next_eq h)
  · exact .inr ⟨_, ‹_›, next_eq h⟩

theorem configWrite_run {f : Channel → Channel} (hc : s.channel? c = some ch) (hr : ch.state = .run) :
    configWrite c f s = .next (s.setChannel c { ch with fCfgw := true }) := by
  simp [configWrite, updateChannel, hc, hr]

theorem configWrite_not_run {f : Channel → Channel} (hc : s.channel? c = some ch) (hr : ch.state ≠ .run) :
    configWrite c f s = .next (s.setChannel c (f ch)) := by
  simp [configWrite, updateChannel, hc, hr]

theorem configWrite_none {f : Channel → Channel} (hc : s.channel? c = none) : configWrite c f s = .next s :=
  updateChannel_none hc

theorem readChannel_some {view : Channel → Word} (hc : s.channel? c = some ch) :
    readChannel c view s = .next (s.returning (view ch)) := by
  simp [readChannel, hc]

theorem readChannel_none {view : Channel → Word} (hc : s.channel? c = none) :
    readChannel c view s = .next (s.returning 0) := by
  simp [readChannel, hc]

/-- Everything a host read without side effect can do: give the host a word. -/
theorem readChannel_next {view : Channel → Word} (h : readChannel c view s = .next t) : ∃ w, t = s.returning w := by
  unfold readChannel at h
  split at h <;> exact ⟨_, next_eq h⟩

/-- Everything a read of CH.OUT can do: give the host a word, and perhaps pop the queue's head. -/
theorem execChOutR_next (h : execChOutR c s = .next t) :
    (∃ w, t = s.returning w) ∨
    ∃ ch v q, s.channel? c = some ch ∧ ch.outq = v :: q ∧ ¬ (s.mux.mstate = .run ∧ c ∈ s.mux.chlist) ∧
      t = (s.setChannel c { ch with outq := q }).returning (outWord v) := by
  unfold execChOutR at h
  split at h
  · exact .inl ⟨_, next_eq h⟩
  · rename_i ch hc
    split at h
    · exact .inl ⟨_, next_eq h⟩
    · rename_i ho
      split at h
      · exact .inl ⟨_, next_eq h⟩
      · exact .inr ⟨ch, _, _, hc, ‹_›, ho, next_eq h⟩

/-! ## The multiplexer step -/

/-- Everything a multiplexer step that goes on can have done. -/
theorem muxStep_next (h : muxStep s = .next t) :
    t = s ∨
    (s.mux.mstate = .run ∧ s.mux.mi = s.mux.ml ∧ t = s.setMux { s.mux with mstate := .done }) ∨
    (s.mux.mstate = .run ∧ s.mux.mi ≠ s.mux.ml ∧ ∃ c ch, s.mux.chlist[s.mux.mj]? = some c ∧ s.channel? c = some ch ∧
      ((∃ v q, ch.outq = v :: q ∧ t = s.emitSample c ch v q) ∨
       (ch.outq = [] ∧ ch.state = .fault ∧ t = s.setMux s.mux.raiseSrc))) := by
  unfold muxStep at h
  split at h
  · rename_i hr
    split at h
    · rename_i hi
      exact .inr (.inl ⟨hr, hi, next_eq h⟩)
    · rename_i hi
      split at h
      · cases h
      · rename_i c hc
        split at h
        · cases h
        · rename_i ch hch
          split at h
          · rename_i v q hq
            exact .inr (.inr ⟨hr, hi, c, ch, hc, hch, .inl ⟨v, q, hq, next_eq h⟩⟩)
          · rename_i hq
            split at h
            · exact .inr (.inr ⟨hr, hi, c, ch, hc, hch, .inr ⟨hq, ‹_›, next_eq h⟩⟩)
            · exact .inl (next_eq h)
  · exact .inl (next_eq h)

/-- When a multiplexer step stops: it has no channel due. -/
theorem muxStep_fault {f : Fault} (h : muxStep s = .fault f) :
    s.mux.mstate = .run ∧ s.mux.mi ≠ s.mux.ml ∧
      ∀ c, s.mux.chlist[s.mux.mj]? = some c → s.channel? c = none := by
  unfold muxStep at h
  split at h
  · split at h
    · cases h
    · split at h
      · exact ⟨‹_›, ‹_›, fun c hc => by simp_all⟩
      · split at h
        · exact ⟨‹_›, ‹_›, fun c hc => by simp_all⟩
        · split at h
          · cases h
          · split at h <;> cases h
  · cases h

theorem loadPayload_next {image : Memory} (h : loadPayload c image s = .next t) :
    ∃ ch, s.channel? c = some ch ∧ ch.state ≠ .run ∧ image.wf = true ∧ t = s.setChannel c { ch with pm := image } := by
  unfold loadPayload at h
  split at h
  · cases h
  · split at h
    · cases h
    · split at h
      · exact ⟨_, ‹_›, ‹_›, ‹_›, next_eq h⟩
      · cases h

/-! ## Everything exec can do -/

/-- Every state exec goes on to: the same state; a word given to the host; one channel replaced, with a word given or not; or the multiplexer replaced. -/
theorem exec_next {i : Instr} (h : exec i s = .next t) :
    t = s ∨ (∃ w, t = s.returning w) ∨
    (∃ c ch ch', s.channel? c = some ch ∧ (t = s.setChannel c ch' ∨ ∃ w, t = (s.setChannel c ch').returning w)) ∨
    ∃ m, t = s.setMux m := by
  have eng : ∀ {c : Chan} {kind : EngineStep} {body : Channel → Option Channel},
      engineStep c kind body s = .next t → t = s ∨ (∃ w, t = s.returning w) ∨
      (∃ c ch ch', s.channel? c = some ch ∧ (t = s.setChannel c ch' ∨ ∃ w, t = (s.setChannel c ch').returning w)) ∨
      ∃ m, t = s.setMux m := by
    intro c kind body h
    rcases engineStep_next h with h | ⟨ch, ch', hc, -, -, -, h⟩
    · exact .inl h
    · exact .inr (.inr (.inl ⟨c, ch, ch', hc, .inl h⟩))
  have upd : ∀ {c : Chan} {f : Channel → Channel},
      updateChannel c f s = .next t → t = s ∨ (∃ w, t = s.returning w) ∨
      (∃ c ch ch', s.channel? c = some ch ∧ (t = s.setChannel c ch' ∨ ∃ w, t = (s.setChannel c ch').returning w)) ∨
      ∃ m, t = s.setMux m := by
    intro c f h
    rcases updateChannel_next h with h | ⟨ch, hc, h⟩
    · exact .inl h
    · exact .inr (.inr (.inl ⟨c, ch, _, hc, .inl h⟩))
  cases i with
  | hdr | hdrBadpred | dataHi | dataLo | endRun =>
    simp only [exec, execHdr, execHdrBadpred, execDataHi, execDataLo, execEndRun] at h
    exact eng h
  | idW | muxCtrlNop | globalRoW | chCtrlNop | chStatusW | chPosW | chScountW | chPsW | chOutW | rsvdW =>
    exact .inl (next_eq h)
  | idR | muxCtrlR | muxCfgR | muxStatusR | muxOcountR | rsvdR => exact .inr (.inl ⟨_, next_eq h⟩)
  | muxCtrlAbort => exact .inr (.inr (.inr ⟨_, next_eq h⟩))
  | muxCtrlStart d =>
    simp only [exec, execMuxCtrlStart] at h
    split at h
    · exact .inr (.inr (.inr ⟨_, next_eq h⟩))
    · exact .inl (next_eq h)
  | muxCfgW d =>
    simp only [exec, execMuxCfgW] at h
    split at h <;> exact .inr (.inr (.inr ⟨_, next_eq h⟩))
  | chCtrlStart | chCtrlAbort | chBaseW | chLenW | chSrateW | chHist1W | chHist2W | chCoefW =>
    simp only [exec, execChCtrlStart, execChCtrlAbort, execChBaseW, execChLenW, execChSrateW, execChHist1W,
      execChHist2W, execChCoefW, configWrite] at h
    exact upd h
  | chCtrlR | chStatusR | chBaseR | chLenR | chSrateR | chHist1R | chHist2R | chPosR | chScountR | chPsR | chCoefR =>
    exact .inr (.inl (readChannel_next h))
  | chOutR c =>
    rcases execChOutR_next h with h | ⟨ch, v, q, hc, -, -, h⟩
    · exact .inr (.inl h)
    · exact .inr (.inr (.inl ⟨c, ch, _, hc, .inr ⟨_, h⟩⟩))

/-- exec refuses nothing. -/
theorem exec_not_refused {i : Instr} {r : Refusal} : exec i s ≠ .refused r := by
  cases i with
  | hdr | hdrBadpred | dataHi | dataLo | endRun =>
    simp only [exec, execHdr, execHdrBadpred, execDataHi, execDataLo, execEndRun]
    exact engineStep_not_refused
  | muxCtrlStart d => simp only [exec, execMuxCtrlStart]; split <;> simp
  | muxCfgW d => simp only [exec, execMuxCfgW]; split <;> simp
  | chCtrlStart | chCtrlAbort | chBaseW | chLenW | chSrateW | chHist1W | chHist2W | chCoefW =>
    intro h
    simp only [exec, execChCtrlStart, execChCtrlAbort, execChBaseW, execChLenW, execChSrateW, execChHist1W,
      execChHist2W, execChCoefW, configWrite, updateChannel] at h
    split at h <;> cases h
  | chCtrlR | chStatusR | chBaseR | chLenR | chSrateR | chHist1R | chHist2R | chPosR | chScountR | chPsR | chCoefR =>
    intro h
    simp only [exec, execChCtrlR, execChStatusR, execChBaseR, execChLenR, execChSrateR, execChHist1R, execChHist2R,
      execChPosR, execChScountR, execChPsR, execChCoefR, readChannel] at h
    split at h <;> cases h
  | chOutR c =>
    intro h
    simp only [exec, execChOutR] at h
    repeat' split at h
    all_goals cases h
  | _ => intro h; cases h

/-! ## Everything a step can do -/

/-- The ways a step goes on: nothing pending; a hold; exec of the decoded instruction; RANGE; the multiplexer's turn; reset; a payload image. Each but the first is on the state with the event used up. -/
theorem step_next (h : step s = .next t) :
    (s.fetch = .idle ∧ t = s) ∨ (s.fetch = .hold ∧ t = s.retire) ∨
    (∃ u i, s.fetch = .code u ∧ decode s.nchMax u = .instr i ∧ exec i s.retire = .next t) ∨
    (∃ c, s.fetch = .outOfRange c ∧ takeRange c s.retire = .next t) ∨
    (s.fetch = .muxTurn ∧ muxStep s.retire = .next t) ∨ (s.fetch = .reset ∧ t = s.retire.applyReset) ∨
    (∃ c image, s.fetch = .load c image ∧ loadPayload c image s.retire = .next t) := by
  unfold step at h
  cases hf : s.fetch with
  | idle => simp only [hf] at h; exact .inl ⟨rfl, next_eq h⟩
  | hold => simp only [hf] at h; exact .inr (.inl ⟨rfl, next_eq h⟩)
  | code u =>
    simp only [hf] at h
    split at h
    · exact .inr (.inr (.inl ⟨u, _, rfl, ‹_›, h⟩))
    · cases h
  | outOfRange c => simp only [hf] at h; exact .inr (.inr (.inr (.inl ⟨c, rfl, h⟩)))
  | muxTurn => simp only [hf] at h; exact .inr (.inr (.inr (.inr (.inl ⟨rfl, h⟩))))
  | reset => simp only [hf] at h; exact .inr (.inr (.inr (.inr (.inr (.inl ⟨rfl, next_eq h⟩)))))
  | load c image => simp only [hf] at h; exact .inr (.inr (.inr (.inr (.inr (.inr ⟨c, image, rfl, h⟩)))))
  | refuse r => simp only [hf] at h; cases h

/-- What an engine's turn fetches, by its sequencer. -/
theorem fetchEngine_cases (hc : s.channel? c = some ch) :
    (ch.selects = none ∧ s.fetchEngine c = .hold) ∨
    (ch.selects = some .dataLo ∧ s.fetchEngine c = .code (.latched c)) ∨
    (ch.selects = some .finish ∧ s.fetchEngine c = .code (.ended c)) ∨
    (ch.selects = some .hdr ∧ ch.pm.read ch.address = none ∧ s.fetchEngine c = .outOfRange c) ∨
    (∃ b, ch.selects = some .hdr ∧ ch.pm.read ch.address = some b ∧ s.fetchEngine c = .code (.header c b)) ∨
    (ch.selects = some .dataHi ∧ ¬ hasRoom s.fifoDepth ch ∧ s.fetchEngine c = .hold) ∨
    (ch.selects = some .dataHi ∧ hasRoom s.fifoDepth ch ∧ ch.pm.read ch.address = none ∧
      s.fetchEngine c = .outOfRange c) ∨
    (∃ b, ch.selects = some .dataHi ∧ hasRoom s.fifoDepth ch ∧ ch.pm.read ch.address = some b ∧
      s.fetchEngine c = .code (.data c b)) := by
  unfold State.fetchEngine
  simp only [hc]
  cases hs : ch.selects with
  | none => simp
  | some k =>
    cases k with
    | dataLo => simp
    | finish => simp
    | hdr => cases hr : ch.pm.read ch.address <;> simp
    | dataHi =>
      cases hf : ch.queueFull s.fifoDepth
      · have := Channel.queueFull_eq_false_iff.1 hf
        cases hr : ch.pm.read ch.address <;> simp [this]
      · have := Channel.queueFull_eq_true_iff.1 hf
        simp [this]

end Sys2Proof.Machine
end

