-- ==== Sys2Proof/Laws/Decode.lean ====
section
/-! SUPPORT. The fields of a key and of an address, read back from what builds them, and the instructions an access decodes to. -/

namespace Sys2Proof

/-- A bit of a key, by the field it lies in. -/
theorem accessKey_getLsbD (wr : Bool) (a : BitVec 13) (d : Word) (i : Nat) :
    (accessKey wr a d).getLsbD i =
      if i < 32 then d.getLsbD i else if i - 32 < 13 then a.getLsbD (i - 32) else (decide (i - 45 = 0) && wr) := by
  have h1 := BitVec.getLsbD_append (i := i) (x := BitVec.ofBool wr ++ a) (y := d)
  have h2 := BitVec.getLsbD_append (i := i - 32) (x := BitVec.ofBool wr) (y := a)
  have h3 : i - 32 - 13 = i - 45 := by omega
  rw [h2, h3, BitVec.getLsbD_ofBool] at h1
  exact h1

/-- A bit of a channel register's address. -/
theorem channelAddr_getLsbD (c : Chan) (off : BitVec 8) (i : Nat) :
    (channelAddr c off).getLsbD i =
      if i < 8 then off.getLsbD i else if i - 8 < 4 then c.getLsbD (i - 8) else (1#1).getLsbD (i - 12) := by
  have h1 := BitVec.getLsbD_append (i := i) (x := 1#1 ++ c) (y := off)
  have h2 := BitVec.getLsbD_append (i := i - 8) (x := 1#1) (y := c)
  have h3 : i - 8 - 4 = i - 12 := by omega
  rw [h2, h3] at h1
  exact h1

@[simp] theorem keyWrite_accessKey (wr : Bool) (a : BitVec 13) (d : Word) : keyWrite (accessKey wr a d) = wr := by
  rw [keyWrite, accessKey_getLsbD]
  simp

@[simp] theorem keyAddr_accessKey (wr : Bool) (a : BitVec 13) (d : Word) : keyAddr (accessKey wr a d) = a := by
  apply BitVec.eq_of_getLsbD_eq
  intro i hi
  simp [keyAddr, accessKey_getLsbD, hi]

@[simp] theorem keyData_accessKey (wr : Bool) (a : BitVec 13) (d : Word) : keyData (accessKey wr a d) = d := by
  apply BitVec.eq_of_getLsbD_eq
  intro i hi
  simp [keyData, accessKey_getLsbD, hi]

/-- A key is its three fields. -/
theorem accessKey_fields (key : BitVec 46) : accessKey (keyWrite key) (keyAddr key) (keyData key) = key := by
  apply BitVec.eq_of_getLsbD_eq
  intro i hi
  simp only [accessKey_getLsbD, keyWrite, keyAddr, keyData, BitVec.getLsbD_extractLsb']
  by_cases h1 : i < 32
  · simp [h1]
  · by_cases h2 : i - 32 < 13
    · have : 32 + (i - 32) = i := by omega
      simp [h1, h2, this]
    · have h3 : i = 45 := by omega
      subst h3
      simp

@[simp] theorem globalAddr_offset (off : BitVec 8) : (globalAddr off).extractLsb' 0 8 = off := by
  revert off; decide

@[simp] theorem globalAddr_align (off : BitVec 8) : (globalAddr off).extractLsb' 0 2 = off.extractLsb' 0 2 := by
  revert off; decide

@[simp] theorem globalAddr_high (off : BitVec 8) : (globalAddr off).getLsbD 12 = false := by
  revert off; decide

theorem globalAddr_lt (off : BitVec 8) : (globalAddr off).toNat < 0x100 := by
  revert off; decide

@[simp] theorem channelAddr_offset (c : Chan) (off : BitVec 8) : (channelAddr c off).extractLsb' 0 8 = off := by
  apply BitVec.eq_of_getLsbD_eq
  intro i hi
  simp [channelAddr_getLsbD, hi]

@[simp] theorem channelAddr_align (c : Chan) (off : BitVec 8) :
    (channelAddr c off).extractLsb' 0 2 = off.extractLsb' 0 2 := by
  apply BitVec.eq_of_getLsbD_eq
  intro i hi
  have : i < 8 := by omega
  simp [channelAddr_getLsbD, this]

@[simp] theorem channelAddr_channel (c : Chan) (off : BitVec 8) : (channelAddr c off).extractLsb' 8 4 = c := by
  apply BitVec.eq_of_getLsbD_eq
  intro i hi
  simp [channelAddr_getLsbD, hi]

@[simp] theorem channelAddr_high (c : Chan) (off : BitVec 8) : (channelAddr c off).getLsbD 12 = true := by
  simp [channelAddr_getLsbD]

/-- An access to the global window decodes by its offset. -/
theorem decodeAccess_global (nch : Nat) (wr : Bool) (off : BitVec 8) (d : Word) (h : off.extractLsb' 0 2 = 0#2) :
    decodeAccess nch (accessKey wr (globalAddr off) d) = .instr (decodeGlobal wr (globalAddr off) off d) := by
  simp only [decodeAccess, keyAddr_accessKey, globalAddr_high, globalAddr_align, globalAddr_offset, h, globalAddr_lt,
    keyWrite_accessKey, keyData_accessKey, ne_eq, not_true, if_true, if_false]

/-- An access to the window of a channel the block has decodes by its offset. -/
theorem decodeAccess_channel (nch : Nat) (wr : Bool) (c : Chan) (off : BitVec 8) (d : Word)
    (h : off.extractLsb' 0 2 = 0#2) (hc : hasChannel nch c = true) :
    decodeAccess nch (accessKey wr (channelAddr c off) d) = .instr (decodeChannel wr (channelAddr c off) c off d) := by
  simp [decodeAccess, h, hc]

/-! ## Coefficient and reserved addresses -/

theorem coefOffset_align (i : BitVec 4) : (coefOffset i).extractLsb' 0 2 = 0#2 := by
  revert i; decide

/-- The window offset of a coefficient decodes to the coefficient's row. -/
theorem decodeChannel_coef (wr : Bool) (a : BitVec 13) (c : Chan) (i : BitVec 4) (d : Word) :
    decodeChannel wr a c (coefOffset i) d = if wr then .chCoefW c i d else .chCoefR c i := by
  have h : ∀ i : BitVec 4, (coefOffset i).extractLsb' 6 2 = 1#2 ∧ (coefOffset i).extractLsb' 2 4 = i ∧
      coefOffset i ≠ 0x00 ∧ coefOffset i ≠ 0x04 ∧ coefOffset i ≠ 0x08 ∧ coefOffset i ≠ 0x0C ∧ coefOffset i ≠ 0x10 ∧
      coefOffset i ≠ 0x14 ∧ coefOffset i ≠ 0x18 ∧ coefOffset i ≠ 0x1C ∧ coefOffset i ≠ 0x20 ∧ coefOffset i ≠ 0x24 ∧
      coefOffset i ≠ 0x28 := by decide
  obtain ⟨h1, h2, h3⟩ := h i
  simp only [decodeChannel, h1, h2, h3, if_true, if_false]

/-- A reserved offset of the global window is no register's. -/
theorem reserved_global_offset (off : BitVec 8)
    (h : (4 ≤ off.toNat ∧ off.toNat ≤ 0xC) ∨ 0x20 ≤ off.toNat) :
    off ≠ 0x00 ∧ off ≠ 0x10 ∧ off ≠ 0x14 ∧ off ≠ 0x18 ∧ off ≠ 0x1C := by
  revert off; decide

/-- A reserved offset of a channel window is no register's. -/
theorem reserved_channel_offset (off : BitVec 8)
    (h : (0x2C ≤ off.toNat ∧ off.toNat ≤ 0x3C) ∨ 0x80 ≤ off.toNat) :
    off ≠ 0x00 ∧ off ≠ 0x04 ∧ off ≠ 0x08 ∧ off ≠ 0x0C ∧ off ≠ 0x10 ∧ off ≠ 0x14 ∧ off ≠ 0x18 ∧ off ≠ 0x1C ∧
      off ≠ 0x20 ∧ off ≠ 0x24 ∧ off ≠ 0x28 ∧ off.extractLsb' 6 2 ≠ 1#2 := by
  revert off; decide

/-- An access to a reserved address decodes to its reserved row. -/
theorem decodeAccess_reserved (nch : Nat) (wr : Bool) (a : BitVec 13) (d : Word) (h : reservedAddr nch a = true) :
    decodeAccess nch (accessKey wr a d) = .instr (decodeReserved wr a d) := by
  simp only [reservedAddr, Bool.and_eq_true, decide_eq_true_eq] at h
  obtain ⟨hm, h⟩ := h
  have hal : a.extractLsb' 0 2 = 0#2 := by
    rw [← BitVec.toNat_inj]
    simpa using hm
  have hoff : (a.extractLsb' 0 8).toNat = a.toNat % 256 := by simp
  have hc : (a.extractLsb' 8 4).toNat = a.toNat / 256 % 16 := by simp [Nat.shiftRight_eq_div_pow]
  have hb : a.getLsbD 12 = decide (4096 ≤ a.toNat) := by
    have := a.isLt
    rw [BitVec.getLsbD, Nat.testBit_eq_decide_div_mod_eq]
    congr 1
    simp
    omega
  simp only [decodeAccess, keyAddr_accessKey, keyWrite_accessKey, keyData_accessKey, hal, hb]
  by_cases h1 : a.toNat < 0x100
  · have h2 : ¬ 4096 ≤ a.toNat := by omega
    simp only [h1, if_true, Bool.or_eq_true, Bool.and_eq_true, decide_eq_true_eq] at h
    obtain ⟨e1, e2, e3, e4, e5⟩ := reserved_global_offset (a.extractLsb' 0 8) (by omega)
    simp only [h1, h2, decide_false, ne_eq, not_true, if_true, if_false, decodeGlobal, e1, e2, e3, e4, e5]
  · by_cases h2 : a.toNat < 0x1000
    · have h3 : ¬ 4096 ≤ a.toNat := by omega
      simp [h1, h3]
    · have h3 : 4096 ≤ a.toNat := by omega
      simp only [h1, h2, if_false, Bool.or_eq_true, Bool.and_eq_true, decide_eq_true_eq] at h
      simp only [h3, decide_true, hasChannel, hc]
      by_cases h4 : a.toNat / 256 % 16 < nch
      · obtain ⟨e1, e2, e3, e4, e5, e6, e7, e8, e9, e10, e11, e12⟩ :=
          reserved_channel_offset (a.extractLsb' 0 8) (by omega)
        simp only [h4, decide_true, ne_eq, not_true, if_true, if_false, decodeChannel, e1, e2, e3, e4, e5, e6, e7, e8,
          e9, e10, e11, e12]
        rfl
      · simp [h4]

/-- The instructions that are host accesses. -/
def Instr.isAccess : Instr → Bool
  | .hdr .. => false
  | .hdrBadpred .. => false
  | .dataHi .. => false
  | .dataLo .. => false
  | .endRun .. => false
  | _ => true

theorem decodeReserved_isAccess (wr : Bool) (a : BitVec 13) (d : Word) : (decodeReserved wr a d).isAccess = true := by
  cases wr <;> rfl

theorem decodeGlobal_isAccess (wr : Bool) (a : BitVec 13) (off : BitVec 8) (d : Word) :
    (decodeGlobal wr a off d).isAccess = true := by
  simp only [decodeGlobal, decodeReserved, decodeCommand, apply_ite Instr.isAccess]
  simp only [Instr.isAccess, ite_self]

theorem decodeChannel_isAccess (wr : Bool) (a : BitVec 13) (c : Chan) (off : BitVec 8) (d : Word) :
    (decodeChannel wr a c off d).isAccess = true := by
  simp only [decodeChannel, decodeReserved, decodeCommand, apply_ite Instr.isAccess]
  simp only [Instr.isAccess, ite_self]

/-- An access key decodes to a host access exactly when it is aligned, and is rejected otherwise. -/
theorem decodeAccess_total (nch : Nat) (key : BitVec 46) :
    ((keyAddr key).extractLsb' 0 2 ≠ 0#2 ∧ decodeAccess nch key = .reject .misaligned) ∨
    ((keyAddr key).extractLsb' 0 2 = 0#2 ∧ ∃ i, decodeAccess nch key = .instr i ∧ i.isAccess = true) := by
  by_cases h : (keyAddr key).extractLsb' 0 2 = 0#2
  · refine .inr ⟨h, ?_⟩
    simp only [decodeAccess, h, ne_eq, not_true, if_false]
    repeat' split
    all_goals
      first
      | exact ⟨_, rfl, decodeGlobal_isAccess ..⟩
      | exact ⟨_, rfl, decodeChannel_isAccess ..⟩
      | exact ⟨_, rfl, decodeReserved_isAccess ..⟩
  · exact .inl ⟨h, by simp [decodeAccess, h]⟩

namespace Machine

/-- Every host access completes from every state. -/
theorem exec_access_next {i : Instr} (s : State) (h : i.isAccess = true) : ∃ t, exec i s = .next t := by
  have upd : ∀ (c : Chan) (f : Channel → Channel), ∃ t, updateChannel c f s = .next t := by
    intro c f
    unfold updateChannel
    split <;> exact ⟨_, rfl⟩
  have rd : ∀ (c : Chan) (v : Channel → Word), ∃ t, readChannel c v s = .next t := by
    intro c f
    unfold readChannel
    split <;> exact ⟨_, rfl⟩
  cases i with
  | hdr | hdrBadpred | dataHi | dataLo | endRun => cases h
  | muxCtrlStart d => simp only [exec, execMuxCtrlStart]; split <;> exact ⟨_, rfl⟩
  | muxCfgW d => simp only [exec, execMuxCfgW]; split <;> exact ⟨_, rfl⟩
  | chCtrlStart | chCtrlAbort | chBaseW | chLenW | chSrateW | chHist1W | chHist2W | chCoefW =>
    simp only [exec, execChCtrlStart, execChCtrlAbort, execChBaseW, execChLenW, execChSrateW, execChHist1W,
      execChHist2W, execChCoefW, configWrite]
    exact upd _ _
  | chCtrlR | chStatusR | chBaseR | chLenR | chSrateR | chHist1R | chHist2R | chPosR | chScountR | chPsR | chCoefR =>
    simp only [exec, execChCtrlR, execChStatusR, execChBaseR, execChLenR, execChSrateR, execChHist1R, execChHist2R,
      execChPosR, execChScountR, execChPsR, execChCoefR]
    exact rd _ _
  | chOutR c =>
    simp only [exec, execChOutR]
    repeat' split
    all_goals exact ⟨_, rfl⟩
  | _ => exact ⟨_, rfl⟩

end Machine

end Sys2Proof
end

