-- ==== Sys2Proof/Laws/Engine.lean ====
section
/-! SUPPORT. An engine's whole turn (fetch, decode, exec) as one function of its channel, and the step of an engine's event in terms of it. -/

namespace Sys2Proof.Machine

/-- What one turn makes of the engine's channel; none where DATA_HI or DATA_LO meets a pair that does not exist. -/
def Channel.turn (depth : QueueDepth) (ch : Channel) : Option Channel :=
  match ch.selects with
  | none => some ch
  | some .dataLo =>
    if ch.queueFull depth then some ch else { ch with nph := false }.sample (ch.db.extractLsb' 0 4)
  | some .finish => some { ch with state := .done }
  | some .hdr =>
    match ch.pm.read ch.address with
    | none => some (ch.raiseFault .range)
    | some b =>
      if b.getLsbD 7 then some ({ ch with ps := b }.raiseFault .pred) else some { ch with ps := b, pos := ch.pos + 1 }
  | some .dataHi =>
    if ch.queueFull depth then some ch
    else
      match ch.pm.read ch.address with
      | none => some (ch.raiseFault .range)
      | some b => { ch with db := b, pos := ch.pos + 1, nph := true }.sample (b.extractLsb' 4 4)

theorem State.retire_of_pending {s : State} {e : Event} {rest : List Event} (h : s.pending = e :: rest) :
    s.retire = { s with pending := rest } := by
  simp [State.retire, h]

theorem State.setChannel_of_same {s : State} {c : Chan} {ch : Channel} (h : s.channel? c = some ch) :
    s.setChannel c ch = s := by
  have hlt : c.toNat < s.channels.length := State.lt_nchMax h
  have he : s.channels[c.toNat] = ch := by
    have := h
    simp only [State.channel?, List.getElem?_eq_getElem hlt, Option.some.injEq] at this
    exact this
  simp [State.setChannel, ← he]

theorem header_fields (b : Byte) (h : b.getLsbD 7 = false) : 0#1 ++ b.extractLsb' 4 3 ++ b.extractLsb' 0 4 = b := by
  revert b; decide

theorem header_fields_bad (b : Byte) (h : b.getLsbD 7 = true) : 1#1 ++ b.extractLsb' 4 3 ++ b.extractLsb' 0 4 = b := by
  revert b; decide

theorem data_fields (b : Byte) : b.extractLsb' 4 4 ++ b.extractLsb' 0 4 = b := by
  revert b; decide

theorem Memory.read_lt {m : Memory} {a : Nat} {b : Byte} (h : m.read a = some b) : a < m.size := by
  unfold Memory.read at h
  split at h
  · assumption
  · cases h

/-- The step of engine `c`'s event is the turn of its channel. -/
theorem step_engine {s : State} {c : Chan} {ch : Channel} {rest : List Event} (hp : s.pending = .engine c :: rest)
    (hc : s.channel? c = some ch) :
    step s = match ch.turn s.fifoDepth with
      | some ch' => .next (State.setChannel { s with pending := rest } c ch')
      | none => .fault .noCoefficientPair := by
  have hf : s.fetch = s.fetchEngine c := by simp [State.fetch, hp]
  have hn : hasChannel s.nchMax c = true := by simpa [hasChannel] using State.lt_nchMax hc
  have hr := State.retire_of_pending hp
  have hc' : ({ s with pending := rest } : State).channel? c = some ch := hc
  have hsame := State.setChannel_of_same hc'
  rcases fetchEngine_cases hc with ⟨hs, h⟩ | ⟨hs, h⟩ | ⟨hs, h⟩ | ⟨hs, hb, h⟩ | ⟨b, hs, hb, h⟩ | ⟨hs, hq, h⟩ |
    ⟨hs, hq, hb, h⟩ | ⟨b, hs, hq, hb, h⟩
  · simp [step, hf, h, hr, Channel.turn, hs, hsame]
  · simp only [step, hf, h, decode, hn, if_true, exec, execDataLo, hr, Channel.turn, hs, engineStep, hc',
      EngineStep.pushes, Bool.true_and]
    by_cases hq : ch.queueFull s.fifoDepth = true
    · simp [hq, hsame]
    · simp only [hq]
      cases ({ ch with nph := false } : Channel).sample (ch.db.extractLsb' 0 4) <;> rfl
  · simp [step, hf, h, decode, hn, exec, execEndRun, hr, Channel.turn, hs, engineStep, hc', EngineStep.pushes]
  · simp [step, hf, h, takeRange, updateChannel, hr, hc', Channel.turn, hs, hb]
  · have hlt := Memory.read_lt hb
    rw [Channel.address] at hlt
    simp only [step, hf, h, decode, hn, if_true, decodeHeader, hr, Channel.turn, hs, hb]
    by_cases h7 : b.getLsbD 7 = true
    · simp only [h7, if_true, exec, execHdrBadpred, engineStep, hc', hs, EngineStep.pushes, Bool.false_and,
        Channel.consuming_of_lt hlt, header_fields_bad b h7]
      rfl
    · have h7' : b.getLsbD 7 = false := by simpa using h7
      simp only [h7', Bool.false_eq_true, if_false, exec, execHdr, engineStep, hc', hs, EngineStep.pushes, Bool.false_and,
        Channel.consuming_of_lt hlt, header_fields b h7']
      rfl
  · simp [step, hf, h, hr, Channel.turn, hs, hsame, Channel.queueFull_eq_true_iff.2 hq]
  · simp [step, hf, h, takeRange, updateChannel, hr, hc', Channel.turn, hs, hb, Channel.queueFull_eq_false_iff.2 hq]
  · have hlt := Memory.read_lt hb
    rw [Channel.address] at hlt
    have hq' := Channel.queueFull_eq_false_iff.2 hq
    simp only [step, hf, h, decode, hn, if_true, exec, execDataHi, hr, Channel.turn, hs, hb, engineStep, hc',
      EngineStep.pushes, Bool.true_and, hq', Channel.consuming_of_lt hlt, data_fields]
    simp only [Bool.false_eq_true, if_false]
    cases Channel.sample { ch with db := b, pos := ch.pos + 1, nph := true } (b.extractLsb' 4 4) <;> rfl

end Sys2Proof.Machine
end

