-- ==== Sys2Proof/Laws/Memory.lean ====
section
/-! SUPPORT. Payload memory: reading after writing, the canonical form kept by every operation, and what an image made of a byte list holds. -/

namespace Sys2Proof.Machine

theorem cellsRead_cellsWrite (cells : List Host.Cell) (a x : Nat) (b : Byte) (lo size : Nat)
    (h : cellsWf size lo cells = true) :
    cellsRead (cellsWrite cells a b) x = if a = x then b else cellsRead cells x := by
  induction cells generalizing lo with
  | nil => by_cases hb : b = 0#8 <;> simp [cellsWrite, cellsRead, hb]
  | cons p rest ih =>
    obtain ⟨y, v⟩ := p
    simp only [cellsWf, Bool.and_eq_true, decide_eq_true_eq] at h
    have below : ∀ (rest : List Host.Cell) (lo z : Nat), cellsWf size lo rest = true → z < lo → cellsRead rest z = 0#8 := by
      intro rest
      induction rest with
      | nil => intros; rfl
      | cons q tail ih2 =>
        obtain ⟨w, u⟩ := q
        intro lo z hw hz
        simp only [cellsWf, Bool.and_eq_true, decide_eq_true_eq] at hw
        have : w ≠ z := by omega
        simp [cellsRead, this, ih2 (w + 1) z hw.2 (by omega)]
    have hr := below rest (y + 1) y h.2 (by omega)
    simp only [cellsWrite]
    split
    · have ha := fun z (hz : z < y) => below rest (y + 1) z h.2 (by omega)
      by_cases hb : b = 0#8
      · by_cases hx : a = x
        · subst hx
          have : y ≠ a := by omega
          simp [hb, cellsRead, this, ha a (by omega)]
        · simp [hb, hx]
      · simp [hb, cellsRead]
    · split
      · subst a
        by_cases hb : b = 0#8
        · by_cases hx : y = x
          · subst hx; simp [hb, hr]
          · simp [hb, hx, cellsRead]
        · by_cases hx : y = x <;> simp [hb, hx, cellsRead]
      · by_cases hx : y = x
        · have : a ≠ x := by omega
          simp [cellsRead, hx, this]
        · simp [cellsRead, hx, ih (y + 1) h.2]

/-- The byte written is read back, and every other byte is as before. -/
theorem Memory.read_write (m : Memory) (a x : Nat) (b : Byte) (h : m.wf = true) (ha : a < m.size) :
    (m.write a b).read x = if a = x then some b else m.read x := by
  simp only [Memory.wf, Bool.and_eq_true] at h
  simp only [Memory.read, Memory.write, ha, if_true, cellsRead_cellsWrite m.cells a x b 0 m.size h.2]
  by_cases hx : a = x
  · subst hx; simp [ha]
  · simp [hx]

theorem cellsWf_mono {size lo lo' : Nat} {cells : List Host.Cell} (h : cellsWf size lo cells = true) (hl : lo' ≤ lo) :
    cellsWf size lo' cells = true := by
  cases cells with
  | nil => rfl
  | cons p rest =>
    simp only [cellsWf, Bool.and_eq_true, decide_eq_true_eq] at h ⊢
    exact ⟨⟨⟨by omega, h.1.1.2⟩, h.1.2⟩, h.2⟩

theorem cellsWf_grow {size size' lo : Nat} {cells : List Host.Cell} (h : cellsWf size lo cells = true)
    (hs : size ≤ size') : cellsWf size' lo cells = true := by
  induction cells generalizing lo with
  | nil => rfl
  | cons p rest ih =>
    simp only [cellsWf, Bool.and_eq_true, decide_eq_true_eq] at h ⊢
    exact ⟨⟨⟨h.1.1.1, by omega⟩, h.1.2⟩, ih h.2⟩

theorem cellsWf_cellsWrite {size lo a : Nat} {b : Byte} {cells : List Host.Cell} (h : cellsWf size lo cells = true)
    (hlo : lo ≤ a) (ha : a < size) : cellsWf size lo (cellsWrite cells a b) = true := by
  induction cells generalizing lo with
  | nil => by_cases hb : b = 0#8 <;> simp [cellsWrite, cellsWf, hb, hlo, ha]
  | cons p rest ih =>
    obtain ⟨y, v⟩ := p
    have h' := h
    simp only [cellsWf, Bool.and_eq_true, decide_eq_true_eq] at h
    simp only [cellsWrite]
    split
    · by_cases hb : b = 0#8
      · simpa [hb] using h'
      · simp only [hb, if_false, cellsWf, Bool.and_eq_true, decide_eq_true_eq]
        exact ⟨⟨⟨hlo, ha⟩, by simpa using hb⟩, ⟨⟨by omega, h.1.1.2⟩, h.1.2⟩, h.2⟩
    · split
      · subst a
        by_cases hb : b = 0#8
        · simpa [hb] using cellsWf_mono h.2 (by omega)
        · simp only [hb, if_false, cellsWf, Bool.and_eq_true, decide_eq_true_eq]
          exact ⟨⟨⟨hlo, ha⟩, by simpa using hb⟩, h.2⟩
      · simp only [cellsWf, Bool.and_eq_true, decide_eq_true_eq]
        exact ⟨h.1, ih h.2 (by omega)⟩

/-- Setting a byte keeps the canonical form. -/
theorem Memory.write_wf (m : Memory) (a : Nat) (b : Byte) (h : m.wf = true) : (m.write a b).wf = true := by
  simp only [Memory.write]
  split
  · simp only [Memory.wf, Bool.and_eq_true] at h ⊢
    exact ⟨h.1, cellsWf_cellsWrite h.2 (by omega) (by omega)⟩
  · exact h

theorem Memory.empty_wf : Memory.empty.wf = true := by decide

/-- Making an image larger, within what R6 allows, keeps the canonical form. -/
theorem Memory.grow_wf (m : Memory) (n : Nat) (h : m.wf = true) (hn : n ≤ Config.maxPayloadSize) (hm : m.size ≤ n) :
    Memory.wf { m with size := n } = true := by
  simp only [Memory.wf, Bool.and_eq_true, decide_eq_true_eq] at h ⊢
  exact ⟨hn, cellsWf_grow h.2 hm⟩

theorem cellsFrom_wf (bs : List Byte) (a size : Nat) (h : a + bs.length ≤ size) : cellsWf size a (cellsFrom a bs) = true := by
  induction bs generalizing a with
  | nil => rfl
  | cons b rest ih =>
    simp only [List.length_cons] at h
    by_cases hb : b = 0#8
    · simpa [cellsFrom, hb] using cellsWf_mono (ih (a + 1) (by omega)) (by omega)
    · simp only [cellsFrom, hb, if_false, cellsWf, Bool.and_eq_true, decide_eq_true_eq]
      exact ⟨⟨⟨by omega, by omega⟩, by simpa using hb⟩, ih (a + 1) (by omega)⟩

/-- The image of a byte list is in canonical form. -/
theorem Memory.ofBytes_wf (bs : List Byte) (h : bs.length ≤ Config.maxPayloadSize) : (Memory.ofBytes bs).wf = true := by
  simp only [Memory.wf, Memory.ofBytes, Bool.and_eq_true]
  exact ⟨decide_eq_true h, cellsFrom_wf bs 0 bs.length (by omega)⟩

theorem cellsRead_cellsFrom (bs : List Byte) (a x : Nat) :
    cellsRead (cellsFrom a bs) x = if x < a then 0#8 else bs.getD (x - a) 0#8 := by
  induction bs generalizing a with
  | nil => simp [cellsFrom, cellsRead]
  | cons b rest ih =>
    by_cases hb : b = 0#8
    · simp only [cellsFrom, hb, if_true, ih]
      by_cases h1 : x < a
      · have : x < a + 1 := by omega
        simp [h1, this]
      · by_cases h2 : x = a
        · subst h2; simp
        · have h3 : ¬ x < a + 1 := by omega
          have h4 : x - a = (x - (a + 1)) + 1 := by omega
          simp [h1, h3, h4]
    · simp only [cellsFrom, hb, if_false, cellsRead, ih]
      by_cases h2 : a = x
      · subst h2; simp
      · by_cases h1 : x < a
        · have : x < a + 1 := by omega
          simp [h1, h2, this]
        · have h3 : ¬ x < a + 1 := by omega
          have h4 : x - a = (x - (a + 1)) + 1 := by omega
          simp [h1, h2, h3, h4]

/-- The image of a byte list holds exactly its bytes. -/
theorem Memory.ofBytes_read (bs : List Byte) (x : Nat) : (Memory.ofBytes bs).read x = bs[x]? := by
  simp only [Memory.read, Memory.ofBytes, cellsRead_cellsFrom]
  by_cases h : x < bs.length <;> simp [h]

end Sys2Proof.Machine
end

