-- ==== Sys2Proof/Laws/Multiplexer.lean ====
section
/-! SUPPORT. The checks of a multiplexer START (42_multiplexer.md R171 to R173, R175), in terms of the bits of `MSRC` and the channels of the block. -/

namespace Sys2Proof.Machine

theorem mem_sourcesOf (m : BitVec 16) (c : Chan) : c ∈ sourcesOf m ↔ m.getLsbD c.toNat = true := by
  simp only [sourcesOf, List.mem_filter]
  refine ⟨fun h => h.2, fun h => ⟨?_, h⟩⟩
  clear h
  revert c
  decide

theorem sourcesOf_length (m : BitVec 16) : (sourcesOf m).length = (List.range 16).countP (fun b => m.getLsbD b) := by
  unfold sourcesOf
  rw [← List.countP_eq_length_filter, List.countP_map]
  apply List.countP_congr
  intro x hx
  have : x < 16 := by simpa using hx
  simp [Nat.mod_eq_of_lt this]

theorem sourcesOf_ascending (m : BitVec 16) : (sourcesOf m).Pairwise (fun c d => c.toNat < d.toNat) := by
  unfold sourcesOf
  apply List.Pairwise.filter
  decide

theorem someDiffer_iff {α : Type} [DecidableEq α] (l : List α) : someDiffer l = true ↔ ∃ a ∈ l, ∃ b ∈ l, a ≠ b := by
  simp [someDiffer]

theorem mem_validSources {s : State} {x : Channel} {m : BitVec 16} :
    x ∈ s.validSources (sourcesOf m) ↔ ∃ c : Chan, m.getLsbD c.toNat = true ∧ s.channel? c = some x := by
  simp [State.validSources, mem_sourcesOf]

/-- RATE_BAD (R172) over the selected channels. -/
theorem rateBad_iff {s : State} {m : BitVec 16} :
    rateBad (s.validSources (sourcesOf m)) = true ↔ ∃ (c e : Chan) (x y : Channel), m.getLsbD c.toNat = true ∧
      m.getLsbD e.toNat = true ∧ s.channel? c = some x ∧ s.channel? e = some y ∧ x.srate ≠ y.srate := by
  simp only [rateBad, someDiffer_iff, List.mem_map, mem_validSources]
  constructor
  · rintro ⟨_, ⟨x, ⟨c, h1, h2⟩, rfl⟩, _, ⟨y, ⟨e, h3, h4⟩, rfl⟩, h⟩
    exact ⟨c, e, x, y, h1, h3, h2, h4, h⟩
  · rintro ⟨c, e, x, y, h1, h3, h2, h4, h⟩
    exact ⟨_, ⟨x, ⟨c, h1, h2⟩, rfl⟩, _, ⟨y, ⟨e, h3, h4⟩, rfl⟩, h⟩

/-- LEN_BAD (R175) over the selected channels. -/
theorem lenBad_iff {s : State} {m : BitVec 16} :
    lenBad (s.validSources (sourcesOf m)) = true ↔ ∃ (c e : Chan) (x y : Channel), m.getLsbD c.toNat = true ∧
      m.getLsbD e.toNat = true ∧ s.channel? c = some x ∧ s.channel? e = some y ∧
      nsamples x.len.toNat ≠ nsamples y.len.toNat := by
  simp only [lenBad, someDiffer_iff, List.mem_map, mem_validSources]
  constructor
  · rintro ⟨_, ⟨x, ⟨c, h1, h2⟩, rfl⟩, _, ⟨y, ⟨e, h3, h4⟩, rfl⟩, h⟩
    exact ⟨c, e, x, y, h1, h3, h2, h4, h⟩
  · rintro ⟨c, e, x, y, h1, h3, h2, h4, h⟩
    exact ⟨_, ⟨x, ⟨c, h1, h2⟩, rfl⟩, _, ⟨y, ⟨e, h3, h4⟩, rfl⟩, h⟩

/-- CHCOUNT_BAD (R173) over the bits of `MSRC`. -/
theorem chcountBad_iff {n : BitVec 8} {nch : Nat} {m : BitVec 16} :
    chcountBad n nch (sourcesOf m) = true ↔ n = 0 ∨ (∃ c : Chan, m.getLsbD c.toNat = true ∧ nch ≤ c.toNat) ∨
      ((List.range 16).countP (fun b => m.getLsbD b)) ≠ n.toNat := by
  simp only [chcountBad, Bool.or_eq_true, beq_iff_eq, bne_iff_ne, List.any_eq_true, mem_sourcesOf, hasChannel,
    sourcesOf_length]
  simp only [or_assoc]
  simp

theorem Mux.advance_mstate (m : Mux) : m.advance.mstate = m.mstate := by
  unfold Mux.advance
  split <;> rfl

theorem Mux.advance_ocount (m : Mux) : m.advance.ocount = m.ocount + 1 := by
  unfold Mux.advance
  split <;> rfl

end Sys2Proof.Machine
end

