-- ==== Sys2Proof/Laws/PerInstr.lean ====
section
/-! SUPPORT. The per-instruction family EncodeAdmitted: the unit of every well-formed instruction is admitted by the opcode table's row of that instruction (30_encoding.md R92), and a header byte has the bit 7 its row fixes (R82, R83). -/

namespace Sys2Proof.Laws.EncodeAdmitted

/-- The table's row `m` admits the unit, on a block with `nch` channels. -/
def admitted (nch : Nat) (m : String) : CodeUnit → Prop
  | .header c b =>
    hasChannel nch c = true ∧ ((m = "HDR" ∧ b.getLsbD 7 = false) ∨ (m = "HDR_BADPRED" ∧ b.getLsbD 7 = true))
  | .data c _ => hasChannel nch c = true ∧ m = "DATA_HI"
  | .latched c => hasChannel nch c = true ∧ m = "DATA_LO"
  | .ended c => hasChannel nch c = true ∧ m = "END"
  | .access key => ∃ r ∈ tableRows, r.mnemonic = m ∧ r.applies nch key = true

/-- The unit of a well-formed instruction is admitted by its row. -/
def Statement (i : Instr) : Prop := ∀ nch : Nat, i.wellFormed nch = true → admitted nch i.mnemonic (encode i)

/-- A key meets a mask when its `dir` and `addr` meet the mask's upper 14 bits and its `data` the lower 32. -/
theorem accessKey_and {wr : Bool} {a : BitVec 13} {d : Word} {mask pattern : BitVec 46} (mh ph : BitVec 14) (ml pl : Word)
    (hm : mask = mh ++ ml) (hp : pattern = ph ++ pl) (hh : (BitVec.ofBool wr ++ a) &&& mh = ph) (hl : d &&& ml = pl) :
    accessKey wr a d &&& mask = pattern := by
  subst hm hp hh hl
  exact BitVec.and_append

/-- A row of the global window or a reserved row. -/
theorem of_global {nch : Nat} {wr : Bool} {a : BitVec 13} {d : Word} {m : String} (n : Nat) (r : TableRow)
    (hr : tableRows[n]? = some r) (hm : r.mnemonic = m) (hg : r.pattern.getLsbD 44 = false)
    (hk : accessKey wr a d &&& r.mask = r.pattern) : admitted nch m (.access (accessKey wr a d)) :=
  ⟨r, List.mem_of_getElem? hr, hm, by
    simp only [TableRow.applies, TableRow.admits, hk, hg, beq_self_eq_true, Bool.not_false, Bool.true_or, Bool.and_self]⟩

/-- A row of a channel window. -/
theorem of_channel {nch : Nat} {wr : Bool} {c : Chan} {off : BitVec 8} {d : Word} {m : String} (n : Nat) (r : TableRow)
    (hr : tableRows[n]? = some r) (hm : r.mnemonic = m) (hc : hasChannel nch c = true)
    (hk : accessKey wr (channelAddr c off) d &&& r.mask = r.pattern) :
    admitted nch m (.access (accessKey wr (channelAddr c off) d)) :=
  ⟨r, List.mem_of_getElem? hr, hm, by simp [TableRow.applies, TableRow.admits, hk, hc]⟩

/-- A word below 4 has no bit above bit 1. -/
theorem low_bits (i : Nat) (_hi : i < 32) (h2 : 2 ≤ i) (w : Word) (hw : w.toNat < 4) : w.getLsbD i = false := by
  rw [BitVec.getLsbD, Nat.testBit_lt_two_pow]
  calc w.toNat < 2 ^ 2 := hw
    _ ≤ 2 ^ i := Nat.pow_le_pow_right (by decide) h2

theorem and_start {d : Word} (h : isStartWord d = true) : d &&& 3 = 1 := by
  simp only [isStartWord, Bool.and_eq_true, Bool.not_eq_true'] at h
  apply BitVec.eq_of_getLsbD_eq
  intro i hi
  by_cases h0 : i = 0
  · subst h0; simp_all
  · by_cases h1 : i = 1
    · subst h1; simp_all
    · have e1 : (3 : Word).getLsbD i = false := low_bits i hi (by omega) 3 (by decide)
      have e2 : (1 : Word).getLsbD i = false := low_bits i hi (by omega) 1 (by decide)
      simp only [BitVec.getLsbD_and, e1, e2, Bool.and_false]

theorem and_abort {d : Word} (h : isAbortWord d = true) : d &&& 2 = 2 := by
  simp only [isAbortWord] at h
  apply BitVec.eq_of_getLsbD_eq
  intro i hi
  by_cases h0 : i = 0
  · subst h0; simp
  · by_cases h1 : i = 1
    · subst h1; simp_all
    · have e1 : (2 : Word).getLsbD i = false := low_bits i hi (by omega) 2 (by decide)
      simp only [BitVec.getLsbD_and, e1, Bool.and_false]

theorem and_nop {d : Word} (h : isNopWord d = true) : d &&& 3 = 0 := by
  simp only [isNopWord, Bool.and_eq_true, Bool.not_eq_true'] at h
  apply BitVec.eq_of_getLsbD_eq
  intro i hi
  by_cases h0 : i = 0
  · subst h0; simp_all
  · by_cases h1 : i = 1
    · subst h1; simp_all
    · have e1 : (3 : Word).getLsbD i = false := low_bits i hi (by omega) 3 (by decide)
      simp only [BitVec.getLsbD_and, e1, Bool.and_false]
      exact (low_bits i hi (by omega) 0 (by decide)).symm

theorem hdr (c : Chan) (k : BitVec 3) (sh : BitVec 4) : Statement (.hdr c k sh) := by
  intro nch h
  have e : ∀ (k : BitVec 3) (sh : BitVec 4), (0#1 ++ k ++ sh).getLsbD 7 = false := by decide
  exact ⟨h, .inl ⟨rfl, e k sh⟩⟩

theorem hdrBadpred (c : Chan) (k : BitVec 3) (sh : BitVec 4) : Statement (.hdrBadpred c k sh) := by
  intro nch h
  have e : ∀ (k : BitVec 3) (sh : BitVec 4), (1#1 ++ k ++ sh).getLsbD 7 = true := by decide
  exact ⟨h, .inr ⟨rfl, e k sh⟩⟩

theorem dataHi (c : Chan) (hi lo : BitVec 4) : Statement (.dataHi c hi lo) := by
  intro nch h
  exact ⟨h, rfl⟩

theorem dataLo (c : Chan) : Statement (.dataLo c) := by
  intro nch h
  exact ⟨h, rfl⟩

theorem endRun (c : Chan) : Statement (.endRun c) := by
  intro nch h
  exact ⟨h, rfl⟩

theorem idR : Statement .idR := by
  intro nch h
  exact of_global 0 _ rfl rfl rfl (accessKey_and 0x3fff 0x0 0x0 0x0 (by decide) (by decide) (by decide) BitVec.and_zero)

theorem idW (data : Word) : Statement (.idW data) := by
  intro nch h
  exact of_global 1 _ rfl rfl rfl
    (accessKey_and 0x3fff 0x2000 0x0 0x0 (by decide) (by decide) (by decide) BitVec.and_zero)

theorem muxCtrlStart (data : Word) : Statement (.muxCtrlStart data) := by
  intro nch h
  exact of_global 2 _ rfl rfl rfl
    (accessKey_and 0x3fff 0x2010 0x3 0x1 (by decide) (by decide) (by decide) (and_start h))

theorem muxCtrlAbort (data : Word) : Statement (.muxCtrlAbort data) := by
  intro nch h
  exact of_global 3 _ rfl rfl rfl
    (accessKey_and 0x3fff 0x2010 0x2 0x2 (by decide) (by decide) (by decide) (and_abort h))

theorem muxCtrlNop (data : Word) : Statement (.muxCtrlNop data) := by
  intro nch h
  exact of_global 4 _ rfl rfl rfl (accessKey_and 0x3fff 0x2010 0x3 0x0 (by decide) (by decide) (by decide) (and_nop h))

theorem muxCtrlR : Statement .muxCtrlR := by
  intro nch h
  exact of_global 5 _ rfl rfl rfl
    (accessKey_and 0x3fff 0x10 0x0 0x0 (by decide) (by decide) (by decide) BitVec.and_zero)

theorem muxCfgW (data : Word) : Statement (.muxCfgW data) := by
  intro nch h
  exact of_global 6 _ rfl rfl rfl
    (accessKey_and 0x3fff 0x2014 0x0 0x0 (by decide) (by decide) (by decide) BitVec.and_zero)

theorem muxCfgR : Statement .muxCfgR := by
  intro nch h
  exact of_global 7 _ rfl rfl rfl
    (accessKey_and 0x3fff 0x14 0x0 0x0 (by decide) (by decide) (by decide) BitVec.and_zero)

theorem muxStatusR : Statement .muxStatusR := by
  intro nch h
  exact of_global 8 _ rfl rfl rfl
    (accessKey_and 0x3fff 0x18 0x0 0x0 (by decide) (by decide) (by decide) BitVec.and_zero)

theorem muxOcountR : Statement .muxOcountR := by
  intro nch h
  exact of_global 9 _ rfl rfl rfl
    (accessKey_and 0x3fff 0x1c 0x0 0x0 (by decide) (by decide) (by decide) BitVec.and_zero)

theorem globalRoW (ocount : Bool) (data : Word) : Statement (.globalRoW ocount data) := by
  intro nch h
  have e : ∀ o : Bool, (BitVec.ofBool true ++ globalAddr (if o then 0x1C else 0x18)) &&&
      0x3ffb = (0x2018 : BitVec 14) := by decide
  exact of_global 10 _ rfl rfl rfl
    (accessKey_and 0x3ffb 0x2018 0x0 0x0 (by decide) (by decide) (e ocount) BitVec.and_zero)

theorem chCtrlStart (c : Chan) (data : Word) : Statement (.chCtrlStart c data) := by
  intro nch h
  simp only [Instr.wellFormed, Bool.and_eq_true] at h
  have e : ∀ c : Chan, (BitVec.ofBool true ++ channelAddr c 0x0) &&& 0x30ff = (0x3000 : BitVec 14) := by decide
  exact of_channel 11 _ rfl rfl h.1 (accessKey_and 0x30ff 0x3000 0x3 0x1 (by decide) (by decide) (e c) (and_start h.2))

theorem chCtrlAbort (c : Chan) (data : Word) : Statement (.chCtrlAbort c data) := by
  intro nch h
  simp only [Instr.wellFormed, Bool.and_eq_true] at h
  have e : ∀ c : Chan, (BitVec.ofBool true ++ channelAddr c 0x0) &&& 0x30ff = (0x3000 : BitVec 14) := by decide
  exact of_channel 12 _ rfl rfl h.1 (accessKey_and 0x30ff 0x3000 0x2 0x2 (by decide) (by decide) (e c) (and_abort h.2))

theorem chCtrlNop (c : Chan) (data : Word) : Statement (.chCtrlNop c data) := by
  intro nch h
  simp only [Instr.wellFormed, Bool.and_eq_true] at h
  have e : ∀ c : Chan, (BitVec.ofBool true ++ channelAddr c 0x0) &&& 0x30ff = (0x3000 : BitVec 14) := by decide
  exact of_channel 13 _ rfl rfl h.1 (accessKey_and 0x30ff 0x3000 0x3 0x0 (by decide) (by decide) (e c) (and_nop h.2))

theorem chCtrlR (c : Chan) : Statement (.chCtrlR c) := by
  intro nch h
  have e : ∀ c : Chan, (BitVec.ofBool false ++ channelAddr c 0x0) &&& 0x30ff = (0x1000 : BitVec 14) := by decide
  exact of_channel 14 _ rfl rfl h (accessKey_and 0x30ff 0x1000 0x0 0x0 (by decide) (by decide) (e c) BitVec.and_zero)

theorem chStatusR (c : Chan) : Statement (.chStatusR c) := by
  intro nch h
  have e : ∀ c : Chan, (BitVec.ofBool false ++ channelAddr c 0x4) &&& 0x30ff = (0x1004 : BitVec 14) := by decide
  exact of_channel 15 _ rfl rfl h (accessKey_and 0x30ff 0x1004 0x0 0x0 (by decide) (by decide) (e c) BitVec.and_zero)

theorem chStatusW (c : Chan) (data : Word) : Statement (.chStatusW c data) := by
  intro nch h
  have e : ∀ c : Chan, (BitVec.ofBool true ++ channelAddr c 0x4) &&& 0x30ff = (0x3004 : BitVec 14) := by decide
  exact of_channel 16 _ rfl rfl h (accessKey_and 0x30ff 0x3004 0x0 0x0 (by decide) (by decide) (e c) BitVec.and_zero)

theorem chBaseW (c : Chan) (data : Word) : Statement (.chBaseW c data) := by
  intro nch h
  have e : ∀ c : Chan, (BitVec.ofBool true ++ channelAddr c 0x8) &&& 0x30ff = (0x3008 : BitVec 14) := by decide
  exact of_channel 17 _ rfl rfl h (accessKey_and 0x30ff 0x3008 0x0 0x0 (by decide) (by decide) (e c) BitVec.and_zero)

theorem chBaseR (c : Chan) : Statement (.chBaseR c) := by
  intro nch h
  have e : ∀ c : Chan, (BitVec.ofBool false ++ channelAddr c 0x8) &&& 0x30ff = (0x1008 : BitVec 14) := by decide
  exact of_channel 18 _ rfl rfl h (accessKey_and 0x30ff 0x1008 0x0 0x0 (by decide) (by decide) (e c) BitVec.and_zero)

theorem chLenW (c : Chan) (data : Word) : Statement (.chLenW c data) := by
  intro nch h
  have e : ∀ c : Chan, (BitVec.ofBool true ++ channelAddr c 0xc) &&& 0x30ff = (0x300c : BitVec 14) := by decide
  exact of_channel 19 _ rfl rfl h (accessKey_and 0x30ff 0x300c 0x0 0x0 (by decide) (by decide) (e c) BitVec.and_zero)

theorem chLenR (c : Chan) : Statement (.chLenR c) := by
  intro nch h
  have e : ∀ c : Chan, (BitVec.ofBool false ++ channelAddr c 0xc) &&& 0x30ff = (0x100c : BitVec 14) := by decide
  exact of_channel 20 _ rfl rfl h (accessKey_and 0x30ff 0x100c 0x0 0x0 (by decide) (by decide) (e c) BitVec.and_zero)

theorem chSrateW (c : Chan) (data : Word) : Statement (.chSrateW c data) := by
  intro nch h
  have e : ∀ c : Chan, (BitVec.ofBool true ++ channelAddr c 0x10) &&& 0x30ff = (0x3010 : BitVec 14) := by decide
  exact of_channel 21 _ rfl rfl h (accessKey_and 0x30ff 0x3010 0x0 0x0 (by decide) (by decide) (e c) BitVec.and_zero)

theorem chSrateR (c : Chan) : Statement (.chSrateR c) := by
  intro nch h
  have e : ∀ c : Chan, (BitVec.ofBool false ++ channelAddr c 0x10) &&& 0x30ff = (0x1010 : BitVec 14) := by decide
  exact of_channel 22 _ rfl rfl h (accessKey_and 0x30ff 0x1010 0x0 0x0 (by decide) (by decide) (e c) BitVec.and_zero)

theorem chHist1W (c : Chan) (data : Word) : Statement (.chHist1W c data) := by
  intro nch h
  have e : ∀ c : Chan, (BitVec.ofBool true ++ channelAddr c 0x14) &&& 0x30ff = (0x3014 : BitVec 14) := by decide
  exact of_channel 23 _ rfl rfl h (accessKey_and 0x30ff 0x3014 0x0 0x0 (by decide) (by decide) (e c) BitVec.and_zero)

theorem chHist1R (c : Chan) : Statement (.chHist1R c) := by
  intro nch h
  have e : ∀ c : Chan, (BitVec.ofBool false ++ channelAddr c 0x14) &&& 0x30ff = (0x1014 : BitVec 14) := by decide
  exact of_channel 24 _ rfl rfl h (accessKey_and 0x30ff 0x1014 0x0 0x0 (by decide) (by decide) (e c) BitVec.and_zero)

theorem chHist2W (c : Chan) (data : Word) : Statement (.chHist2W c data) := by
  intro nch h
  have e : ∀ c : Chan, (BitVec.ofBool true ++ channelAddr c 0x18) &&& 0x30ff = (0x3018 : BitVec 14) := by decide
  exact of_channel 25 _ rfl rfl h (accessKey_and 0x30ff 0x3018 0x0 0x0 (by decide) (by decide) (e c) BitVec.and_zero)

theorem chHist2R (c : Chan) : Statement (.chHist2R c) := by
  intro nch h
  have e : ∀ c : Chan, (BitVec.ofBool false ++ channelAddr c 0x18) &&& 0x30ff = (0x1018 : BitVec 14) := by decide
  exact of_channel 26 _ rfl rfl h (accessKey_and 0x30ff 0x1018 0x0 0x0 (by decide) (by decide) (e c) BitVec.and_zero)

theorem chPosR (c : Chan) : Statement (.chPosR c) := by
  intro nch h
  have e : ∀ c : Chan, (BitVec.ofBool false ++ channelAddr c 0x1c) &&& 0x30ff = (0x101c : BitVec 14) := by decide
  exact of_channel 29 _ rfl rfl h (accessKey_and 0x30ff 0x101c 0x0 0x0 (by decide) (by decide) (e c) BitVec.and_zero)

theorem chPosW (c : Chan) (data : Word) : Statement (.chPosW c data) := by
  intro nch h
  have e : ∀ c : Chan, (BitVec.ofBool true ++ channelAddr c 0x1c) &&& 0x30ff = (0x301c : BitVec 14) := by decide
  exact of_channel 30 _ rfl rfl h (accessKey_and 0x30ff 0x301c 0x0 0x0 (by decide) (by decide) (e c) BitVec.and_zero)

theorem chScountR (c : Chan) : Statement (.chScountR c) := by
  intro nch h
  have e : ∀ c : Chan, (BitVec.ofBool false ++ channelAddr c 0x20) &&& 0x30ff = (0x1020 : BitVec 14) := by decide
  exact of_channel 31 _ rfl rfl h (accessKey_and 0x30ff 0x1020 0x0 0x0 (by decide) (by decide) (e c) BitVec.and_zero)

theorem chScountW (c : Chan) (data : Word) : Statement (.chScountW c data) := by
  intro nch h
  have e : ∀ c : Chan, (BitVec.ofBool true ++ channelAddr c 0x20) &&& 0x30ff = (0x3020 : BitVec 14) := by decide
  exact of_channel 32 _ rfl rfl h (accessKey_and 0x30ff 0x3020 0x0 0x0 (by decide) (by decide) (e c) BitVec.and_zero)

theorem chPsR (c : Chan) : Statement (.chPsR c) := by
  intro nch h
  have e : ∀ c : Chan, (BitVec.ofBool false ++ channelAddr c 0x24) &&& 0x30ff = (0x1024 : BitVec 14) := by decide
  exact of_channel 33 _ rfl rfl h (accessKey_and 0x30ff 0x1024 0x0 0x0 (by decide) (by decide) (e c) BitVec.and_zero)

theorem chPsW (c : Chan) (data : Word) : Statement (.chPsW c data) := by
  intro nch h
  have e : ∀ c : Chan, (BitVec.ofBool true ++ channelAddr c 0x24) &&& 0x30ff = (0x3024 : BitVec 14) := by decide
  exact of_channel 34 _ rfl rfl h (accessKey_and 0x30ff 0x3024 0x0 0x0 (by decide) (by decide) (e c) BitVec.and_zero)

theorem chOutR (c : Chan) : Statement (.chOutR c) := by
  intro nch h
  have e : ∀ c : Chan, (BitVec.ofBool false ++ channelAddr c 0x28) &&& 0x30ff = (0x1028 : BitVec 14) := by decide
  exact of_channel 35 _ rfl rfl h (accessKey_and 0x30ff 0x1028 0x0 0x0 (by decide) (by decide) (e c) BitVec.and_zero)

theorem chOutW (c : Chan) (data : Word) : Statement (.chOutW c data) := by
  intro nch h
  have e : ∀ c : Chan, (BitVec.ofBool true ++ channelAddr c 0x28) &&& 0x30ff = (0x3028 : BitVec 14) := by decide
  exact of_channel 36 _ rfl rfl h (accessKey_and 0x30ff 0x3028 0x0 0x0 (by decide) (by decide) (e c) BitVec.and_zero)

theorem chCoefW (c : Chan) (i : BitVec 4) (data : Word) : Statement (.chCoefW c i data) := by
  intro nch h
  have e : ∀ (c : Chan) (i : BitVec 4), (BitVec.ofBool true ++ channelAddr c (coefOffset i)) &&&
      0x30c3 = (0x3040 : BitVec 14) := by decide
  exact of_channel 27 _ rfl rfl h (accessKey_and 0x30c3 0x3040 0x0 0x0 (by decide) (by decide) (e c i) BitVec.and_zero)

theorem chCoefR (c : Chan) (i : BitVec 4) : Statement (.chCoefR c i) := by
  intro nch h
  have e : ∀ (c : Chan) (i : BitVec 4), (BitVec.ofBool false ++ channelAddr c (coefOffset i)) &&&
      0x30c3 = (0x1040 : BitVec 14) := by decide
  exact of_channel 28 _ rfl rfl h (accessKey_and 0x30c3 0x1040 0x0 0x0 (by decide) (by decide) (e c i) BitVec.and_zero)

theorem rsvdR (addr : BitVec 13) : Statement (.rsvdR addr) := by
  intro nch h
  have e : (BitVec.ofBool false ++ addr) &&& (1#1 ++ 0#13) = BitVec.ofBool false ++ 0#13 :=
    BitVec.and_append.trans (by rw [BitVec.and_zero]; rfl)
  exact of_global 37 _ rfl rfl rfl (accessKey_and 0x2000 0x0 0x0 0x0 (by decide) (by decide) e BitVec.and_zero)

theorem rsvdW (addr : BitVec 13) (data : Word) : Statement (.rsvdW addr data) := by
  intro nch h
  have e : (BitVec.ofBool true ++ addr) &&& (1#1 ++ 0#13) = BitVec.ofBool true ++ 0#13 :=
    BitVec.and_append.trans (by rw [BitVec.and_zero]; rfl)
  exact of_global 38 _ rfl rfl rfl (accessKey_and 0x2000 0x2000 0x0 0x0 (by decide) (by decide) e BitVec.and_zero)

end Sys2Proof.Laws.EncodeAdmitted
end

