-- ==== Sys2Proof/Laws/Steps.lean ====
section
/-! SUPPORT. Inversion of the step by what moves, and what one step makes of one engine's channel: the lemmas the whole-machine statements cite instead of unfolding the step. -/

namespace Sys2Proof.Machine

theorem runSteps_zero (s : State) : runSteps 0 s = .next s := rfl

/-- The first of several steps, then the rest. -/
theorem runSteps_succ (k : Nat) (s : State) :
    runSteps (k + 1) s = match step s with
      | .next t => runSteps k t
      | .fault f => .fault f
      | .refused r => .refused r := by
  simp only [runSteps, Host.Core.run, core]
  cases step s <;> rfl

theorem runSteps_of_next {k : Nat} {s t : State} (h : step s = .next t) : runSteps (k + 1) s = runSteps k t := by
  rw [runSteps_succ, h]

theorem runSteps_add {a b : Nat} {s u : State} (h : runSteps a s = .next u) : runSteps (a + b) s = runSteps b u := by
  induction a generalizing s with
  | zero =>
    cases next_eq h
    rw [Nat.zero_add]
  | succ a ih =>
    rw [Nat.add_right_comm, runSteps_succ]
    rw [runSteps_succ] at h
    cases hs : step s with
    | next w =>
      simp only [hs] at h
      exact ih h
    | fault f => simp [hs] at h
    | refused r => simp [hs] at h

/-- An engine the block does not have. -/
theorem step_engine_none {s : State} {c : Chan} {rest : List Event} (hp : s.pending = .engine c :: rest)
    (hc : s.channel? c = none) : step s = .refused .noSuchEngine := by
  simp [step, State.fetch, hp, State.fetchEngine, hc]

theorem State.channel?_congr {s t : State} (h : t.channels = s.channels) (c : Chan) : t.channel? c = s.channel? c := by
  simp [State.channel?, h]

/-! ## One engine's channel through a host access -/

/-- What a host access can make of the channel `c` it changes. -/
inductive HostChange (i : Option Instr) (c : Chan) (x : Channel) : Channel → Prop
  | start (d : Word) (hi : i = some (.chCtrlStart c d)) (hs : x.state = .idle ∨ x.state = .done) :
    HostChange i c x x.start
  | abort (d : Word) (hi : i = some (.chCtrlAbort c d)) : HostChange i c x x.abort
  | warn (hr : x.state = .run) : HostChange i c x { x with fCfgw := true }
  | pop (v : Sample) (q : List Sample) (hq : x.outq = v :: q) : HostChange i c x { x with outq := q }
  | config (hr : x.state ≠ .run) (coef : Vector Sample 16) (h1 h2 : Sample) (b l r : Word)
    (g1 : (∀ d, i ≠ some (.chHist1W c d)) → h1 = x.hist1) (g2 : (∀ d, i ≠ some (.chHist2W c d)) → h2 = x.hist2) :
    HostChange i c x { x with coef := coef, hist1 := h1, hist2 := h2, base := b, len := l, srate := r }

/-- A configuration write, as a change of its channel. -/
theorem configWrite_channels {s t : State} {c : Chan} {i : Instr} {f : Channel → Channel}
    (h : configWrite c f s = .next t) (hf : ∀ x, x.state ≠ .run → HostChange (some i) c x (f x)) :
    t.pending = s.pending ∧ t.muxOut = s.muxOut ∧
      (t.channels = s.channels ∨ ∃ c x x', s.channel? c = some x ∧ HostChange (some i) c x x' ∧
        t.channels = (s.setChannel c x').channels) := by
  rcases updateChannel_next h with rfl | ⟨x, hc, rfl⟩
  · exact ⟨rfl, rfl, .inl rfl⟩
  · refine ⟨rfl, rfl, .inr ⟨c, x, _, hc, ?_, rfl⟩⟩
    split
    · exact .warn ‹_›
    · exact hf x ‹_›

/-- Everything a host access does to the engines: nothing, or a change of one. -/
theorem exec_access_channels {s t : State} {i : Instr} (h : exec i s = .next t) (ha : i.isAccess = true) :
    t.pending = s.pending ∧ t.muxOut = s.muxOut ∧
      (t.channels = s.channels ∨ ∃ c x x', s.channel? c = some x ∧ HostChange (some i) c x x' ∧
        t.channels = (s.setChannel c x').channels) := by
  have same : t = s → t.pending = s.pending ∧ t.muxOut = s.muxOut ∧
      (t.channels = s.channels ∨ ∃ c x x', s.channel? c = some x ∧ HostChange (some i) c x x' ∧
        t.channels = (s.setChannel c x').channels) := by
    rintro rfl
    exact ⟨rfl, rfl, .inl rfl⟩
  cases i with
  | hdr | hdrBadpred | dataHi | dataLo | endRun => cases ha
  | idW | muxCtrlNop | globalRoW | chCtrlNop | chStatusW | chPosW | chScountW | chPsW | chOutW | rsvdW =>
    exact same (next_eq h)
  | idR | muxCtrlR | muxCfgR | muxStatusR | muxOcountR | rsvdR | muxCtrlAbort =>
    have := next_eq h
    subst this
    exact ⟨rfl, rfl, .inl rfl⟩
  | muxCtrlStart d =>
    simp only [exec, execMuxCtrlStart] at h
    split at h <;>
      (have := next_eq h
       subst this
       exact ⟨rfl, rfl, .inl rfl⟩)
  | muxCfgW d =>
    simp only [exec, execMuxCfgW] at h
    split at h <;>
      (have := next_eq h
       subst this
       exact ⟨rfl, rfl, .inl rfl⟩)
  | chCtrlStart c d =>
    rcases updateChannel_next h with h | ⟨x, hc, rfl⟩
    · exact same h
    · refine ⟨rfl, rfl, ?_⟩
      split
      · exact .inr ⟨c, x, _, hc, .start d rfl ‹_›, rfl⟩
      · rw [State.setChannel_of_same hc]
        exact .inl rfl
  | chCtrlAbort c d =>
    rcases updateChannel_next h with h | ⟨x, hc, rfl⟩
    · exact same h
    · exact ⟨rfl, rfl, .inr ⟨c, x, _, hc, .abort d rfl, rfl⟩⟩
  | chHist1W c d =>
    exact configWrite_channels h
      (fun x hr => .config hr x.coef _ x.hist2 x.base x.len x.srate (fun hh => absurd rfl (hh d)) (fun _ => rfl))
  | chHist2W c d =>
    exact configWrite_channels h
      (fun x hr => .config hr x.coef x.hist1 _ x.base x.len x.srate (fun _ => rfl) (fun hh => absurd rfl (hh d)))
  | chBaseW | chLenW | chSrateW | chCoefW =>
    exact configWrite_channels h (fun x hr => .config hr _ _ _ _ _ _ (fun _ => rfl) (fun _ => rfl))
  | chCtrlR | chStatusR | chBaseR | chLenR | chSrateR | chHist1R | chHist2R | chPosR | chScountR | chPsR | chCoefR =>
    obtain ⟨w, rfl⟩ := readChannel_next h
    exact ⟨rfl, rfl, .inl rfl⟩
  | chOutR c =>
    rcases execChOutR_next h with ⟨w, rfl⟩ | ⟨x, v, q, hc, hq, -, rfl⟩
    · exact ⟨rfl, rfl, .inl rfl⟩
    · exact ⟨rfl, rfl, .inr ⟨c, x, _, hc, .pop v q hq, rfl⟩⟩

/-! ## Host reads -/

/-- The host reads. -/
def Instr.isRead : Instr → Bool
  | .idR => true
  | .muxCtrlR => true
  | .muxCfgR => true
  | .muxStatusR => true
  | .muxOcountR => true
  | .chCtrlR _ => true
  | .chStatusR _ => true
  | .chBaseR _ => true
  | .chLenR _ => true
  | .chSrateR _ => true
  | .chHist1R _ => true
  | .chHist2R _ => true
  | .chPosR _ => true
  | .chScountR _ => true
  | .chPsR _ => true
  | .chOutR _ => true
  | .chCoefR _ _ => true
  | .rsvdR _ => true
  | _ => false

/-- A read key decodes to a host read. -/
theorem decodeAccess_isRead {nch : Nat} {a : BitVec 13} {d : Word} {i : Instr}
    (h : decodeAccess nch (accessKey false a d) = .instr i) : Instr.isRead i = true := by
  have hg : ∀ off, Instr.isRead (decodeGlobal false a off d) = true := by
    intro off
    simp only [decodeGlobal, decodeReserved, apply_ite Instr.isRead]
    simp [Instr.isRead]
  have hc : ∀ c off, Instr.isRead (decodeChannel false a c off d) = true := by
    intro c off
    simp only [decodeChannel, decodeReserved, apply_ite Instr.isRead]
    simp [Instr.isRead]
  simp only [decodeAccess, keyWrite_accessKey, keyAddr_accessKey, keyData_accessKey] at h
  repeat' split at h
  all_goals cases h
  all_goals
    first
    | exact hg _
    | exact hc _ _
    | rfl

/-- Everything a host read does to the engines: nothing, or one sample popped. -/
theorem exec_read_channels {s t : State} {i : Instr} (h : exec i s = .next t) (hr : Instr.isRead i = true) :
    t.fifoDepth = s.fifoDepth ∧ (t.channels = s.channels ∨ ∃ c x v q, s.channel? c = some x ∧ x.outq = v :: q ∧
      t.channels = (s.setChannel c { x with outq := q }).channels) := by
  cases i with
  | idR | muxCtrlR | muxCfgR | muxStatusR | muxOcountR | rsvdR =>
    have := next_eq h
    subst this
    exact ⟨rfl, .inl rfl⟩
  | chCtrlR | chStatusR | chBaseR | chLenR | chSrateR | chHist1R | chHist2R | chPosR | chScountR | chPsR | chCoefR =>
    obtain ⟨w, rfl⟩ := readChannel_next h
    exact ⟨rfl, .inl rfl⟩
  | chOutR c =>
    rcases execChOutR_next h with ⟨w, rfl⟩ | ⟨x, v, q, hc, hq, -, rfl⟩
    · exact ⟨rfl, .inl rfl⟩
    · exact ⟨rfl, .inr ⟨c, x, v, q, hc, hq, rfl⟩⟩
  | _ => cases hr

/-! ## The step, by what moves -/

/-- A host's step that goes on is exec of a host access, of a host read when the access is one. -/
theorem step_host {s t : State} {a : Access} {rest : List Event} (hp : s.pending = .host a :: rest)
    (h : step s = .next t) :
    ∃ i, i.isAccess = true ∧ (a.write = false → Instr.isRead i = true) ∧ s.nextInstr = some i ∧
      exec i { s with pending := rest } = .next t := by
  have hr := State.retire_of_pending hp
  by_cases hw : a.width = 4
  · by_cases hl : 0x2000 ≤ a.addr
    · simp [step, State.fetch, hp, fetchAccess, hw, hl] at h
    · rcases decodeAccess_total s.nchMax (accessKey a.write (BitVec.ofNat 13 a.addr) a.data) with ⟨_, h3⟩ | ⟨_, i, h3, h4⟩
      · simp [step, State.fetch, hp, fetchAccess, hw, hl, decode, h3] at h
      · refine ⟨i, h4, fun hr => ?_, ?_, ?_⟩
        · rw [hr] at h3
          exact decodeAccess_isRead h3
        · simp [State.nextInstr, State.fetch, hp, fetchAccess, hw, hl, decode, h3, Decoded.toOption]
        · simpa [step, State.fetch, hp, fetchAccess, hw, hl, decode, h3, hr] using h
  · simp [step, State.fetch, hp, fetchAccess, hw] at h

/-- The ways a step goes on, by the agent that moves. -/
theorem step_cases {s t : State} (h : step s = .next t) :
    (s.pending = [] ∧ t = s) ∨
    (∃ c x x' rest, s.pending = .engine c :: rest ∧ s.channel? c = some x ∧ x.turn s.fifoDepth = some x' ∧
      t = State.setChannel { s with pending := rest } c x') ∨
    (∃ rest, s.pending = .mux :: rest ∧ muxStep { s with pending := rest } = .next t) ∨
    (∃ rest, s.pending = .reset :: rest ∧ t = State.applyReset { s with pending := rest }) ∨
    (∃ c image x rest, s.pending = .load c image :: rest ∧ s.channel? c = some x ∧ x.state ≠ .run ∧
      image.wf = true ∧ t = State.setChannel { s with pending := rest } c { x with pm := image }) ∨
    (∃ a rest i, s.pending = .host a :: rest ∧ i.isAccess = true ∧ s.nextInstr = some i ∧
      exec i { s with pending := rest } = .next t) := by
  cases hp : s.pending with
  | nil =>
    simp only [step, State.fetch, hp] at h
    exact .inl ⟨rfl, next_eq h⟩
  | cons e rest =>
    have hr := State.retire_of_pending hp
    cases e with
    | engine c =>
      cases hc : s.channel? c with
      | none =>
        rw [step_engine_none hp hc] at h
        cases h
      | some x =>
        rw [step_engine hp hc] at h
        split at h
        · exact .inr (.inl ⟨c, x, _, rest, rfl, hc, ‹_›, next_eq h⟩)
        · cases h
    | mux =>
      simp only [step, State.fetch, hp, hr] at h
      exact .inr (.inr (.inl ⟨rest, rfl, h⟩))
    | reset =>
      simp only [step, State.fetch, hp, hr] at h
      exact .inr (.inr (.inr (.inl ⟨rest, rfl, next_eq h⟩)))
    | load c image =>
      simp only [step, State.fetch, hp, hr] at h
      obtain ⟨x, hc, h1, h2, rfl⟩ := loadPayload_next h
      exact .inr (.inr (.inr (.inr (.inl ⟨c, image, x, rest, rfl, hc, h1, h2, rfl⟩))))
    | host a =>
      obtain ⟨i, h1, -, h2, h3⟩ := step_host hp h
      exact .inr (.inr (.inr (.inr (.inr ⟨a, rest, i, rfl, h1, h2, h3⟩))))

/-! ## One engine's channel through a step -/

/-- What an engine's own turn keeps: its configuration and its warning flag, and all of it outside RUN; it clears no fault flag and no cause. -/
theorem Channel.turn_keeps {depth : QueueDepth} {x x' : Channel} (h : x.turn depth = some x') :
    SameConfiguration x x' ∧ x'.fCfgw = x.fCfgw ∧ (x.fPred = true → x'.fPred = true) ∧
      (x.fRange = true → x'.fRange = true) ∧ (x.cause ≠ .none → x'.cause ≠ .none) ∧ (x.state ≠ .run → x' = x) := by
  have smp : ∀ {y y' : Channel} {n : BitVec 4}, y.sample n = some y' →
      SameConfiguration y y' ∧ y'.fCfgw = y.fCfgw ∧ y'.fPred = y.fPred ∧ y'.fRange = y.fRange ∧ y'.cause = y.cause := by
    intro y y' n h
    unfold Channel.sample at h
    split at h
    · cases h
      simp [SameConfiguration]
    · cases h
  by_cases hr : x.state = .run
  · unfold Channel.turn at h
    split at h
    · cases h
      simp [SameConfiguration]
    · split at h
      · cases h
        simp [SameConfiguration]
      · have := smp h
        simp_all [SameConfiguration]
    · cases h
      simp [SameConfiguration, hr]
    · split at h
      · cases h
        simp [SameConfiguration, hr]
      · split at h <;>
          (cases h
           simp [SameConfiguration, hr])
    · split at h
      · cases h
        simp [SameConfiguration]
      · split at h
        · cases h
          simp [SameConfiguration, hr]
        · have := smp h
          simp_all [SameConfiguration]
  · simp only [Channel.turn, Channel.selects_none.2 hr, Option.some.injEq] at h
    subst h
    simp [SameConfiguration]

/-- What one step can make of channel `d`. -/
inductive StepChange (s : State) (d : Chan) (x : Channel) : Channel → Prop
  | same : StepChange s d x x
  | turn (x' : Channel) (hp : s.pending.head? = some (.engine d)) (ht : x.turn s.fifoDepth = some x') : StepChange s d x x'
  | drained (v : Sample) (q : List Sample) (hp : s.pending.head? = some .mux) (hq : x.outq = v :: q) :
    StepChange s d x { x with outq := q }
  | reset (hp : s.pending.head? = some .reset) : StepChange s d x (Channel.afterReset x.pm)
  | load (image : Memory) (hp : s.pending.head? = some (.load d image)) (hr : x.state ≠ .run) :
    StepChange s d x { x with pm := image }
  | host (a : Access) (x' : Channel) (hp : s.pending.head? = some (.host a)) (hc : HostChange s.nextInstr d x x') :
    StepChange s d x x'

/-- Reading any engine after one was replaced. -/
theorem State.setChannel_read {s : State} {c d : Chan} {x x' y : Channel} (hc : s.channel? c = some x)
    (hd : s.channel? d = some y) :
    ∃ y', (s.setChannel c x').channel? d = some y' ∧ ((d = c ∧ y = x ∧ y' = x') ∨ (d ≠ c ∧ y' = y)) := by
  by_cases h : d = c
  · subst h
    rw [State.setChannel_channel?_self hc]
    exact ⟨_, rfl, .inl ⟨rfl, by simp_all, rfl⟩⟩
  · rw [State.setChannel_channel?_ne h]
    exact ⟨_, hd, .inr ⟨h, rfl⟩⟩

/-- Everything one step can make of a channel. -/
theorem step_channel {s t : State} {d : Chan} {x : Channel} (h : step s = .next t) (hd : s.channel? d = some x) :
    ∃ x', t.channel? d = some x' ∧ StepChange s d x x' := by
  have one : ∀ {rest : List Event} {c : Chan} {y y' : Channel}, s.channel? c = some y → StepChange s c y y' →
      ∃ x', (State.setChannel { s with pending := rest } c y').channel? d = some x' ∧ StepChange s d x x' := by
    intro rest c y y' hc hy
    obtain ⟨x', h1, h2⟩ := State.setChannel_read (s := { s with pending := rest }) (x' := y') hc hd
    refine ⟨x', h1, ?_⟩
    rcases h2 with ⟨rfl, rfl, rfl⟩ | ⟨-, rfl⟩
    · exact hy
    · exact .same
  rcases step_cases h with ⟨-, rfl⟩ | ⟨c, y, y', rest, hp, hc, ht, rfl⟩ | ⟨rest, hp, hm⟩ | ⟨rest, hp, rfl⟩ |
    ⟨c, image, y, rest, hp, hc, hr, hw, rfl⟩ | ⟨a, rest, i, hp, ha, hn, he⟩
  · exact ⟨x, hd, .same⟩
  · exact one hc (.turn _ (by simp [hp]) ht)
  · rcases muxStep_next hm with rfl | ⟨-, -, rfl⟩ | ⟨-, -, c, y, -, hc, ⟨v, q, hq, rfl⟩ | ⟨-, -, rfl⟩⟩
    · exact ⟨x, hd, .same⟩
    · exact ⟨x, hd, .same⟩
    · exact one (rest := rest) hc (.drained v q (by simp [hp]) hq)
    · exact ⟨x, hd, .same⟩
  · refine ⟨Channel.afterReset x.pm, ?_, .reset (by simp [hp])⟩
    rw [State.applyReset_channel?]
    have : ({ s with pending := rest } : State).channel? d = some x := hd
    simp [this]
  · exact one hc (.load image (by simp [hp]) hr)
  · obtain ⟨-, -, h1 | ⟨c, y, y', hc, hy, h1⟩⟩ := exec_access_channels he ha
    · exact ⟨x, by rw [State.channel?_congr h1]; exact hd, .same⟩
    · rw [State.channel?_congr h1]
      exact one hc (.host a _ (by simp [hp]) (hn ▸ hy))

end Sys2Proof.Machine
end

