-- ==== Sys2Proof/Laws/Runs.lean ====
section
/-! SUPPORT. A whole run of one engine, whatever the schedule: while nothing is written, the machine takes its channel through iterations of one queue-free turn, and the queue keeps a tail of what those push; the samples ahead of a channel are what the iterations push. -/

namespace Sys2Proof.Machine

/-- The channel without its queue. -/
def Channel.core (x : Channel) : Channel := { x with outq := [] }

/-- One turn with room in the queue: the new core and the samples pushed. -/
def Channel.freeTurn (x : Channel) : Option (Channel × List Sample) :=
  (x.core.turn .unbounded).map (fun y => (y.core, y.outq))

/-- `n` such turns, and the samples pushed by all of them. -/
def Channel.iterate : Nat → Channel → Option (Channel × List Sample)
  | 0, x => some (x, [])
  | n + 1, x => x.freeTurn.bind (fun y => (Channel.iterate n y.1).map (fun z => (z.1, y.2 ++ z.2)))

@[simp] theorem Channel.core_core (x : Channel) : x.core.core = x.core := rfl

theorem Channel.iterate_succ {n : Nat} {x y z : Channel} {p q : List Sample} (h : x.freeTurn = some (y, p))
    (hn : Channel.iterate n y = some (z, q)) : Channel.iterate (n + 1) x = some (z, p ++ q) := by
  simp [Channel.iterate, h, hn]

theorem Channel.iterate_succ_inv {n : Nat} {x z : Channel} {r : List Sample}
    (h : Channel.iterate (n + 1) x = some (z, r)) :
    ∃ y p q, x.freeTurn = some (y, p) ∧ Channel.iterate n y = some (z, q) ∧ r = p ++ q := by
  simp only [Channel.iterate, Option.bind_eq_some_iff, Option.map_eq_some_iff, Prod.exists, Prod.mk.injEq] at h
  obtain ⟨y, p, h1, z', q, h2, rfl, rfl⟩ := h
  exact ⟨y, p, q, h1, h2, rfl⟩

theorem Channel.iterate_add {n m : Nat} {x y z : Channel} {p q : List Sample} (h : Channel.iterate n x = some (y, p))
    (hm : Channel.iterate m y = some (z, q)) : Channel.iterate (n + m) x = some (z, p ++ q) := by
  induction n generalizing x p with
  | zero =>
    simp only [Channel.iterate, Option.some.injEq, Prod.mk.injEq] at h
    obtain ⟨rfl, rfl⟩ := h
    simpa using hm
  | succ n ih =>
    obtain ⟨w, a, b, h1, h2, rfl⟩ := Channel.iterate_succ_inv h
    rw [Nat.add_right_comm, List.append_assoc]
    exact Channel.iterate_succ h1 (ih h2)

/-- A queue-free turn, by the step the sequencer selects. -/
theorem Channel.freeTurn_cases {x y : Channel} {p : List Sample} (h : x.freeTurn = some (y, p)) :
    (x.state ≠ .run ∧ y = x.core ∧ p = []) ∨
    (x.state = .run ∧ x.nph = true ∧ pairExists x.ps = true ∧ ∃ v,
      v = refSample x.coef x.ps x.hist1 x.hist2 (x.db.extractLsb' 0 4) ∧ p = [v] ∧
      y = { x with nph := false, hist2 := x.hist1, hist1 := v, outq := [], scount := x.scount + 1 }) ∨
    (x.state = .run ∧ x.nph = false ∧ x.pos = x.len.toNat ∧ p = [] ∧ y = { x with outq := [], state := .done }) ∨
    (x.state = .run ∧ x.nph = false ∧ x.pos ≠ x.len.toNat ∧ x.pm.read (x.base.toNat + x.pos) = none ∧ p = [] ∧
      y = { x with outq := [], state := .fault, fRange := true, cause := .range }) ∨
    (x.state = .run ∧ x.nph = false ∧ x.pos ≠ x.len.toNat ∧ x.pos % 8 = 0 ∧ p = [] ∧
      ∃ b, x.pm.read (x.base.toNat + x.pos) = some b ∧
      ((pairExists b = false ∧ y = { x with outq := [], ps := b, state := .fault, fPred := true, cause := .pred }) ∨
        (pairExists b = true ∧ y = { x with outq := [], ps := b, pos := x.pos + 1 }))) ∨
    (x.state = .run ∧ x.nph = false ∧ x.pos ≠ x.len.toNat ∧ x.pos % 8 ≠ 0 ∧ pairExists x.ps = true ∧
      ∃ b v, x.pm.read (x.base.toNat + x.pos) = some b ∧
      v = refSample x.coef x.ps x.hist1 x.hist2 (b.extractLsb' 4 4) ∧ p = [v] ∧
      y = { x with
        db := b, pos := x.pos + 1, nph := true, hist2 := x.hist1, hist1 := v, outq := [], scount := x.scount + 1 }) := by
  obtain ⟨w, hw, he⟩ := Option.map_eq_some_iff.1 h
  obtain ⟨rfl, rfl⟩ := Prod.mk.inj he
  have smp : ∀ {u : Channel} {m : BitVec 4}, u.sample m = some w → pairExists u.ps = true ∧
      w = { u with
        hist2 := u.hist1, hist1 := refSample u.coef u.ps u.hist1 u.hist2 m
        outq := u.outq ++ [refSample u.coef u.ps u.hist1 u.hist2 m], scount := u.scount + 1 } := by
    intro u m hm
    by_cases hp : pairExists u.ps = true
    · rw [Channel.sample_of_pair hp, Option.some.injEq] at hm
      rw [refSample_eq]
      exact ⟨hp, hm.symm⟩
    · simp [Channel.sample, hp] at hm
  unfold Channel.turn at hw
  have hc : x.core.selects = x.selects := rfl
  rw [hc] at hw
  split at hw
  · cases hw
    exact .inl ⟨Channel.selects_none.1 ‹_›, rfl, rfl⟩
  · obtain ⟨h1, h2⟩ := Channel.selects_dataLo.1 ‹_›
    obtain ⟨hp, rfl⟩ := smp (by simpa [Channel.queueFull] using hw)
    exact .inr (.inl ⟨h1, h2, hp, _, rfl, rfl, rfl⟩)
  · obtain ⟨h1, h2, h3⟩ := Channel.selects_finish.1 ‹_›
    cases hw
    exact .inr (.inr (.inl ⟨h1, h2, h3, rfl, rfl⟩))
  · obtain ⟨h1, h2, h3, h4⟩ := Channel.selects_hdr.1 ‹_›
    split at hw
    · cases hw
      exact .inr (.inr (.inr (.inl ⟨h1, h2, h3, ‹_›, rfl, rfl⟩)))
    · rename_i b hb
      refine .inr (.inr (.inr (.inr (.inl ⟨h1, h2, h3, h4, ?_, b, hb, ?_⟩))))
      · split at hw <;> cases hw <;> rfl
      · split at hw
        · cases hw
          exact .inl ⟨by simp_all [pairExists], rfl⟩
        · cases hw
          exact .inr ⟨by simp_all [pairExists], rfl⟩
  · obtain ⟨h1, h2, h3, h4⟩ := Channel.selects_dataHi.1 ‹_›
    simp only [Channel.queueFull, Bool.false_eq_true, if_false] at hw
    split at hw
    · cases hw
      exact .inr (.inr (.inr (.inl ⟨h1, h2, h3, ‹_›, rfl, rfl⟩)))
    · rename_i b hb
      obtain ⟨hp, rfl⟩ := smp hw
      exact .inr (.inr (.inr (.inr (.inr ⟨h1, h2, h3, h4, hp, b, _, hb, rfl, rfl, rfl⟩))))

/-- An engine that is not in RUN stays as it is. -/
theorem Channel.freeTurn_of_stopped {x : Channel} (h : x.state ≠ .run) : x.freeTurn = some (x.core, []) := by
  have : x.core.selects = none := Channel.selects_none.2 h
  simp only [Channel.freeTurn, Channel.turn, this, Option.map_some]
  rfl

theorem Channel.freeTurn_core {x y : Channel} {p : List Sample} (h : x.freeTurn = some (y, p)) : y.core = y := by
  obtain ⟨w, -, he⟩ := Option.map_eq_some_iff.1 h
  obtain ⟨rfl, -⟩ := Prod.mk.inj he
  rfl

theorem Channel.iterate_of_stopped {n : Nat} {x : Channel} (h : x.state ≠ .run) (hc : x.core = x) :
    Channel.iterate n x = some (x, []) := by
  induction n with
  | zero => rfl
  | succ n ih => exact Channel.iterate_succ (by rw [Channel.freeTurn_of_stopped h, hc]) ih

/-- Iterations that end in a channel that is not in RUN end alike. -/
theorem Channel.iterate_unique {n m : Nat} {x y z : Channel} {p q : List Sample} (hc : x.core = x)
    (h1 : Channel.iterate n x = some (y, p)) (h2 : Channel.iterate m x = some (z, q)) (hy : y.state ≠ .run)
    (hz : z.state ≠ .run) : y = z ∧ p = q := by
  induction n generalizing m x p q with
  | zero =>
    simp only [Channel.iterate, Option.some.injEq, Prod.mk.injEq] at h1
    obtain ⟨rfl, rfl⟩ := h1
    rw [Channel.iterate_of_stopped hy hc] at h2
    simpa using h2
  | succ n ih =>
    cases m with
    | zero =>
      simp only [Channel.iterate, Option.some.injEq, Prod.mk.injEq] at h2
      obtain ⟨rfl, rfl⟩ := h2
      rw [Channel.iterate_of_stopped hz hc] at h1
      simpa [eq_comm] using h1
    | succ m =>
      obtain ⟨w, a, b, f1, g1, rfl⟩ := Channel.iterate_succ_inv h1
      obtain ⟨w', a', b', f2, g2, rfl⟩ := Channel.iterate_succ_inv h2
      rw [f1] at f2
      cases f2
      obtain ⟨rfl, rfl⟩ := ih (Channel.freeTurn_core f1) g1 g2
      exact ⟨rfl, rfl⟩

/-! ## The machine's steps as queue-free turns -/

/-- A sample does not see the queue it is pushed to. -/
theorem Channel.sample_core {u y : Channel} {m : BitVec 4} (h : u.sample m = some y) :
    ∃ p, u.core.sample m = some { y with outq := p } ∧ y.outq = u.outq ++ p ∧ y.scount = u.scount + p.length := by
  unfold Channel.sample at h
  split at h
  · cases h
    exact ⟨_, if_pos ‹_›, rfl, rfl⟩
  · cases h

/-- A turn at any queue depth is a hold or a queue-free turn whose samples go to the queue's tail. -/
theorem Channel.turn_free {depth : QueueDepth} {x y : Channel} (h : x.turn depth = some y) :
    y = x ∨ ∃ p, x.core.freeTurn = some (y.core, p) ∧ y.outq = x.outq ++ p ∧ y.scount = x.scount + p.length := by
  have free : ∀ {p : List Sample}, x.core.turn .unbounded = some { y with outq := p } →
      x.core.freeTurn = some (y.core, p) := by
    intro p hp
    simp only [Channel.freeTurn, Channel.core_core, hp, Option.map_some]
    rfl
  have quiet : x.core.turn .unbounded = some { y with outq := [] } → y.outq = x.outq → y.scount = x.scount →
      ∃ p, x.core.freeTurn = some (y.core, p) ∧ y.outq = x.outq ++ p ∧ y.scount = x.scount + p.length :=
    fun h1 h2 h3 => ⟨[], free h1, by simp [h2], h3⟩
  have hc : x.core.selects = x.selects := rfl
  have hr : x.core.pm.read x.core.address = x.pm.read x.address := rfl
  have hq : x.core.queueFull .unbounded = false := rfl
  unfold Channel.turn at h
  split at h
  · cases h
    exact .inl rfl
  · rename_i hs
    split at h
    · cases h
      exact .inl rfl
    · obtain ⟨p, h1, h2, h3⟩ := Channel.sample_core h
      exact .inr ⟨p, free (by simp only [Channel.turn, hc, hs, hq]; exact h1), h2, h3⟩
  · rename_i hs
    cases h
    exact .inr (quiet (by simp only [Channel.turn, hc, hs]; rfl) rfl rfl)
  · rename_i hs
    refine .inr ?_
    split at h
    · rename_i hb
      cases h
      exact quiet (by simp only [Channel.turn, hc, hs, hr, hb]; rfl) rfl rfl
    · rename_i b hb
      split at h <;> rename_i h7 <;> cases h <;>
        exact quiet (by simp only [Channel.turn, hc, hs, hr, hb, h7]; rfl) rfl rfl
  · rename_i hs
    split at h
    · cases h
      exact .inl rfl
    · refine .inr ?_
      split at h
      · rename_i hb
        cases h
        exact quiet (by simp only [Channel.turn, hc, hs, hq, hr, hb]; rfl) rfl rfl
      · rename_i b hb
        obtain ⟨p, h1, h2, h3⟩ := Channel.sample_core h
        exact ⟨p, free (by simp only [Channel.turn, hc, hs, hq, hr, hb]; exact h1), h2, h3⟩

/-- One step among turns and host reads: the engine moves not at all, its queue at most drained, or by one queue-free turn. -/
theorem step_channel_free {s t : State} {c : Chan} {x : Channel} (h : step s = .next t) (hc : s.channel? c = some x)
    (he : turnsAndReads (s.pending.take 1)) :
    t.pending = s.pending.tail ∧ ∃ y, t.channel? c = some y ∧
      ((y.core = x.core ∧ y.outq <:+ x.outq) ∨
        ∃ p, x.core.freeTurn = some (y.core, p) ∧ y.outq = x.outq ++ p ∧ y.scount = x.scount + p.length) := by
  have drain : ∀ {v : Sample} {q : List Sample} {y : Channel}, y.outq = v :: q →
      Channel.core { y with outq := q } = y.core ∧ q <:+ y.outq := by
    intro v q y hq
    exact ⟨rfl, hq ▸ List.suffix_cons _ _⟩
  rcases step_cases h with ⟨hn, rfl⟩ | ⟨d, x1, x2, rest, hp, hd, ht, rfl⟩ | ⟨rest, hp, hm⟩ | ⟨rest, hp, rfl⟩ |
    ⟨d, image, y, rest, hp, hd, hr, hw, rfl⟩ | ⟨a, rest, i, hp, ha, hn, hex⟩
  · exact ⟨by simp [hn], x, hc, .inl ⟨rfl, List.suffix_refl _⟩⟩
  · refine ⟨by simp [hp], ?_⟩
    obtain ⟨y, h1, h2⟩ := State.setChannel_read (s := { s with pending := rest }) (x' := x2) hd hc
    refine ⟨y, h1, ?_⟩
    rcases h2 with ⟨rfl, rfl, rfl⟩ | ⟨-, rfl⟩
    · rcases Channel.turn_free ht with rfl | h3
      · exact .inl ⟨rfl, List.suffix_refl _⟩
      · exact .inr h3
    · exact .inl ⟨rfl, List.suffix_refl _⟩
  · rcases muxStep_next hm with rfl | ⟨-, -, rfl⟩ | ⟨-, -, d, y, -, hd, ⟨v, q, hq, rfl⟩ | ⟨-, -, rfl⟩⟩
    · exact ⟨by simp [hp], x, hc, .inl ⟨rfl, List.suffix_refl _⟩⟩
    · exact ⟨by simp [hp], x, hc, .inl ⟨rfl, List.suffix_refl _⟩⟩
    · refine ⟨by simp [hp, State.emitSample], ?_⟩
      obtain ⟨y', h1, h2⟩ := State.setChannel_read (s := { s with pending := rest }) (x' := { y with outq := q }) hd hc
      refine ⟨y', h1, .inl ?_⟩
      rcases h2 with ⟨rfl, rfl, rfl⟩ | ⟨-, rfl⟩
      · exact drain hq
      · exact ⟨rfl, List.suffix_refl _⟩
    · exact ⟨by simp [hp], x, hc, .inl ⟨rfl, List.suffix_refl _⟩⟩
  · have := he .reset (by simp [hp])
    simp at this
  · have := he (.load d image) (by simp [hp])
    simp at this
  · obtain ⟨i', hi1, hi2, hi3, hi4⟩ := step_host hp h
    have hw : a.write = false := by simpa using he (.host a) (by simp [hp])
    refine ⟨by simpa [hp] using (exec_access_channels hi4 hi1).1, ?_⟩
    obtain ⟨-, h1 | ⟨d, y, v, q, hd, hq, h1⟩⟩ := exec_read_channels hi4 (hi2 hw)
    · exact ⟨x, by rw [State.channel?_congr h1]; exact hc, .inl ⟨rfl, List.suffix_refl _⟩⟩
    · rw [State.channel?_congr h1]
      obtain ⟨y', h1, h2⟩ := State.setChannel_read (s := { s with pending := rest }) (x' := { y with outq := q }) hd hc
      refine ⟨y', h1, .inl ?_⟩
      rcases h2 with ⟨rfl, rfl, rfl⟩ | ⟨-, rfl⟩
      · exact drain hq
      · exact ⟨rfl, List.suffix_refl _⟩

theorem turnsAndReads_take {es : List Event} (h : turnsAndReads es) (k : Nat) : turnsAndReads (es.take k) :=
  fun e he => h e (List.mem_of_mem_take he)

theorem turnsAndReads_take_succ {es : List Event} {k : Nat} (h : turnsAndReads (es.take (k + 1))) :
    turnsAndReads (es.take 1) ∧ turnsAndReads (es.tail.take k) := by
  cases es with
  | nil => simp [turnsAndReads]
  | cons e es => exact ⟨fun x hx => h x (by simp_all), fun x hx => h x (by simp_all)⟩

/-- Any number of steps, each a turn or a host read, is some number of queue-free turns, and the queue keeps a tail of what they push. -/
theorem runSteps_channel_free {k : Nat} {s t : State} {c : Chan} {x y : Channel} (h : runSteps k s = .next t)
    (hx : s.channel? c = some x) (hy : t.channel? c = some y) (he : turnsAndReads (s.pending.take k)) :
    t.pending = s.pending.drop k ∧ ∃ n p, Channel.iterate n x.core = some (y.core, p) ∧ y.outq <:+ x.outq ++ p ∧
      y.scount = x.scount + p.length := by
  induction k generalizing s x with
  | zero =>
    cases next_eq h
    rw [hx, Option.some.injEq] at hy
    subst hy
    exact ⟨rfl, 0, [], rfl, by simp, by simp⟩
  | succ k ih =>
    rw [runSteps_succ] at h
    cases hs : step s with
    | next u =>
      simp only [hs] at h
      obtain ⟨he1, he2⟩ := turnsAndReads_take_succ he
      obtain ⟨h4, z, h5, h6⟩ := step_channel_free hs hx he1
      obtain ⟨h3, n, p, h7, h8, h9⟩ := ih h h5 (h4 ▸ he2)
      refine ⟨by rw [h3, h4, List.drop_tail], ?_⟩
      rcases h6 with ⟨h6, w, h10⟩ | ⟨q, h6, h10, h11⟩
      · refine ⟨n, p, h6 ▸ h7, h8.trans ⟨w, by rw [← h10, List.append_assoc]⟩, ?_⟩
        rw [h9, show z.scount = x.scount from show z.core.scount = x.core.scount from congrArg Channel.scount h6]
      · refine ⟨n + 1, q ++ p, Channel.iterate_succ h6 h7, ?_, ?_⟩
        · rw [← List.append_assoc, ← h10]
          exact h8
        · rw [h9, h11, List.length_append, Nat.add_assoc]
    | fault f => simp [hs] at h
    | refused r => simp [hs] at h

/-! ## A host write to a channel's window -/

theorem channelReg_eq (c : Chan) (off : BitVec 8) :
    channelReg c off.toNat < 0x2000 ∧ BitVec.ofNat 13 (channelReg c off.toNat) = channelAddr c off := by
  have hc := c.isLt
  have ho := off.isLt
  refine ⟨by unfold channelReg; omega, ?_⟩
  apply BitVec.eq_of_toNat_eq
  have h : (channelAddr c off).toNat = 0x1000 + 0x100 * c.toNat + off.toNat := by
    simp only [channelAddr, BitVec.toNat_append, BitVec.toNat_ofNat]
    rw [← Nat.shiftLeft_add_eq_or_of_lt hc, ← Nat.shiftLeft_add_eq_or_of_lt ho]
    omega
  rw [h, BitVec.toNat_ofNat, channelReg]
  exact Nat.mod_eq_of_lt (by omega)

/-- The step of a host write to the window of a channel the block has runs the instruction of its offset. -/
theorem step_hostWrite_channel {s : State} {c : Chan} {ch : Channel} {off : BitVec 8} {d : Word} {rest : List Event}
    (hp : s.pending = hostWrite (channelReg c off.toNat) d :: rest) (hc : s.channel? c = some ch)
    (ho : off.extractLsb' 0 2 = 0#2) :
    step s = exec (decodeChannel true (channelAddr c off) c off d) { s with pending := rest } := by
  obtain ⟨h1, h2⟩ := channelReg_eq c off
  have hn : hasChannel s.nchMax c = true := by simpa [hasChannel] using State.lt_nchMax hc
  simp [step, State.fetch, hp, hostWrite, fetchAccess, Nat.not_le.2 h1, h2, decode, decodeAccess_channel, ho, hn,
    State.retire_of_pending hp]

/-- The step of a host's configuration write to a channel that is not in RUN (R146). -/
theorem step_hostWrite_config {s : State} {c : Chan} {ch : Channel} {off : BitVec 8} {d : Word} {rest : List Event}
    {f : Channel → Channel} (hp : s.pending = hostWrite (channelReg c off.toNat) d :: rest)
    (hc : s.channel? c = some ch) (hr : ch.state ≠ .run) (ho : off.extractLsb' 0 2 = 0#2)
    (hf : ∀ u, exec (decodeChannel true (channelAddr c off) c off d) u = configWrite c f u) :
    step s = .next (State.setChannel { s with pending := rest } c (f ch)) := by
  rw [step_hostWrite_channel hp hc ho, hf]
  exact configWrite_not_run (s := { s with pending := rest }) hc hr

theorem coefOffset_toNat : ∀ i : BitVec 4, (coefOffset i).toNat = 0x40 + 4 * i.toNat := by decide

/-- A sample written as the register view it has is stored as it was (R37). -/
theorem sampleStored_sampleView (v : Sample) : sampleStored (sampleView v) = v := by
  apply BitVec.eq_of_getLsbD_eq
  intro k hk
  have h : k < 32 := by omega
  simp only [sampleStored, sampleView, BitVec.getLsbD_extractLsb', Nat.zero_add, BitVec.getLsbD_signExtend, hk, h,
    decide_true, Bool.true_and, if_true]

/-! ## The samples ahead -/

/-- What a queue-free turn pushes is what it takes from the samples ahead. -/
theorem Channel.samplesAhead_freeTurn {x y : Channel} {p : List Sample} (h : x.freeTurn = some (y, p))
    (hr : x.state = .run) (hp : x.pos ≤ x.len.toNat) :
    x.samplesAhead = p ++ (if y.state = .run then y.samplesAhead else []) ∧ y.pos ≤ y.len.toNat := by
  have left : x.pos ≠ x.len.toNat → ∃ n, x.len.toNat - x.pos = n + 1 ∧ x.len.toNat - (x.pos + 1) = n := by
    intro hne
    exact ⟨x.len.toNat - x.pos - 1, by omega, by omega⟩
  rcases Channel.freeTurn_cases h with ⟨hs, -⟩ | ⟨-, hn, -, v, rfl, rfl, rfl⟩ | ⟨-, hn, he, rfl, rfl⟩ |
    ⟨-, hn, hne, hb, rfl, rfl⟩ | ⟨-, hn, hne, h8, rfl, b, hb, ⟨hk, rfl⟩ | ⟨hk, rfl⟩⟩ |
    ⟨-, hn, hne, h8, hk, b, v, hb, rfl, rfl, rfl⟩
  · exact absurd hr hs
  · simp [Channel.samplesAhead, hn, hr, hp]
  · simp [Channel.samplesAhead, hn, he, bytesAhead, refDecode]
  · obtain ⟨n, h1, -⟩ := left hne
    simp [Channel.samplesAhead, hn, h1, bytesAhead, hb, refDecode, hp]
  · obtain ⟨n, h1, -⟩ := left hne
    simp [Channel.samplesAhead, hn, h1, bytesAhead, hb, refDecode, hp, h8, hk]
  · obtain ⟨n, h1, h2⟩ := left hne
    simp [Channel.samplesAhead, hn, h1, h2, bytesAhead, hb, refDecode, h8, hk, hr]
    omega
  · obtain ⟨n, h1, h2⟩ := left hne
    simp [Channel.samplesAhead, hn, h1, h2, bytesAhead, hb, refDecode, h8, hr]
    omega

/-- What iterated turns push, with what is then ahead, is what was ahead. -/
theorem Channel.samplesAhead_iterate {n : Nat} {x y : Channel} {p : List Sample}
    (h : Channel.iterate n x = some (y, p)) (hr : x.state = .run) (hp : x.pos ≤ x.len.toNat) :
    x.samplesAhead = p ++ (if y.state = .run then y.samplesAhead else []) := by
  induction n generalizing x p with
  | zero =>
    simp only [Channel.iterate, Option.some.injEq, Prod.mk.injEq] at h
    obtain ⟨rfl, rfl⟩ := h
    simp [hr]
  | succ n ih =>
    obtain ⟨w, a, b, h1, h2, rfl⟩ := Channel.iterate_succ_inv h
    obtain ⟨h3, h4⟩ := Channel.samplesAhead_freeTurn h1 hr hp
    by_cases hw : w.state = .run
    · rw [h3, if_pos hw, ih h2 hw h4, List.append_assoc]
    · rw [Channel.iterate_of_stopped hw (Channel.freeTurn_core h1)] at h2
      simp only [Option.some.injEq, Prod.mk.injEq] at h2
      obtain ⟨rfl, rfl⟩ := h2
      simp [h3, hw]

end Sys2Proof.Machine
end

