-- ==== Sys2Proof/Tests/Slice0.lean ====
section
/-! SUPPORT. The model's own tests: ill-formed terms refused, words written out from the encodings decoded, single steps with the results 95_test_vectors.md gives, and a witness of the hypotheses of every statement that has some. -/

namespace Sys2Proof.Tests

open Sys2Proof Sys2Proof.Machine

/-! ## WellFormed refuses (R20, R36, R41, R63) -/

theorem test_illformed_channel :
    (([.hdr 2 0 0, .hdrBadpred 2 0 0, .dataHi 2 0 0, .dataLo 2, .endRun 2, .chCtrlStart 2 1, .chCtrlAbort 2 2,
      .chCtrlNop 2 0, .chCtrlR 2, .chStatusR 2, .chStatusW 2 0, .chBaseW 2 0, .chBaseR 2, .chLenW 2 0, .chLenR 2,
      .chSrateW 2 0, .chSrateR 2, .chHist1W 2 0, .chHist1R 2, .chHist2W 2 0, .chHist2R 2] : List Instr).all
        (fun i => !i.wellFormed 2)) = true ∧
    (([.chPosR 2, .chPosW 2 0, .chScountR 2, .chScountW 2 0, .chPsR 2, .chPsW 2 0, .chOutR 2, .chOutW 2 0,
      .chCoefW 2 0 0, .chCoefR 2 0] : List Instr).all (fun i => !i.wellFormed 2)) = true := by
  decide

theorem test_illformed_command :
    (([.muxCtrlStart 0, .muxCtrlStart 3, .muxCtrlAbort 1, .muxCtrlNop 1, .muxCtrlNop 2, .chCtrlStart 0 0,
      .chCtrlStart 0 3, .chCtrlAbort 0 1, .chCtrlNop 0 1, .chCtrlNop 0 2] : List Instr).all
        (fun i => !i.wellFormed 16)) = true := by
  decide

theorem test_illformed_reserved :
    (([.rsvdR 0x0000, .rsvdR 0x101, .rsvdR 0x1000, .rsvdR 0x1F7C, .rsvdW 0x0010 0, .rsvdW 0x1F28 0] : List Instr).all
        (fun i => !i.wellFormed 16)) = true := by
  decide

theorem test_illformed_payload_cells :
    Memory.wf { size := 2, cells := [(0, 0)] } = false ∧ Memory.wf { size := 2, cells := [(1, 5), (0, 5)] } = false ∧
    Memory.wf { size := 2, cells := [(2, 5)] } = false ∧ Memory.wf { size := 2 ^ 32 + 1, cells := [] } = false := by
  decide

/-! ## Words written out from the encodings -/

/-- R82, R84, R85: payload units; bytes of 95_test_vectors.md section 2.1. -/
theorem test_decode_payload :
    decodeTableWord 8 0b00111100 = some (.hdr 0 3 12) ∧ decodeTableWord 8 0b10000000 = some (.hdrBadpred 0 0 0) ∧
    decodeTableWord 8 0b11111111 = some (.hdrBadpred 0 7 15) ∧ decode 16 (.header 9 0x12) = .instr (.hdr 9 1 2) ∧
    decode 16 (.data 4 0b11010110) = .instr (.dataHi 4 0xD 0x6) ∧ decode 16 (.latched 15) = .instr (.dataLo 15) ∧
    decode 16 (.ended 0) = .instr (.endRun 0) ∧ decode 2 (.ended 2) = .reject .noSuchEngine := by
  decide

/-- R62: a misaligned key is no instruction, and a word of more than 46 bits is no key. -/
theorem test_decode_rejects :
    decodeTableWord 48 0x100100000000 = none ∧ decodeTableWord 48 0x100200000000 = none ∧
    decodeTableWord 48 0x400000000000 = none := by
  decide

/-- R92, 10_state.md R39: the match words of the global window with their operand bits set. -/
theorem test_decode_global_rows :
    decodeTableWord 48 0x000000000000 = some (.idR) ∧
    decodeTableWord 48 0x2000ffffffff = some (.idW 0xFFFFFFFF) ∧
    decodeTableWord 48 0x201080000001 = some (.muxCtrlStart 0x80000001) ∧
    decodeTableWord 48 0x201000000003 = some (.muxCtrlAbort 0x3) ∧
    decodeTableWord 48 0x2010fffffffc = some (.muxCtrlNop 0xFFFFFFFC) ∧
    decodeTableWord 48 0x001000000000 = some (.muxCtrlR) ∧
    decodeTableWord 48 0x20140003ff02 = some (.muxCfgW 0x0003FF02) ∧
    decodeTableWord 48 0x001400000000 = some (.muxCfgR) ∧
    decodeTableWord 48 0x001800000000 = some (.muxStatusR) ∧
    decodeTableWord 48 0x001c00000000 = some (.muxOcountR) ∧
    decodeTableWord 48 0x201800000007 = some (.globalRoW false 7) ∧
    decodeTableWord 48 0x201c00000007 = some (.globalRoW true 7) := by
  decide

/-- R92, R36: the match words of the command and status rows, `addr[11:8]` the channel. -/
theorem test_decode_channel_commands :
    decodeTableWord 48 0x300000000001 = some (.chCtrlStart 0 1) ∧
    decodeTableWord 48 0x3f00ffffffff = some (.chCtrlAbort 15 0xFFFFFFFF) ∧
    decodeTableWord 48 0x330000000004 = some (.chCtrlNop 3 0x4) ∧
    decodeTableWord 48 0x190000000000 = some (.chCtrlR 9) ∧
    decodeTableWord 48 0x110400000000 = some (.chStatusR 1) ∧
    decodeTableWord 48 0x320400000005 = some (.chStatusW 2 5) := by
  decide

/-- R92, R34: the match words of the configuration rows; `addr[5:2]` is the coefficient. -/
theorem test_decode_channel_config :
    decodeTableWord 48 0x310800000060 = some (.chBaseW 1 0x60) ∧
    decodeTableWord 48 0x1e0800000000 = some (.chBaseR 14) ∧
    decodeTableWord 48 0x3f0c00000010 = some (.chLenW 15 0x10) ∧
    decodeTableWord 48 0x120c00000000 = some (.chLenR 2) ∧
    decodeTableWord 48 0x301000007d00 = some (.chSrateW 0 0x7D00) ∧
    decodeTableWord 48 0x151000000000 = some (.chSrateR 5) ∧
    decodeTableWord 48 0x301400018000 = some (.chHist1W 0 0x18000) ∧
    decodeTableWord 48 0x181400000000 = some (.chHist1R 8) ∧
    decodeTableWord 48 0x341800000006 = some (.chHist2W 4 6) ∧
    decodeTableWord 48 0x171800000000 = some (.chHist2R 7) ∧
    decodeTableWord 48 0x307c00005678 = some (.chCoefW 0 15 0x5678) ∧
    decodeTableWord 48 0x1a4400000000 = some (.chCoefR 10 1) := by
  decide

/-- R92, R34, R63: the match words of the counter and queue rows, and two reserved addresses. -/
theorem test_decode_channel_counters :
    decodeTableWord 48 0x101c00000000 = some (.chPosR 0) ∧
    decodeTableWord 48 0x301c00000005 = some (.chPosW 0 5) ∧
    decodeTableWord 48 0x162000000000 = some (.chScountR 6) ∧
    decodeTableWord 48 0x362000000001 = some (.chScountW 6 1) ∧
    decodeTableWord 48 0x1b2400000000 = some (.chPsR 11) ∧
    decodeTableWord 48 0x3b2400000002 = some (.chPsW 11 2) ∧
    decodeTableWord 48 0x1c2800000000 = some (.chOutR 12) ∧
    decodeTableWord 48 0x3c2800000003 = some (.chOutW 12 3) ∧
    decodeTableWord 48 0x102c00000000 = some (.rsvdR 0x102C) ∧
    decodeTableWord 48 0x210000000009 = some (.rsvdW 0x0100 9) := by
  decide

/-! ## One placed instruction runs first -/

theorem test_fetch_header :
    ((nextOf (step (State.reset.withFetchWord 8 0x3C))).bind (fun t => t.channel? 0)).map (fun ch => (ch.ps, ch.pos))
      = some (0x3C, 1) := by
  decide

theorem test_fetch_bad_header :
    ((nextOf (step (State.reset.withFetchWord 8 0xFF))).bind (fun t => t.channel? 0)).map
      (fun ch => (ch.ps, ch.pos, ch.state, ch.cause)) = some (0xFF, 0, .fault, .pred) := by
  decide

theorem test_fetch_access :
    ((nextOf (step (State.reset.withFetchWord 48 0x307c00005678))).bind (fun t => t.channel? 0)).map (fun ch => ch.coef[15])
      = some 0x5678 := by
  decide

/-! ## Arithmetic (95_test_vectors.md 2.2 to 2.5) -/

theorem test_nibble_sign :
    predict 0x0 0x00 0 0 0 0 = 0 ∧ predict 0x7 0x00 0 0 0 0 = 7 ∧ predict 0x8 0x00 0 0 0 0 = -8 ∧
    predict 0xF 0x00 0 0 0 0 = -1 := by
  decide

theorem test_scale_and_clamp :
    predict 0x1 0x0B 0 0 0 0 = 2048 ∧ predict 0xF 0x0B 0 0 0 0 = -2048 ∧ predict 0x7 0x0C 0 0 0 0 = 28672 ∧
    predict 0x8 0x0C 0 0 0 0 = -32768 ∧ predict 0x7 0x0D 0 0 0 0 = 32767 ∧ predict 0x8 0x0D 0 0 0 0 = -32768 := by
  decide

theorem test_rounding :
    predict 0 0 2048 0 100 0 = 100 ∧ predict 0 0 2048 0 (-100) 0 = -100 ∧ predict 0 0 1024 0 1 0 = 1 ∧
    predict 0 0 1024 0 (-1) 0 = 0 ∧ predict 0 0 1023 0 (-1) 0 = 0 ∧ predict 0 0 1025 0 (-1) 0 = -1 := by
  decide

theorem test_wide_accumulator :
    accumulator 0x7 0x7F (-32768) (-32768) (-32768) (-32768) = 2617246720 ∧
    accumulator 0x8 0x7F (-32768) (-32768) 32767 32767 = -2684288000 ∧
    predict 0x7 0x7F (-32768) (-32768) (-32768) (-32768) = 32767 ∧
    predict 0x8 0x7F (-32768) (-32768) 32767 32767 = -32768 ∧
    predict 0x0 0x00 (-32768) (-32768) 32767 32767 = -32768 := by
  decide

/-- V62 to V70, V74, V75. -/
theorem test_sample_counts :
    nsamples 0 = 0 ∧ nsamples 1 = 0 ∧ nsamples 2 = 2 ∧ nsamples 7 = 12 ∧ nsamples 8 = 14 ∧ nsamples 9 = 14 ∧
    nsamples 10 = 16 ∧ nsamples 0x2000 = 14336 ∧ counterView (nsamples (2 ^ 32 - 1)) = 0xBFFFFFFE := by
  decide

/-! ## Small blocks -/

/-- An engine in RUN over the payload bytes, all of them to be decoded. -/
def running (bytes : List Byte) (pos : Nat) : Channel :=
  { Channel.afterReset (Memory.ofBytes bytes) with len := BitVec.ofNat 32 bytes.length, state := .run, pos := pos }

/-- A block of two channels, the second after reset. -/
def block (depth : QueueDepth) (ch : Channel) (pending : List Event) : State :=
  { State.fresh depth [] with channels := [ch, Channel.afterReset Memory.empty], pending := pending }

/-- Channel 0 of the state an answer goes on to. -/
def chan0 (r : Result) : Option Channel := (nextOf r).bind (fun t => t.channel? 0)

/-- V82's payload, and V40's coefficients and history. -/
def engine : Channel := { running [0x12, 0x34] 0 with coef := (Vector.replicate 16 (0 : Sample)).set 2 4096 |>.set 3 (-2048), hist1 := 1000, hist2 := 500 }

/-! ## Engine steps -/

theorem test_hdr :
    (chan0 (exec (.hdr 0 1 2) (block .unbounded engine []))).map (fun ch => (ch.ps, ch.pos, ch.state, ch.hist1))
      = some (0x12, 1, .run, 1000) := by
  decide

/-- V80: PRED, STATUS 0x00010903, the byte latched and not consumed. -/
theorem test_hdr_badpred :
    (chan0 (exec (.hdrBadpred 0 0 0) (block .unbounded engine []))).map (fun ch => (ch.ps, ch.pos, ch.status .unbounded))
      = some (0x80, 0, 0x00010903) := by
  decide

/-- V40: header 0x12, nibble 2, pair 1 and the history 1000, 500 give 1508. -/
theorem test_data_hi :
    (chan0 (exec (.dataHi 0 2 5) (block .unbounded { engine with ps := 0x12, pos := 1 } []))).map
      (fun ch => ((ch.outq, ch.hist1, ch.hist2), (ch.db, ch.nph, ch.pos, ch.scount)))
      = some (([1508], 1508, 1000), (0x25, true, 2, 1)) := by
  decide

/-- V82: RANGE, STATUS 0x00020A03. -/
theorem test_data_hi_range :
    (chan0 (exec (.dataHi 0 2 5) (block .unbounded { engine with pos := 2, len := 8 } []))).map
      (fun ch => (ch.status .unbounded, ch.pos, ch.db)) = some (0x00020A03, 2, 0) := by
  decide

/-- V42: header 0x02, the low nibble 2 of the latch, pair 0. -/
theorem test_data_lo :
    (chan0 (exec (.dataLo 0) (block .unbounded { engine with ps := 0x02, pos := 2, nph := true, db := 0x52 } []))).map
      (fun ch => (ch.outq, ch.hist1, ch.hist2, ch.nph, ch.pos)) = some ([8], 8, 1000, false, 2) := by
  decide

theorem test_end :
    (chan0 (exec (.endRun 0) (block .unbounded { engine with pos := 2 } []))).map (fun ch => (ch.state, ch.pos, ch.hist1))
      = some (.done, 2, 1000) := by
  decide

/-! ## Host accesses to a channel (95_test_vectors.md 2.8) -/

/-- What a read of channel 0's window returns. -/
def reads (i : Instr) (s : State) : Option Word := (nextOf (exec i s)).bind (fun t => t.rdata)

/-- V91 to V96: writes keep the low 16 bits and reads extend them. -/
theorem test_config_writes :
    reads (.chHist1R 0) (block .unbounded { engine with hist1 := sampleStored 0x00018000 } []) = some 0xFFFF8000 ∧
    (chan0 (exec (.chHist1W 0 0x00018000) (block .unbounded { engine with state := .idle } []))).map (·.hist1)
      = some 0x8000 ∧
    (chan0 (exec (.chHist2W 0 0x12345678) (block .unbounded { engine with state := .done } []))).map (·.hist2)
      = some 0x5678 ∧
    (chan0 (exec (.chCoefW 0 2 0xFFFFF800) (block .unbounded { engine with state := .fault } []))).map (·.coef[2])
      = some (-2048) := by
  decide

theorem test_base_len_srate :
    (chan0 (exec (.chBaseW 0 0x60) (block .unbounded { engine with state := .idle } []))).map (·.base) = some 0x60 ∧
    (chan0 (exec (.chLenW 0 0x10) (block .unbounded { engine with state := .idle } []))).map (·.len) = some 0x10 ∧
    (chan0 (exec (.chSrateW 0 0x7D00) (block .unbounded { engine with state := .idle } []))).map (·.srate)
      = some 0x7D00 := by
  decide

/-- V107, V108: a configuration write in RUN sets F_CFGW and nothing else. -/
theorem test_config_write_in_run :
    (chan0 (exec (.chLenW 0 16) (block (.bounded 1) { engine with outq := [1] } []))).map
      (fun ch => (ch.len, ch.status (.bounded 1))) = some (2, 0x00001401) := by
  decide

/-- V105, V109: START begins a run and is ignored in RUN. -/
theorem test_start :
    (chan0 (exec (.chCtrlStart 0 1) (block .unbounded { engine with state := .done, pos := 2, ps := 0x12, scount := 2 } []))).map
      (fun ch => (ch.state, ch.pos, ch.ps, ch.scount, ch.hist1)) = some (.run, 0, 0, 0, 1000) ∧
    (chan0 (exec (.chCtrlStart 0 1) (block .unbounded { engine with pos := 1 } []))).map (·.pos) = some 1 := by
  decide

/-- V113, V114: ABORT keeps counters, history and configuration. -/
theorem test_abort :
    (chan0 (exec (.chCtrlAbort 0 3)
      (block .unbounded { engine with state := .done, pos := 2, scount := 2, fCfgw := true, outq := [7] } []))).map
      (fun ch => ((ch.status .unbounded, ch.pos, ch.scount), (ch.hist1, ch.len, ch.outq)))
      = some ((0x00000800, 2, 2), (1000, 2, [])) ∧
    (chan0 (exec (.chCtrlNop 0 4) (block .unbounded engine []))).map (·.state) = some .run := by
  decide

theorem test_channel_reads :
    reads (.chCtrlR 0) (block .unbounded engine []) = some 0 ∧
    reads (.chStatusR 0) (block (.bounded 1) { engine with outq := [1] } []) = some 0x00001001 ∧
    reads (.chBaseR 0) (block .unbounded { engine with base := 0xFFFFFFFF } []) = some 0xFFFFFFFF ∧
    reads (.chLenR 0) (block .unbounded engine []) = some 2 ∧
    reads (.chSrateR 0) (block .unbounded { engine with srate := 32000 } []) = some 0x7D00 ∧
    reads (.chHist2R 0) (block .unbounded { engine with hist2 := -5 } []) = some 0xFFFFFFFB ∧
    reads (.chCoefR 0 3) (block .unbounded engine []) = some 0xFFFFF800 := by
  decide

theorem test_counter_reads :
    reads (.chPosR 0) (block .unbounded { engine with pos := 2 ^ 32 + 5 } []) = some 5 ∧
    reads (.chScountR 0) (block .unbounded { engine with scount := 7516192766 } []) = some 0xBFFFFFFE ∧
    reads (.chPsR 0) (block .unbounded { engine with ps := 0x95 } []) = some 0x95 := by
  decide

/-- The OUT encodings at the end of 95_test_vectors.md 2.8, and V97. -/
theorem test_out_read :
    reads (.chOutR 0) (block .unbounded { engine with outq := [-3, 9] } []) = some 0x0001FFFD ∧
    (chan0 (exec (.chOutR 0) (block .unbounded { engine with outq := [-3, 9] } []))).map (·.outq) = some [9] ∧
    reads (.chOutR 0) (block .unbounded { engine with outq := [-32768] } []) = some 0x00018000 ∧
    reads (.chOutR 0) (block .unbounded engine []) = some 0 := by
  decide

/-- V99 and R151: writes to read-only registers are ignored. -/
theorem test_read_only_writes :
    ([Instr.chStatusW 0 5, .chPosW 0 5, .chScountW 0 5, .chPsW 0 5, .chOutW 0 5].all
      (fun i => decide ((chan0 (exec i (block .unbounded engine []))).map (fun ch => (ch.pos, ch.scount, ch.ps, ch.fCfgw))
        = some (0, 0, 0, false)))) = true := by
  decide

/-! ## Multiplexer (95_test_vectors.md 2.9) -/

/-- Two channels of the given rates and lengths, and a multiplexer configuration. -/
def pair (r0 r1 l0 l1 : Word) (mnch : BitVec 8) (msrc : BitVec 16) : State :=
  { State.fresh .unbounded [] with
    channels := [{ Channel.afterReset Memory.empty with srate := r0, len := l0 },
      { Channel.afterReset Memory.empty with srate := r1, len := l1 }]
    mux := { Mux.afterReset with mnch := mnch, msrc := msrc } }

/-- MUX_STATUS after a START. -/
def startStatus (s : State) : Option Word := (nextOf (exec (.muxCtrlStart 1) s)).map (fun t => t.mux.status)

/-- V120 to V127. -/
theorem test_mux_start :
    startStatus (pair 32000 32000 8 8 2 3) = some 0x00000001 ∧ startStatus (pair 32000 32000 8 9 2 3) = some 0x00000001 ∧
    startStatus (pair 32000 32000 8 16 2 3) = some 0x00030403 ∧
    startStatus (pair 32000 48000 8 8 2 3) = some 0x00020203 ∧ startStatus (pair 32000 0 8 0 2 1) = some 0x00010103 ∧
    startStatus (pair 0 0 0 0 0 0) = some 0x00010103 ∧ startStatus (pair 0 0 0 0 1 4) = some 0x00010103 ∧
    startStatus (pair 32000 48000 8 16 3 3) = some 0x00010703 := by
  decide

/-- A multiplexer run with both queues filled. -/
def interleaving : State :=
  { State.fresh .unbounded [] with
    channels := [{ Channel.afterReset Memory.empty with outq := [1, 2] }, { Channel.afterReset Memory.empty with outq := [-1] }]
    mux := { Mux.afterReset with mnch := 2, msrc := 3, chlist := [0, 1], ml := 14, mstate := .run }
    pending := [.mux] }

/-- P2: the first byte pair of channel 0; P5: SRC, with the cause 4. -/
theorem test_mux_step :
    (nextOf (step interleaving)).map (fun t => (t.muxOut, t.mux.mj, t.mux.mi, t.mux.ocount)) = some ([0x01, 0x00], 1, 0, 1) ∧
    (nextOf (step { interleaving with channels := [{ Channel.afterReset Memory.empty with state := .fault }] })).map
      (fun t => t.mux.status) = some 0x00040803 ∧
    (nextOf (step { interleaving with mux := { interleaving.mux with ml := 0 } })).map (fun t => t.mux.mstate)
      = some .done := by
  decide

/-- V102, V103, V129. -/
theorem test_mux_config :
    (nextOf (exec (.muxCfgW 0x0003FF02) (pair 0 0 0 0 0 0))).map (fun t => t.mux.cfgWord) = some 0x00030002 ∧
    (nextOf (exec (.muxCfgW 0x00010001) interleaving)).map (fun t => (t.mux.status, t.mux.mnch)) = some (0x00001001, 2) := by
  decide

/-- P5 step 8: ABORT keeps OCOUNT. -/
theorem test_mux_abort :
    (nextOf (exec (.muxCtrlAbort 2) { interleaving with mux := { interleaving.mux.raiseSrc with ocount := 8 } })).map
      (fun t => (t.mux.status, t.mux.ocount, t.mux.chlist, t.mux.mnch)) = some (0, 8, [], 2) ∧
    (nextOf (exec (.muxCtrlNop 0) interleaving)).map (fun t => t.mux.status) = some 1 := by
  decide

theorem test_global_reads :
    reads .idR (pair 0 0 0 0 0 0) = some 2 ∧ reads .muxCtrlR interleaving = some 0 ∧
    reads .muxCfgR (pair 0 0 0 0 2 3) = some 0x00030002 ∧ reads .muxStatusR interleaving = some 1 ∧
    reads .muxOcountR { interleaving with mux := { interleaving.mux with ocount := 2 ^ 32 + 28 } } = some 0x1C ∧
    reads (.rsvdR 0x102C) interleaving = some 0 := by
  decide

theorem test_ignored_global_writes :
    ([Instr.idW 5, .globalRoW false 5, .globalRoW true 5, .rsvdW 0x100 5].all
      (fun i => decide ((nextOf (exec i interleaving)).map (fun t => (t.mux, t.rdata)) = some (interleaving.mux, none))))
      = true := by
  decide

/-! ## Witnesses: each theorem meets all the hypotheses of the statement it names -/

theorem hasRoom_of_unbounded (ch : Channel) : hasRoom .unbounded ch := by
  intro n h
  cases h

theorem witness_DecodeOfEncodeIsTheInstruction :
    Instr.wellFormed 16 (.chCoefW 15 15 0xFFFFFFFF) = true ∧ Instr.wellFormed 2 (.rsvdR 0x1FFC) = true ∧
    Instr.wellFormed 1 (.hdrBadpred 0 7 15) = true := by
  decide

theorem witness_EncodeOfDecodeIsTheUnit :
    decode 1 (.access (accessKey true 0x107C 0xFFFFFFFF)) = .instr (.chCoefW 0 15 0xFFFFFFFF) ∧
    decode 16 (.access (accessKey false 0x1FFC 0xFFFFFFFF)) = .instr (.rsvdR 0x1FFC) ∧
    decode 1 (.header 0 0x7F) = .instr (.hdr 0 7 15) := by
  decide

theorem witness_DecoderFollowsOpcodeTable : (keyAddr (accessKey true 0x1FFC 3)).toNat % 4 = 0 := by decide

/-- An access that meets every condition of R62. -/
def legalAccess : Access := { write := true, addr := 0x1FFC, width := 4, data := 7 }

theorem witness_StepRunsDecodedInstruction_host :
    (block .unbounded engine [.host legalAccess]).pending = .host legalAccess :: [] ∧ legalAccess.width = 4 ∧
    legalAccess.addr < 0x2000 ∧
    decode 2 (.access (accessKey true (BitVec.ofNat 13 legalAccess.addr) 7)) = .instr (.rsvdW 0x1FFC 7) := by
  decide

theorem witness_StepRunsDecodedInstruction_dataLo :
    (block .unbounded { engine with nph := true } [.engine 0]).channel? 0 = some { engine with nph := true } ∧
    ({ engine with nph := true } : Channel).selects = some .dataLo ∧ decode 2 (.latched 0) = .instr (.dataLo 0) :=
  ⟨rfl, by decide, by decide⟩

theorem witness_StepRunsDecodedInstruction_end :
    (block .unbounded { engine with pos := 2 } [.engine 0]).channel? 0 = some { engine with pos := 2 } ∧
    ({ engine with pos := 2 } : Channel).selects = some .finish ∧ decode 2 (.ended 0) = .instr (.endRun 0) :=
  ⟨rfl, by decide, by decide⟩

theorem witness_StepRunsDecodedInstruction_hdr :
    (block .unbounded engine [.engine 0]).channel? 0 = some engine ∧ engine.selects = some .hdr ∧
    engine.pm.read (engine.base.toNat + engine.pos) = some 0x12 ∧ decode 2 (.header 0 0x12) = .instr (.hdr 0 1 2) :=
  ⟨rfl, by decide, by decide, by decide⟩

theorem witness_StepRunsDecodedInstruction_dataHi :
    (block .unbounded { engine with pos := 1 } [.engine 0]).channel? 0 = some { engine with pos := 1 } ∧
    ({ engine with pos := 1 } : Channel).selects = some .dataHi ∧ hasRoom .unbounded { engine with pos := 1 } ∧
    engine.pm.read (engine.base.toNat + 1) = some 0x34 ∧ decode 2 (.data 0 0x34) = .instr (.dataHi 0 3 4) :=
  ⟨rfl, by decide, hasRoom_of_unbounded _, by decide, by decide⟩

/-- SequencerSelectsInOrder: a channel of each of the five cases, in a block whose engine 0 moves next. -/
theorem witness_SequencerSelectsInOrder :
    (∀ ch ∈ [{ engine with state := .done }, { engine with nph := true, pos := 2 }, { engine with pos := 2 }, engine,
        { engine with pos := 1 }],
      (block .unbounded ch [.engine 0]).channel? 0 = some ch ∧ (block .unbounded ch [.engine 0]).pending = .engine 0 :: []) ∧
    Channel.state { engine with state := .done } ≠ .run ∧
    (Channel.state { engine with nph := true, pos := 2 } = .run ∧ Channel.nph { engine with nph := true, pos := 2 } = true) ∧
    (engine.state = .run ∧ Channel.nph { engine with pos := 2 } = false ∧ Channel.pos { engine with pos := 2 } = engine.len.toNat) ∧
    (engine.nph = false ∧ engine.pos ≠ engine.len.toNat ∧ engine.pos % 8 = 0) ∧
    (Channel.pos { engine with pos := 1 } ≠ engine.len.toNat ∧ Channel.pos { engine with pos := 1 } % 8 ≠ 0) :=
  ⟨fun _ _ => ⟨rfl, rfl⟩, by decide⟩

theorem witness_HeldMultiplexerChangesNothing_mux :
    (block .unbounded engine []).pending = [] ∧ (block .unbounded engine [.mux]).pending = .mux :: [] ∧
    (block .unbounded engine [.mux]).mux.mstate ≠ .run := by
  decide

theorem witness_HeldMultiplexerChangesNothing_emptyQueue :
    let s := { interleaving with channels := [Channel.afterReset Memory.empty] }
    s.pending = .mux :: [] ∧ s.mux.mstate = .run ∧ s.mux.mi ≠ s.mux.ml ∧ s.mux.chlist[s.mux.mj]? = some 0 ∧
    s.channel? 0 = some (Channel.afterReset Memory.empty) ∧ (Channel.afterReset Memory.empty).outq = [] ∧
    (Channel.afterReset Memory.empty).state ≠ .fault :=
  ⟨rfl, rfl, by decide, rfl, rfl, rfl, by decide⟩

theorem witness_SequencerSelectsInOrder_hold :
    (block (.bounded 1) { engine with outq := [5], nph := true } [.engine 0]).channel? 0
      = some { engine with outq := [5], nph := true } ∧ engine.state = .run ∧
    ¬ hasRoom (.bounded 1) { engine with outq := [5], nph := true } :=
  ⟨rfl, rfl, fun h => absurd (h 1 rfl) (by decide)⟩

/-- OnlyUndefinedAccessesAreRefused: the highest legal access, and one access of each refused kind, next to it. -/
theorem witness_OnlyUndefinedAccessesAreRefused :
    (block .unbounded engine [.host legalAccess]).pending = .host legalAccess :: [] ∧
    (legalAccess.width = 4 ∧ legalAccess.addr % 4 = 0 ∧ legalAccess.addr < 0x2000) ∧
    Access.width { legalAccess with width := 2 } ≠ 4 ∧ Access.addr { legalAccess with addr := 0x1FFD } % 4 ≠ 0 ∧
    0x2000 ≤ Access.addr { legalAccess with addr := 0x2000 } := by
  decide

theorem witness_ReservedReadsZeroIgnoresWrites :
    legalAccess.width = 4 ∧ legalAccess.addr < 0x2000 ∧ reservedAddr 16 (BitVec.ofNat 13 legalAccess.addr) = true ∧
    reservedAddr 2 0x1204 = true ∧ reservedAddr 16 0x0004 = true ∧ reservedAddr 16 0x102C = true := by
  decide

/-- HdrLatchesAndConsumesItsByte: the byte readable with bit 7 clear and set, and outside `PM_c` by one. -/
theorem witness_HdrLatchesAndConsumesItsByte :
    (∀ ch ∈ [engine, { engine with pm := Memory.ofBytes [0x80] }, { engine with base := 2 }],
      (block .unbounded ch [.engine 0]).channel? 0 = some ch ∧ (block .unbounded ch [.engine 0]).pending = .engine 0 :: []) ∧
    engine.state = .run ∧ engine.nph = false ∧ engine.pos ≠ engine.len.toNat ∧ engine.pos % 8 = 0 ∧
    engine.base.toNat + engine.pos < engine.pm.size ∧ engine.pm.read (engine.base.toNat + engine.pos) = some 0x12 ∧
    (Memory.ofBytes [0x80]).read (engine.base.toNat + engine.pos) = some 0x80 ∧
    engine.pm.size ≤ (2 : Word).toNat + engine.pos ∧ engine.pm.read ((2 : Word).toNat + engine.pos) = none :=
  ⟨fun _ _ => ⟨rfl, rfl⟩, by decide⟩

/-- DataHiDecodesHighNibble: the byte readable, outside `PM_c` by one, and the queue full. -/
theorem witness_DataHiDecodesHighNibble :
    (∀ depth, ∀ ch ∈ [{ engine with pos := 1 }, { engine with pos := 1, base := 1 }, { engine with pos := 1, outq := [5] }],
      (block depth ch [.engine 0]).channel? 0 = some ch ∧ (block depth ch [.engine 0]).pending = .engine 0 :: []) ∧
    (∀ ch, hasRoom (block .unbounded ch [.engine 0]).fifoDepth ch) ∧
    ¬ hasRoom (.bounded 1) { engine with pos := 1, outq := [5] } ∧
    engine.state = .run ∧ engine.nph = false ∧ (1 : Nat) ≠ engine.len.toNat ∧ (1 : Nat) % 8 ≠ 0 ∧
    engine.ps.getLsbD 7 = false ∧ engine.base.toNat + 1 < engine.pm.size ∧
    engine.pm.read (engine.base.toNat + 1) = some 0x34 ∧ engine.pm.size ≤ (1 : Word).toNat + 1 ∧
    engine.pm.read ((1 : Word).toNat + 1) = none :=
  ⟨fun _ _ _ => ⟨rfl, rfl⟩, hasRoom_of_unbounded, fun h => absurd (h 1 rfl) (by decide), by decide⟩

/-- DataLoDecodesLatchedNibble: the queue with room, and full. -/
theorem witness_DataLoDecodesLatchedNibble :
    (block .unbounded { engine with nph := true } []).channel? 0 = some { engine with nph := true } ∧
    (block (.bounded 1) { engine with nph := true, outq := [5] } []).channel? 0
      = some { engine with nph := true, outq := [5] } ∧ engine.state = .run ∧
    hasRoom .unbounded { engine with nph := true } ∧ ¬ hasRoom (.bounded 1) { engine with nph := true, outq := [5] } ∧
    engine.ps.getLsbD 7 = false :=
  ⟨rfl, rfl, rfl, hasRoom_of_unbounded _, fun h => absurd (h 1 rfl) (by decide), by decide⟩

theorem witness_EndOnlySetsDone :
    (block .unbounded { engine with pos := 2 } []).channel? 0 = some { engine with pos := 2 } ∧ engine.state = .run ∧
    engine.nph = false ∧ Channel.pos { engine with pos := 2 } = engine.len.toNat :=
  ⟨rfl, rfl, rfl, by decide⟩

theorem witness_SampleIsThePredictorRecurrence : (Channel.ps { engine with ps := 0x7F }).getLsbD 7 = false := by decide

theorem witness_UnreadableByteTakesRange :
    (block .unbounded { engine with base := 2 } [.engine 0]).channel? 0 = some { engine with base := 2 } ∧
    engine.state = .run ∧ engine.nph = false ∧ engine.pos ≠ engine.len.toNat ∧ engine.pos % 8 = 0 ∧
    engine.pm.size ≤ (2 : Word).toNat + engine.pos ∧
    hasRoom .unbounded { engine with base := 1, pos := 1 } ∧ engine.pm.size ≤ (1 : Word).toNat + 1 :=
  ⟨rfl, by decide, by decide, by decide, by decide, by decide, hasRoom_of_unbounded _, by decide⟩

theorem witness_EngineInstructionFrame :
    (∃ t, exec (.hdr 0 1 2) (block .unbounded engine []) = .next t) ∧
    (∃ t, exec (.hdrBadpred 0 1 2) (block .unbounded engine []) = .next t) ∧
    (∃ t, exec (.dataHi 0 1 2) (block .unbounded { engine with pos := 1 } []) = .next t) ∧
    (∃ t, exec (.dataLo 0) (block .unbounded { engine with nph := true } []) = .next t) ∧
    (∃ t, exec (.endRun 0) (block .unbounded { engine with pos := 2 } []) = .next t) :=
  ⟨⟨_, rfl⟩, ⟨_, rfl⟩, ⟨_, rfl⟩, ⟨_, rfl⟩, ⟨_, rfl⟩⟩

theorem witness_EngineStepsCommute :
    (0 : Chan) ≠ 1 ∧ ∃ t, runSteps 2 (block .unbounded engine [.engine 0, .engine 1]) = .next t :=
  ⟨by decide, _, rfl⟩

theorem witness_EngineStepSeesOnlyItsChannel :
    (block .unbounded engine [.engine 0]).channel? 0 = ({ interleaving with channels := [engine], pending := [.engine 0, .mux] } : State).channel? 0 ∧
    (block .unbounded engine [.engine 0]).fifoDepth = interleaving.fifoDepth ∧
    ∃ t, step (block .unbounded engine [.engine 0]) = .next t :=
  ⟨rfl, rfl, _, rfl⟩

/-- A run about to end: both bytes consumed and both samples pushed. -/
def endingBlock : State := block .unbounded { engine with pos := 2, scount := 2, outq := [5, 6] } [.engine 0]

theorem afterReset_inv (depth : QueueDepth) : (Channel.afterReset Memory.empty).Inv depth := by
  refine ⟨by decide, ?_, ?_, ?_, ?_, ?_, ?_, ?_⟩ <;> simp [Channel.afterReset]
  cases depth <;> simp [withinDepth]

theorem muxReset_inv (n : Nat) : Mux.afterReset.Inv n := by
  refine ⟨?_, ?_, ?_, ?_, ?_, ?_, ?_, ?_, ?_, ?_, ?_⟩ <;> simp [Mux.afterReset]

theorem witness_DoneRunPushedAllSamples :
    endingBlock.Inv ∧ endingBlock.channel? 0 = some { engine with pos := 2, scount := 2, outq := [5, 6] } ∧
    engine.state = .run ∧ engine.nph = false ∧ (2 : Nat) = engine.len.toNat := by
  refine ⟨⟨by decide, rfl, ?_, muxReset_inv _⟩, rfl, rfl, rfl, by decide⟩
  intro ch hch
  simp only [endingBlock, block, List.mem_cons, List.not_mem_nil, or_false] at hch
  rcases hch with rfl | rfl
  · refine ⟨by decide, trivial, fun _ => by decide, ?_, ?_, ?_, ?_, fun _ => by decide⟩ <;>
      simp [engine, running, Channel.afterReset]
  · exact afterReset_inv _

/-- SampleCountOfLength: both ends of the range of `r`. -/
theorem witness_SampleCountOfLength :
    (1 ≤ 1 ∧ 1 ≤ 7 ∧ nsamples (3 * 8 + 1) = 42) ∧ 1 ≤ 7 ∧ 7 ≤ 7 ∧ nsamples (3 * 8 + 7) = 54 := by decide

theorem witness_FullRunDecodesThePayload :
    let bs : List Byte := [0x12, 0x34]
    let s := block .unbounded engine (List.replicate (refSteps 0 bs) (.engine 0) ++ [.mux])
    s.channel? 0 = some engine ∧ engine.state = .run ∧ engine.pos = 0 ∧ engine.nph = false ∧ engine.scount = 0 ∧
    s.fifoDepth = .unbounded ∧ bs.length = engine.len.toNat ∧
    (∀ i < bs.length, engine.pm.read (engine.base.toNat + i) = bs[i]?) ∧ headersExist 0 bs = true :=
  ⟨rfl, rfl, rfl, rfl, rfl, rfl, by decide, by decide, by decide⟩

theorem block_inv {depth : QueueDepth} {ch : Channel} {es : List Event} (hd : depth.legal = true) (h : ch.Inv depth) :
    (block depth ch es).Inv := by
  refine ⟨rfl, hd, ?_, muxReset_inv _⟩
  intro x hx
  simp only [block, List.mem_cons, List.not_mem_nil, or_false] at hx
  rcases hx with rfl | rfl
  · exact h
  · exact afterReset_inv _

/-- RunResultIsScheduleIndependent: a one-byte run, once straight and once at depth 1 with a host read and the multiplexer between. -/
theorem witness_RunResultIsScheduleIndependent :
    let x := running [0x12] 0
    let s1 := block .unbounded x [.engine 0, .engine 0]
    let s2 := block (.bounded 1) { x with outq := [9] } [.engine 0, hostRead 0x1028, .mux, .engine 1, .engine 0]
    s1.Inv ∧ s1.channel? 0 = some x ∧ s2.channel? 0 = some { x with outq := [9] } ∧ x.state = .run ∧
    turnsAndReads s1.pending ∧ turnsAndReads s2.pending ∧
    (∃ t y, runSteps 2 s1 = .next t ∧ t.channel? 0 = some y ∧ y.state ≠ .run) ∧
    (∃ t y, runSteps 5 s2 = .next t ∧ t.channel? 0 = some y ∧ y.state ≠ .run) := by
  refine ⟨block_inv rfl ?_, rfl, rfl, rfl, ?_, ?_, ⟨_, _, rfl, rfl, by decide⟩, ⟨_, _, rfl, rfl, by decide⟩⟩
  · refine ⟨by decide, trivial, fun _ => by decide, ?_, ?_, ?_, ?_, fun _ => by decide⟩ <;>
      simp [running, Channel.afterReset]
  · simp [turnsAndReads, block]
  · simp [turnsAndReads, block, hostRead]

/-- 40_decode_datapath.md R104, R105: the byte 0x17 under the header 0x00 gives 1, then 7; a run into a bad header (R103) gives no more. -/
theorem test_samples_ahead :
    (running [0x00, 0x17] 0).samplesAhead = [1, 7] ∧
    ({ running [0x00, 0x17] 2 with nph := true, db := 0x17 } : Channel).samplesAhead = [7] ∧
    (running [0x80, 0x17] 0).samplesAhead = [] ∧
    ({ running [0x00, 0x17] 0 with len := 9 } : Channel).samplesAhead = [1, 7] := by
  decide

/-- A stream of one frame and a lone header byte. -/
def stream : Channel := running [0x00, 1, 2, 3, 4, 5, 6, 7, 0x00] 0

/-- ResumedDecodeContinues: the frame alone, up to DONE; then BASE and LEN of what is left, START, and the run of that. -/
theorem witness_ResumedDecodeContinues :
    let first := List.replicate 16 (Event.engine 0)
    let second := [Event.engine 0, .engine 0]
    let s2 := block .unbounded { stream.start with len := BitVec.ofNat 32 (8 * 1), outq := [] }
      (first ++ hostWrite (channelReg 0 0x08) 8 :: hostWrite (channelReg 0 0x0C) 1 :: startChannel 0 :: second)
    let s1 := block .unbounded stream.start (List.replicate 17 (Event.engine 0))
    8 * 1 ≤ stream.len.toNat ∧ (8 : Word).toNat = stream.base.toNat + 8 * 1 ∧
    (1 : Word).toNat = stream.len.toNat - 8 * 1 ∧ turnsAndReads first ∧ turnsAndReads second ∧
    (∃ t2 y2 t3 y3, runSteps first.length s2 = .next t2 ∧ t2.channel? 0 = some y2 ∧ y2.state = .done ∧
      runSteps (3 + 2) t2 = .next t3 ∧ t3.channel? 0 = some y3 ∧ y3.state ≠ .run) ∧
    s1.channel? 0 = some stream.start ∧ turnsAndReads s1.pending ∧
    ∃ t1 y1, runSteps 17 s1 = .next t1 ∧ t1.channel? 0 = some y1 ∧ y1.state ≠ .run := by
  refine ⟨by decide, by decide, by decide, ?_, ?_,
    ⟨_, _, _, _, rfl, rfl, rfl, rfl, rfl, by decide⟩, rfl, ?_, _, _, rfl, rfl, by decide⟩ <;>
    simp +contextual [turnsAndReads, block]

theorem witness_PayloadIsNotWrittenDuringRun :
    (∃ t, step (block .unbounded engine [.engine 0]) = .next t) ∧
    (block .unbounded engine [.engine 0]).channel? 0 = some engine ∧ engine.state = .run :=
  ⟨⟨_, rfl⟩, rfl, rfl⟩

/-- ConfigurationConstantDuringRun: a configuration write to the running engine. -/
theorem witness_ConfigurationConstantDuringRun :
    let s := block .unbounded engine [hostWrite 0x100C 16]
    (∃ t, step s = .next t) ∧ s.pending.head? ≠ some .reset ∧ s.channel? 0 = some engine ∧ engine.state = .run :=
  ⟨⟨_, rfl⟩, by decide, rfl, rfl⟩

/-- A faulted engine, a START of which comes next. -/
def faulted : State :=
  block .unbounded { running [0x80] 0 with state := .fault, fPred := true, cause := .pred } [hostWrite 0x1000 1]

theorem faulted_inv : faulted.Inv := by
  refine block_inv rfl ?_
  refine ⟨by decide, trivial, ?_, ?_, ?_, ?_, ?_, fun _ => by decide⟩ <;> simp [running, Channel.afterReset]

/-- FaultFlagsAreSticky: an engine turn, a multiplexer turn, and a host access that is no ABORT, to an engine in FAULT. -/
theorem witness_FaultFlagsAreSticky :
    (∃ t, step (block .unbounded engine [.engine 0]) = .next t) ∧ (∃ t, step interleaving = .next t) ∧
    faulted.Inv ∧ faulted.pending.head? ≠ some .reset ∧ (∃ t, step faulted = .next t) ∧
    (∀ d, faulted.nextInstr ≠ some (.chCtrlAbort 0 d)) ∧ ∀ d, faulted.nextInstr ≠ some (.muxCtrlAbort d) := by
  have h : faulted.nextInstr = some (.chCtrlStart 0 1) := by decide
  refine ⟨⟨_, rfl⟩, ⟨_, rfl⟩, faulted_inv, by decide, ⟨_, rfl⟩, ?_, ?_⟩ <;> intro d <;> rw [h] <;> simp

theorem witness_OnlyMultiplexerAppendsOutput : ∃ t, step interleaving = .next t := ⟨_, rfl⟩

theorem witness_EndedRunKeepsItsResults :
    let s := block .unbounded { engine with state := .done } [hostWrite 0x1014 5]
    (∃ t, step s = .next t) ∧ s.channel? 0 = some { engine with state := .done } ∧ s.pending.head? ≠ some .reset ∧
    (∀ d, s.nextInstr ≠ some (.chCtrlStart 0 d)) ∧ (∀ d, s.nextInstr ≠ some (.chCtrlAbort 0 d)) := by
  have h : (block .unbounded { engine with state := .done } [hostWrite 0x1014 5]).nextInstr = some (.chHist1W 0 5) := by
    decide
  refine ⟨⟨_, rfl⟩, rfl, by decide, ?_, ?_⟩ <;> intro d <;> rw [h] <;> simp

theorem witness_ResetMeetsInvariant :
    QueueDepth.legal (.bounded 1) = true ∧ legalChannelCount [Memory.ofBytes [0, 1]].length = true ∧
    ∀ m ∈ [Memory.ofBytes [0, 1]], m.wf = true := by
  decide

theorem interleaving_inv : interleaving.Inv := by
  refine ⟨by decide, rfl, ?_, ?_⟩
  · intro ch hch
    simp only [interleaving, List.mem_cons, List.not_mem_nil, or_false] at hch
    rcases hch with rfl | rfl <;>
      (refine ⟨by decide, trivial, ?_, ?_, ?_, ?_, ?_, ?_⟩ <;> simp [Channel.afterReset])
  · refine ⟨by decide, by decide, fun _ => by decide, ?_, ?_, ?_, ?_, ?_, ?_, ?_, ?_⟩ <;>
      simp [interleaving, Mux.afterReset]

/-- InterleaveOrderFollowsCount: the first sample of a run over two channels. -/
theorem witness_InterleaveOrderFollowsCount :
    interleaving.Inv ∧ interleaving.pending = .mux :: [] ∧ interleaving.mux.mstate = .run ∧
    (∃ t, step interleaving = .next t ∧ t.muxOut ≠ interleaving.muxOut) ∧
    interleaving.mux.ocount < interleaving.mux.ml * interleaving.mux.chlist.length ∧
    interleaving.mux.chlist[interleaving.mux.ocount % interleaving.mux.chlist.length]? = some 0 ∧
    interleaving.channel? 0 = some { Channel.afterReset Memory.empty with outq := [1, 2] } :=
  ⟨interleaving_inv, rfl, rfl, ⟨_, rfl, by decide⟩, by decide, rfl, rfl⟩

/-- StepKeepsTheInvariant and NoStepFaultsUnderTheInvariant. -/
theorem witness_invariant_statements :
    interleaving.Inv ∧ interleaving.mux.mstate = .run ∧ ∃ t, step interleaving = .next t :=
  ⟨interleaving_inv, rfl, _, rfl⟩

theorem witness_ResetSetsEveryRegister :
    (block (.bounded 1) engine [.reset]).pending = .reset :: [] ∧ (block (.bounded 1) engine [.reset]).channel? 0 = some engine ∧
    (block (.bounded 1) engine [.reset]).fifoDepth.legal = true ∧
    (1 : Chan).toNat < (block (.bounded 1) engine [.reset]).nchMax :=
  ⟨rfl, rfl, by decide, by decide⟩

theorem witness_NoAgentMovesAfterReset : (1 : Chan).toNat < (block .unbounded engine []).nchMax := by decide

/-- ChannelStartBeginsARun, ChannelAbortReturnsToIdle, ConfigurationWriteStores, ConfigurationWriteIgnoredInRun, ConfigurationReadsReturnStored and CounterReadsReturnViews. -/
theorem witness_channel_statements :
    (block .unbounded { engine with state := .idle } []).channel? 0 = some { engine with state := .idle } ∧
    (block .unbounded { engine with state := .fault } []).channel? 0 = some { engine with state := .fault } ∧
    Channel.state { engine with state := .idle } ≠ .run ∧ (block .unbounded engine []).channel? 0 = some engine ∧
    engine.state = .run :=
  ⟨rfl, rfl, by decide, rfl, rfl⟩

/-- ChannelStatusFields: a queue that holds `FIFO_DEPTH` samples, and an unbounded one. -/
theorem witness_ChannelStatusFields :
    (block (.bounded 1) { engine with outq := [5] } []).channel? 0 = some { engine with outq := [5] } ∧
    withinDepth (.bounded 1) (Channel.outq { engine with outq := [5] }).length ∧
    (block .unbounded engine []).channel? 0 = some engine ∧ withinDepth .unbounded engine.outq.length :=
  ⟨rfl, by simp [withinDepth], rfl, trivial⟩

theorem witness_OutReadPopsOneSample :
    (interleaving.mux.mstate = .run ∧ (1 : Chan) ∈ interleaving.mux.chlist ∧ (interleaving.channel? 1).isSome = true) ∧
    ((block .unbounded engine []).channel? 0 = some engine ∧ engine.outq = []) ∧
    ((block .unbounded { engine with outq := [5, 6] } []).channel? 0 = some { engine with outq := [5, 6] } ∧
      ¬ ((block .unbounded engine []).mux.mstate = .run ∧ (0 : Chan) ∈ (block .unbounded engine []).mux.chlist)) :=
  ⟨by decide, ⟨rfl, rfl⟩, rfl, by decide⟩

theorem witness_AbsentChannelActsReserved : (block .unbounded engine []).nchMax ≤ (2 : Chan).toNat := by decide

/-- MuxStartBeginsARun: V121. -/
theorem witness_MuxStartBeginsARun :
    let s := pair 32000 32000 8 9 2 3
    (s.mux.mstate = .idle ∨ s.mux.mstate = .done) ∧ s.mux.mnch ≠ 0 ∧
    (∀ c : Chan, s.mux.msrc.getLsbD c.toNat = true → c.toNat < s.nchMax) ∧
    ((List.range 16).countP (fun b => s.mux.msrc.getLsbD b)) = s.mux.mnch.toNat ∧
    (∀ (c e : Chan) (x y : Channel), s.mux.msrc.getLsbD c.toNat = true → s.mux.msrc.getLsbD e.toNat = true →
      s.channel? c = some x → s.channel? e = some y → x.srate = y.srate ∧ nsamples x.len.toNat = nsamples y.len.toNat) := by
  intro s
  have hr : rateBad (s.validSources (sourcesOf s.mux.msrc)) = false := by decide
  have hl : lenBad (s.validSources (sourcesOf s.mux.msrc)) = false := by decide
  refine ⟨by decide, by decide, by decide, by decide, fun c e x y h1 h2 h3 h4 => ⟨?_, ?_⟩⟩
  · by_contra h
    exact absurd (rateBad_iff.2 ⟨c, e, x, y, h1, h2, h3, h4, h⟩) (by simp [hr])
  · by_contra h
    exact absurd (lenBad_iff.2 ⟨c, e, x, y, h1, h2, h3, h4, h⟩) (by simp [hl])

/-- MuxStartFailsItsChecks: V127 (all three checks), V123 (RATE alone) and V122 (LEN alone). -/
theorem witness_MuxStartFailsItsChecks :
    ∀ s ∈ [pair 32000 48000 8 16 3 3, pair 32000 48000 8 8 2 3, pair 32000 32000 8 16 2 3],
    (s.mux.mstate = .idle ∨ s.mux.mstate = .done) ∧ ∃ eCount eRate eLen : Bool,
    (eCount = true ↔ s.mux.mnch = 0 ∨ (∃ c : Chan, s.mux.msrc.getLsbD c.toNat = true ∧ s.nchMax ≤ c.toNat) ∨
      ((List.range 16).countP (fun b => s.mux.msrc.getLsbD b)) ≠ s.mux.mnch.toNat) ∧
    (eRate = true ↔ ∃ (c e : Chan) (x y : Channel), s.mux.msrc.getLsbD c.toNat = true ∧
      s.mux.msrc.getLsbD e.toNat = true ∧ s.channel? c = some x ∧ s.channel? e = some y ∧ x.srate ≠ y.srate) ∧
    (eLen = true ↔ ∃ (c e : Chan) (x y : Channel), s.mux.msrc.getLsbD c.toNat = true ∧
      s.mux.msrc.getLsbD e.toNat = true ∧ s.channel? c = some x ∧ s.channel? e = some y ∧
      nsamples x.len.toNat ≠ nsamples y.len.toNat) ∧
    (eCount = true ∨ eRate = true ∨ eLen = true) := by
  intro s hs
  simp only [List.mem_cons, List.not_mem_nil, or_false] at hs
  refine ⟨?_, chcountBad s.mux.mnch s.nchMax (sourcesOf s.mux.msrc), rateBad (s.validSources (sourcesOf s.mux.msrc)),
    lenBad (s.validSources (sourcesOf s.mux.msrc)), chcountBad_iff, rateBad_iff, lenBad_iff, ?_⟩ <;>
    rcases hs with rfl | rfl | rfl <;> decide

theorem witness_MuxStartIgnoredInRunAndFault :
    interleaving.mux.mstate = .run ∧ interleaving.mux.raiseSrc.mstate = .fault := by
  decide

theorem witness_MuxConfigurationWrite :
    (pair 0 0 0 0 0 0).mux.mstate ≠ .run ∧ interleaving.mux.mstate = .run := by
  decide

/-- MuxStepMovesOneSample: the end, a sample due, SRC, and a hold. -/
theorem witness_MuxStepMovesOneSample :
    interleaving.pending = .mux :: [] ∧ interleaving.mux.mstate = .run ∧
    Mux.mi { interleaving.mux with ml := 0 } = Mux.ml { interleaving.mux with ml := 0 } ∧
    interleaving.mux.mi ≠ interleaving.mux.ml ∧ interleaving.mux.chlist[interleaving.mux.mj]? = some 0 ∧
    interleaving.channel? 0 = some { Channel.afterReset Memory.empty with outq := [1, 2] } ∧
    Channel.outq { Channel.afterReset Memory.empty with state := .fault } = [] ∧
    Channel.state { Channel.afterReset Memory.empty with state := .fault } = .fault ∧
    (Channel.afterReset Memory.empty).outq = [] ∧ (Channel.afterReset Memory.empty).state ≠ .fault :=
  ⟨rfl, rfl, rfl, by decide, rfl, rfl, rfl, rfl, rfl, by decide⟩

/-- The multiplexer at the end of a run over 14 samples of two channels. -/
def finishing : State := { interleaving with mux := { interleaving.mux with mi := 14, ocount := 28 } }

theorem witness_DoneMuxRunMovedEverySample :
    finishing.Inv ∧ finishing.pending = .mux :: [] ∧ finishing.mux.mstate = .run ∧
    ∃ t, step finishing = .next t ∧ t.mux.mstate = .done := by
  refine ⟨⟨by decide, rfl, interleaving_inv.2.2.1, ?_⟩, rfl, rfl, _, rfl, rfl⟩
  refine ⟨by decide, by decide, fun _ => by decide, ?_, ?_, ?_, ?_, ?_, ?_, ?_, ?_⟩ <;>
    simp [finishing, interleaving, Mux.afterReset]

theorem witness_FullMuxRunInterleavesTheQueues :
    let s := { interleaving with
      mux := { interleaving.mux with ml := 1 }, pending := List.replicate (1 * 2 + 1) Event.mux ++ [Event.reset] }
    s.mux.mstate = .run ∧ s.mux.mi = 0 ∧ s.mux.mj = 0 ∧ s.mux.ocount = 0 ∧ s.mux.chlist ≠ [] ∧ s.mux.chlist.Nodup ∧
    ([[1, 2], [-1]] : List (List Sample)).length = s.mux.chlist.length ∧
    (∀ (k : Nat) (c : Chan), s.mux.chlist[k]? = some c → ∃ ch, s.channel? c = some ch ∧
      ([[1, 2], [-1]] : List (List Sample))[k]? = some ch.outq ∧ s.mux.ml ≤ ch.outq.length) := by
  refine ⟨rfl, rfl, rfl, rfl, by decide, by decide, rfl, ?_⟩
  intro k c h
  match k, h with
  | 0, h => cases h; exact ⟨_, rfl, rfl, by decide⟩
  | 1, h => cases h; exact ⟨_, rfl, rfl, by decide⟩

/-- MuxOutputIsScheduleIndependent: one sample of each of two channels, once straight and once among other moves at another depth; and two runs that end in FAULT. -/
theorem witness_MuxOutputIsScheduleIndependent :
    let s1 := { interleaving with mux := { interleaving.mux with ml := 1 }, pending := [.mux, .mux, .mux] }
    let s2 := { s1 with
      fifoDepth := .bounded 2, pending := [.mux, hostRead 0x1128, .engine 1, .mux, .engine 0, .mux, hostRead 0x1028] }
    let f1 := { interleaving with channels := [{ Channel.afterReset Memory.empty with state := .fault, cause := .pred }] }
    let f2 := { f1 with fifoDepth := .bounded 1, pending := [.engine 0, .mux] }
    s1.mux.mstate = .run ∧ s2.mux = s1.mux ∧ s2.muxOut = s1.muxOut ∧
    (∀ c ∈ s1.mux.chlist, s2.channel? c = s1.channel? c) ∧ turnsAndReads s1.pending ∧ turnsAndReads s2.pending ∧
    (∃ t, runSteps 3 s1 = .next t ∧ t.mux.mstate = .done) ∧ (∃ t, runSteps 7 s2 = .next t ∧ t.mux.mstate = .done) ∧
    f1.mux.mstate = .run ∧ f2.mux = f1.mux ∧ turnsAndReads f1.pending ∧ turnsAndReads f2.pending ∧
    (∃ t, runSteps 1 f1 = .next t ∧ t.mux.mstate = .fault) ∧ ∃ t, runSteps 2 f2 = .next t ∧ t.mux.mstate = .fault := by
  refine ⟨rfl, rfl, rfl, fun _ _ => rfl, ?_, ?_, ⟨_, rfl, by decide⟩, ⟨_, rfl, by decide⟩, rfl, rfl, ?_, ?_,
    ⟨_, rfl, by decide⟩, _, rfl, by decide⟩ <;> simp [turnsAndReads, hostRead, interleaving]

theorem witness_PayloadImagesAreCanonical :
    (Memory.ofBytes [0, 5]).wf = true ∧ ((Memory.ofBytes [7, 5]).write 0 0).wf = true ∧
    ((Memory.ofBytes [7, 5]).write 0 0).size = (Memory.ofBytes [0, 5]).size ∧
    (Memory.ofBytes [7, 5]).write 0 0 = Memory.ofBytes [0, 5] := by
  decide

theorem witness_PayloadReplacedOnlyOutsideRun :
    (block .unbounded { engine with state := .fault } [.load 0 Memory.empty]).channel? 0
      = some { engine with state := .fault } ∧ Memory.empty.wf = true ∧
    Channel.state { engine with state := .fault } ≠ .run ∧
    (block .unbounded engine [.load 0 Memory.empty]).channel? 0 = some engine ∧ engine.state = .run :=
  ⟨rfl, by decide, by decide, rfl, rfl⟩

theorem witness_HostProgramLoadsTheHeader :
    (parseDspHeader (List.replicate 0x60 (0xA5 : Byte))).isSome = true ∧
    (block .unbounded { engine with state := .done } []).channel? 0 = some { engine with state := .done } ∧
    Channel.state { engine with state := .done } ≠ .run :=
  ⟨by decide, rfl, by decide⟩

/-! ## The host's functions -/

/-- A header with the nibble count 5, then four bytes. -/
def oddFile : List Byte := [0, 0, 0, 0, 0, 0, 0, 5] ++ List.replicate 0x58 0 ++ [0x11, 0x22, 0x33, 0x44]

/-- R204: `5 div 2` is two bytes, and the rest of the file is no payload. -/
theorem test_payload_alone :
    (parseDspHeader oddFile).map (fun h => (PayloadPlacement.payloadOnly.bytes h oddFile, h.payloadLength))
      = some ([0x11, 0x22], 2) := by
  decide

theorem witness_HostSuppliesThePayload :
    (block .unbounded { engine with state := .done } []).channel? 0 = some { engine with state := .done } ∧
    Channel.state { engine with state := .done } ≠ .run ∧ oddFile.length ≤ 2 ^ 32 ∧
    (channelRun 0 .payloadOnly oddFile).isSome = true ∧ (channelRun 0 .wholeFile oddFile).isSome = true :=
  ⟨rfl, by decide, by decide, by decide, by decide⟩

/-- R209, D31: the seek entry of group 0 is (0, 0); the order of the others is the parameter. -/
theorem test_seek_entry :
    seekEntry .hist1First 0 7 8 = (0, 0) ∧ seekEntry .hist1First 3 7 8 = (7, 8) ∧ seekEntry .hist2First 3 7 8 = (8, 7) := by
  decide

/-- R62: one witness of each refused access. -/
theorem test_refused_accesses :
    (nextOf (step (block .unbounded engine [.host { write := false, addr := 0x1000, width := 2, data := 0 }]))).isNone = true ∧
    (nextOf (step (block .unbounded engine [.host { write := false, addr := 0x1002, width := 4, data := 0 }]))).isNone = true ∧
    (nextOf (step (block .unbounded engine [.host { write := true, addr := 0x2000, width := 4, data := 0 }]))).isNone = true ∧
    (nextOf (step (block .unbounded engine [.host { write := true, addr := 0x1FFC, width := 4, data := 0 }]))).isSome = true := by
  decide

end Sys2Proof.Tests
end

section
/-! PROOFS. The family of 10_state.md: who writes `mux_out`, the frame of the engine instructions, what an engine's turn depends on, and the invariant through every step. -/

namespace Sys2Proof.Machine

variable {s t : State} {c : Chan} {x y : Channel} {depth : QueueDepth}

/-! ## Output bytes (R33, R178) -/

/-- A multiplexer step leaves `mux_out`, or appends the bytes of the due channel's head sample. -/
theorem muxStep_muxOut (h : muxStep s = .next t) :
    t.muxOut = s.muxOut ∨ ∃ c x v q, s.mux.chlist[s.mux.mj]? = some c ∧ s.channel? c = some x ∧
      x.outq = v :: q ∧ t.muxOut = s.muxOut ++ sampleBytes v := by
  rcases muxStep_next h with rfl | ⟨-, -, rfl⟩ | ⟨-, -, c, x, hdue, hc, ⟨v, q, hq, rfl⟩ | ⟨-, -, rfl⟩⟩
  · exact .inl rfl
  · exact .inl rfl
  · exact .inr ⟨c, x, v, q, hdue, hc, hq, rfl⟩
  · exact .inl rfl

/-- Settles O29, by the agent that moves: only the multiplexer's step is more than a change of registers. -/
theorem onlyMultiplexerAppendsOutput : Obligations.OnlyMultiplexerAppendsOutput := by
  intro s t h
  rcases step_cases h with ⟨-, rfl⟩ | ⟨c, x, x', rest, -, -, -, rfl⟩ | ⟨rest, hp, hm⟩ | ⟨rest, -, rfl⟩ |
    ⟨c, image, x, rest, -, -, -, -, rfl⟩ | ⟨a, rest, i, -, ha, -, he⟩
  case inr.inr.inl =>
    exact (muxStep_muxOut hm).imp_right fun hout => ⟨by simp [hp], hout⟩
  case inr.inr.inr.inr.inr =>
    obtain ⟨-, hout, -⟩ := exec_access_channels he ha
    exact .inl hout
  all_goals exact .inl rfl

/-! ## Frames (R47, R113) -/

theorem SameButChannel.refl (s : State) (c : Chan) : SameButChannel c s s :=
  ⟨rfl, rfl, rfl, rfl, rfl, rfl, fun _ _ => rfl⟩

theorem sameButChannel_setChannel (s : State) (c : Chan) (y : Channel) : SameButChannel c s (s.setChannel c y) :=
  ⟨rfl, rfl, rfl, rfl, rfl, State.setChannel_nchMax .., fun _ hd => State.setChannel_channel?_ne hd⟩

theorem setChannel_payloadByte (hc : s.channel? c = some x) (hpm : y.pm = x.pm) (d : Chan) (a : Nat) :
    (s.setChannel c y).payloadByte d a = s.payloadByte d a := by
  unfold State.payloadByte
  rw [State.setChannel_channel?_cases hc]
  split
  · subst d
    simp [hc, hpm]
  · rfl

/-- Settles O20: the step of an engine's event is the turn of its channel, which takes the channel and the depth only. -/
theorem engineStepSeesOnlyItsChannel : Obligations.EngineStepSeesOnlyItsChannel := by
  intro s1 s2 t1 c rest1 rest2 hp1 hp2 hsame hdepth h
  cases hc : s1.channel? c with
  | none =>
    rw [step_engine_none hp1 hc] at h
    cases h
  | some x =>
    have hc2 : s2.channel? c = some x := hsame ▸ hc
    rw [step_engine hp1 hc] at h
    cases ht : x.turn s1.fifoDepth with
    | none => simp [ht] at h
    | some y =>
      simp only [ht] at h
      cases next_eq h
      refine ⟨sameButChannel_setChannel .., State.setChannel { s2 with pending := rest2 } c y, ?_, ?_⟩
      · rw [step_engine hp2 hc2, ← hdepth, ht]
      · rw [State.setChannel_channel?_self (s := { s2 with pending := rest2 }) hc2,
          State.setChannel_channel?_self (s := { s1 with pending := rest1 }) hc]

/-- Everything a consuming step can do: RANGE, or the use of its byte. -/
theorem Channel.consuming_some {use : Channel → Option Channel} (h : x.consuming use = some y) :
    y = x.raiseFault .range ∨ use x = some y := by
  unfold Channel.consuming at h
  split at h
  · exact .inl (Option.some.inj h).symm
  · exact .inr h

/-- What SAMPLE writes: the history, the queue and the count. -/
theorem Channel.sample_some {n : BitVec 4} (h : x.sample n = some y) :
    ∃ v, y = { x with hist2 := x.hist1, hist1 := v, outq := x.outq ++ [v], scount := x.scount + 1 } := by
  unfold Channel.sample at h
  split at h
  · exact ⟨_, (Option.some.inj h).symm⟩
  · cases h

/-- What an engine instruction keeps of its channel is what its body keeps; the rest of the block and every payload byte stay. -/
theorem engineStep_frame {kind : EngineStep} {body : Channel → Option Channel} {Kept : Channel → Channel → Prop}
    (h : engineStep c kind body s = .next t) (hrefl : ∀ x, Kept x x)
    (hbody : ∀ x y, body x = some y → SameConfiguration x y ∧ y.fCfgw = x.fCfgw ∧ Kept x y) :
    SameButChannel c s t ∧ (∀ (d : Chan) (a : Nat), t.payloadByte d a = s.payloadByte d a) ∧
      ∀ x y, s.channel? c = some x → t.channel? c = some y →
        SameConfiguration x y ∧ y.fCfgw = x.fCfgw ∧ Kept x y := by
  rcases engineStep_next h with rfl | ⟨x, y, hc, -, -, hb, rfl⟩
  · refine ⟨.refl .., fun _ _ => rfl, fun x y hx hy => ?_⟩
    obtain rfl : x = y := Option.some.inj (hx.symm.trans hy)
    exact ⟨⟨rfl, rfl, rfl, rfl, rfl⟩, rfl, hrefl x⟩
  · have hk := hbody x y hb
    obtain ⟨-, -, -, -, hpm⟩ := hk.1
    refine ⟨sameButChannel_setChannel .., setChannel_payloadByte hc hpm, fun x' y' hx hy => ?_⟩
    obtain rfl : x = x' := Option.some.inj (hc.symm.trans hx)
    rw [State.setChannel_channel?_self hc] at hy
    obtain rfl : y = y' := Option.some.inj hy
    exact hk

/-- Settles O18, instruction by instruction, by what the body of each writes. -/
theorem engineInstructionFrame : Obligations.EngineInstructionFrame := by
  intro s t c i k sh hi lo hmem h
  simp only [List.mem_cons, List.not_mem_nil, or_false] at hmem
  rcases hmem with rfl | rfl | rfl | rfl | rfl
  case inl | inr.inl =>
    refine engineStep_frame h (by simp) fun x y hb => ?_
    rcases Channel.consuming_some hb with rfl | hb
    · simp [SameConfiguration]
    · cases hb
      simp [SameConfiguration]
  · refine engineStep_frame h (by simp) fun x y hb => ?_
    rcases Channel.consuming_some hb with rfl | hb
    · simp [SameConfiguration]
    · obtain ⟨v, rfl⟩ := Channel.sample_some hb
      simp [SameConfiguration]
  · refine engineStep_frame h (by simp) fun x y hb => ?_
    obtain ⟨v, rfl⟩ := Channel.sample_some hb
    simp [SameConfiguration]
  · simp only [exec, execEndRun] at h
    refine engineStep_frame h (by simp) fun x y hb => ?_
    cases hb
    simp [SameConfiguration]

/-! ## The sample count of one more byte (R87) -/

theorem nsamples_succ_of_header {pos : Nat} (h : pos % 8 = 0) : nsamples (pos + 1) = nsamples pos := by
  simp only [nsamples]
  split <;> split <;> omega

theorem nsamples_succ_of_data {pos : Nat} (h : pos % 8 ≠ 0) : nsamples (pos + 1) = nsamples pos + 2 := by
  simp only [nsamples]
  split <;> split <;> omega

/-! ## The queue bound (R30) -/

theorem withinDepth_of_le {m n : Nat} (h : withinDepth depth n) (hm : m ≤ n) : withinDepth depth m := by
  cases depth with
  | unbounded => trivial
  | bounded d => exact Nat.le_trans hm h

theorem withinDepth_of_hasRoom (h : hasRoom depth x) : withinDepth depth (x.outq.length + 1) := by
  cases depth with
  | unbounded => trivial
  | bounded d => exact h d rfl

/-! ## The invariant of an engine -/

/-- An engine that is not in FAULT has no cause and no fault flag. -/
theorem Channel.Inv.no_flags (h : x.Inv depth) (hf : x.state ≠ .fault) :
    x.cause = .none ∧ x.fPred = false ∧ x.fRange = false := by
  obtain ⟨-, -, -, -, hcause, hpred, hrange, -⟩ := h
  have hnone : x.cause = .none := by
    by_contra hne
    exact hf (hcause.2 hne)
  simp_all

theorem Channel.Inv.afterReset (h : x.Inv depth) : (Channel.afterReset x.pm).Inv depth := by
  obtain ⟨hpm, hq, -⟩ := h
  have hq : withinDepth depth 0 := withinDepth_of_le hq (Nat.zero_le _)
  simp [Channel.Inv, Channel.afterReset, hpm, hq]

theorem Channel.Inv.abort (h : x.Inv depth) : x.abort.Inv depth := by
  obtain ⟨hpm, hq, -⟩ := h
  have hq : withinDepth depth 0 := withinDepth_of_le hq (Nat.zero_le _)
  simp [Channel.Inv, hpm, hq]

theorem Channel.Inv.start (h : x.Inv depth) (hs : x.state = .idle ∨ x.state = .done) : x.start.Inv depth := by
  obtain ⟨hnone, hpred, hrange⟩ := h.no_flags (by rcases hs with hs | hs <;> simp [hs])
  obtain ⟨hpm, hq, -⟩ := h
  simp [Channel.Inv, hpm, hq, hnone, hpred, hrange, nsamples, pairExists]

/-- A running channel that takes a fault, whatever header byte it has latched. -/
theorem Channel.Inv.raiseFault {e : ChannelCause} (h : x.Inv depth) (hr : x.state = .run) (hn : x.nph = false)
    (he : e ≠ .none) (ps : Byte) : ({ x with ps := ps }.raiseFault e).Inv depth := by
  obtain ⟨-, hpred, hrange⟩ := h.no_flags (by simp [hr])
  obtain ⟨hpm, hq, -, -, -, -, -, hcount⟩ := h
  have hs : x.scount = nsamples x.pos := by simpa [hr, hn] using hcount
  simp [Channel.Inv, hpm, hq, hn, he, hs, hpred, hrange]

theorem Channel.Inv.finish (h : x.Inv depth) (hr : x.state = .run) (hn : x.nph = false) :
    ({ x with state := .done } : Channel).Inv depth := by
  obtain ⟨hnone, hpred, hrange⟩ := h.no_flags (by simp [hr])
  obtain ⟨hpm, hq, -, -, -, -, -, hcount⟩ := h
  have hs : x.scount = nsamples x.pos := by simpa [hr, hn] using hcount
  simp [Channel.Inv, hpm, hq, hn, hs, hnone, hpred, hrange]

theorem Channel.Inv.header {b : Byte} (h : x.Inv depth) (hr : x.state = .run) (hn : x.nph = false)
    (hp : x.pos ≠ x.len.toNat) (h8 : x.pos % 8 = 0) (hb : pairExists b = true) :
    ({ x with ps := b, pos := x.pos + 1 } : Channel).Inv depth := by
  obtain ⟨hpm, hq, hrun, -, hcause, hpred, hrange, hcount⟩ := h
  have hs : x.scount = nsamples (x.pos + 1) := by simpa [hr, hn, nsamples_succ_of_header h8] using hcount
  have hlen : x.pos + 1 ≤ x.len.toNat := by have := (hrun hr).1; omega
  exact ⟨hpm, hq, fun _ => ⟨hlen, hb⟩, by simp [hn], hcause, hpred, hrange, by simp [hn, hs]⟩

/-- SAMPLE on a running channel with room, with the byte, the position and the phase its step has set: the count is that of the new position, less the sample that still waits. -/
theorem Channel.Inv.sample {b : Byte} {p : Nat} {w : Bool} {n : BitVec 4} (h : x.Inv depth) (hr : x.state = .run)
    (hroom : hasRoom depth x) (hs : ({ x with db := b, pos := p, nph := w } : Channel).sample n = some y)
    (hp : p ≤ x.len.toNat) (hw : w = true → 2 ≤ p ∧ p % 8 ≠ 1)
    (hcount : x.scount + 1 + (if w then 1 else 0) = nsamples p) : y.Inv depth := by
  obtain ⟨hpm, -, hrun, -, hcause, hpred, hrange, -⟩ := h
  obtain ⟨v, rfl⟩ := Channel.sample_some hs
  exact ⟨hpm, by simpa using withinDepth_of_hasRoom hroom, fun hr => ⟨hp, (hrun hr).2⟩, fun h => ⟨hr, hw h⟩, hcause,
    hpred, hrange, fun _ => hcount⟩

/-- Everything a turn of an engine can do: hold, or the step its sequencer selects, with the faults of that step. -/
theorem Channel.turn_cases (h : x.turn depth = some y) :
    y = x ∨
    (x.selects = some .dataLo ∧ hasRoom depth x ∧ { x with nph := false }.sample (x.db.extractLsb' 0 4) = some y) ∨
    (x.selects = some .finish ∧ y = { x with state := .done }) ∨
    (x.selects = some .hdr ∧ ∃ b, pairExists b = false ∧ y = { x with ps := b }.raiseFault .pred) ∨
    (x.selects = some .hdr ∧ ∃ b, pairExists b = true ∧ y = { x with ps := b, pos := x.pos + 1 }) ∨
    ((x.selects = some .hdr ∨ x.selects = some .dataHi) ∧ y = x.raiseFault .range) ∨
    (x.selects = some .dataHi ∧ hasRoom depth x ∧
      ∃ b n, { x with db := b, pos := x.pos + 1, nph := true }.sample n = some y) := by
  have room : ¬ x.queueFull depth = true → hasRoom depth x := by simp [Channel.queueFull_eq_true_iff]
  unfold Channel.turn at h
  split at h
  case h_1 => exact .inl (Option.some.inj h).symm
  case h_2 hs =>
    split at h
    · exact .inl (Option.some.inj h).symm
    · exact .inr (.inl ⟨hs, room ‹_›, h⟩)
  case h_3 hs => exact .inr (.inr (.inl ⟨hs, (Option.some.inj h).symm⟩))
  case h_4 hs =>
    split at h
    · exact .inr (.inr (.inr (.inr (.inr (.inl ⟨.inl hs, (Option.some.inj h).symm⟩)))))
    · rename_i b _
      split at h
      · rename_i h7
        exact .inr (.inr (.inr (.inl ⟨hs, b, by simp [pairExists, h7], (Option.some.inj h).symm⟩)))
      · rename_i h7
        exact .inr (.inr (.inr (.inr (.inl ⟨hs, b, pairExists_iff.2 (by simpa using h7), (Option.some.inj h).symm⟩))))
  case h_5 hs =>
    split at h
    · exact .inl (Option.some.inj h).symm
    · split at h
      · exact .inr (.inr (.inr (.inr (.inr (.inl ⟨.inr hs, (Option.some.inj h).symm⟩)))))
      · exact .inr (.inr (.inr (.inr (.inr (.inr ⟨hs, room ‹_›, _, _, h⟩)))))

theorem Channel.Inv.turn (h : x.Inv depth) (ht : x.turn depth = some y) : y.Inv depth := by
  obtain ⟨-, -, hrun, -, -, -, -, hcount⟩ := id h
  rcases Channel.turn_cases ht with rfl | ⟨hs, hroom, hy⟩ | ⟨hs, rfl⟩ | ⟨hs, b, -, rfl⟩ | ⟨hs, b, hb, rfl⟩ |
    ⟨hs, rfl⟩ | ⟨hs, hroom, b, n, hy⟩
  · exact h
  · obtain ⟨hr, hn⟩ := Channel.selects_dataLo.1 hs
    exact h.sample hr hroom hy (hrun hr).1 (by simp) (by simpa [hr, hn] using hcount)
  · obtain ⟨hr, hn, -⟩ := Channel.selects_finish.1 hs
    exact h.finish hr hn
  · obtain ⟨hr, hn, -⟩ := Channel.selects_hdr.1 hs
    exact h.raiseFault hr hn (by simp) b
  · obtain ⟨hr, hn, hp, h8⟩ := Channel.selects_hdr.1 hs
    exact h.header hr hn hp h8 hb
  · have hrn : x.state = .run ∧ x.nph = false := by
      rcases hs with hs | hs
      · obtain ⟨hr, hn, -⟩ := Channel.selects_hdr.1 hs
        exact ⟨hr, hn⟩
      · obtain ⟨hr, hn, -⟩ := Channel.selects_dataHi.1 hs
        exact ⟨hr, hn⟩
    exact h.raiseFault hrn.1 hrn.2 (by simp) x.ps
  · obtain ⟨hr, hn, hp, h8⟩ := Channel.selects_dataHi.1 hs
    have hs : x.scount = nsamples x.pos := by simpa [hr, hn] using hcount
    have hle := (hrun hr).1
    refine h.sample hr hroom hy (by omega) (fun _ => by omega) ?_
    simp [hs, nsamples_succ_of_data h8]

theorem Channel.Inv.dequeue {v : Sample} {q : List Sample} (h : x.Inv depth) (hq : x.outq = v :: q) :
    ({ x with outq := q } : Channel).Inv depth := by
  obtain ⟨hpm, hlen, hrest⟩ := h
  exact ⟨hpm, withinDepth_of_le hlen (by simp [hq]), hrest⟩

theorem Channel.Inv.hostChange {i : Option Instr} (h : x.Inv depth) (hc : HostChange i c x y) : y.Inv depth := by
  cases hc with
  | start d hi hs => exact h.start hs
  | abort d hi => exact h.abort
  | warn hr => exact h
  | pop v q hq => exact h.dequeue hq
  | config hr =>
    obtain ⟨hpm, hlen, -, hrest⟩ := h
    exact ⟨hpm, hlen, fun hrun => absurd hrun hr, hrest⟩

/-! ## The invariant of the multiplexer -/

variable {m : Mux} {nch : Nat}

theorem Mux.Inv.afterReset (nch : Nat) : Mux.afterReset.Inv nch := by
  simp [Mux.Inv, Mux.afterReset]

theorem Mux.Inv.abort (m : Mux) (nch : Nat) : m.abort.Inv nch := by
  simp [Mux.Inv]

/-- A multiplexer that is not in FAULT has no cause and no fault flag. -/
theorem Mux.Inv.no_flags (h : m.Inv nch) (hf : m.mstate ≠ .fault) :
    m.mcause = .none ∧ m.mfChcount = false ∧ m.mfRate = false ∧ m.mfLen = false ∧ m.mfSrc = false := by
  obtain ⟨-, -, -, -, hcause, hcount, hsrc, -, -, hrate, hlen⟩ := h
  have hnone : m.mcause = .none := by
    by_contra hne
    exact hf (hcause.2 hne)
  simp_all

/-- MUX_CFG outside RUN (R182). -/
theorem Mux.Inv.configure (h : m.Inv nch) (hr : m.mstate ≠ .run) (n : BitVec 8) (src : BitVec 16) :
    ({ m with mnch := n, msrc := src } : Mux).Inv nch := by
  obtain ⟨hch, hasc, -, hrest⟩ := h
  exact ⟨hch, hasc, fun hrun => absurd hrun hr, hrest⟩

/-- A START that fails its checks (R171, R226). -/
theorem Mux.Inv.raiseStart {e1 e2 e3 : Bool} (h : m.Inv nch) (hf : m.mstate ≠ .fault) (he : e1 || e2 || e3) :
    (m.raiseStart e1 e2 e3).Inv nch := by
  obtain ⟨-, -, -, -, hsrc⟩ := h.no_flags hf
  obtain ⟨hch, hasc, -⟩ := h
  refine ⟨hch, hasc, ?_⟩
  cases e1 <;> cases e2 <;> cases e3 <;> simp_all

/-- SRC (R225, R227). -/
theorem Mux.Inv.raiseSrc (h : m.Inv nch) (hf : m.mstate ≠ .fault) : m.raiseSrc.Inv nch := by
  obtain ⟨-, hcount, hrate, hlen, -⟩ := h.no_flags hf
  obtain ⟨hch, hasc, -⟩ := h
  refine ⟨hch, hasc, ?_⟩
  simp [hcount, hrate, hlen]

/-- A run that has moved every sample ends in DONE (R176, R186). -/
theorem Mux.Inv.finish (h : m.Inv nch) (hr : m.mstate = .run) (hi : m.mi = m.ml) :
    ({ m with mstate := .done } : Mux).Inv nch := by
  obtain ⟨hnone, -⟩ := h.no_flags (by simp [hr])
  obtain ⟨hch, hasc, hrun, -, -, hflags⟩ := h
  obtain ⟨-, -, hj, ho, -⟩ := hrun hr
  refine ⟨hch, hasc, by simp, fun _ => ?_, by simp [hnone], hflags⟩
  simp only [ho, hj hi, hi, Nat.mul_comm, Nat.add_zero]

/-- One sample moved (R176). -/
theorem Mux.Inv.advance (h : m.Inv nch) (hr : m.mstate = .run) (hi : m.mi ≠ m.ml) : m.advance.Inv nch := by
  obtain ⟨hch, hasc, hrun, -, hrest⟩ := h
  obtain ⟨hj, hle, -, ho, hn⟩ := hrun hr
  unfold Mux.advance
  split
  next hlast =>
    refine ⟨hch, hasc, fun _ => ⟨by simp; omega, by simp; omega, fun _ => rfl, ?_, hn⟩, by simp [hr], hrest⟩
    simp only [ho, Nat.add_mul, Nat.one_mul]
    omega
  next hlast =>
    exact ⟨hch, hasc, fun _ => ⟨by simp; omega, hle, fun h => absurd h hi, by simp [ho, Nat.add_assoc], hn⟩,
      by simp [hr], hrest⟩

/-- START in IDLE or DONE (R171): the checks' fault, or a run over the selected channels, which CHCOUNT has found to exist and to be as many as declared. -/
theorem State.muxStarted_inv (h : s.mux.Inv s.nchMax) (hs : s.mux.mstate = .idle ∨ s.mux.mstate = .done) :
    s.muxStarted.Inv s.nchMax := by
  have hf : s.mux.mstate ≠ .fault := by rcases hs with hs | hs <;> simp [hs]
  simp only [State.muxStarted]
  split
  next he => exact h.raiseStart hf he
  next he =>
    simp only [Bool.or_eq_true, not_or, Bool.not_eq_true] at he
    obtain ⟨⟨hcount, -⟩, -⟩ := he
    simp only [chcountBad, Bool.or_eq_false_iff, beq_eq_false_iff_ne, bne_eq_false_iff_eq, List.any_eq_false] at hcount
    obtain ⟨⟨hzero, hexist⟩, hlen⟩ := hcount
    obtain ⟨hnone, hflags⟩ := h.no_flags hf
    obtain ⟨-, -, -, -, -, hrest⟩ := h
    have hpos : 0 < s.mux.mnch.toNat := by
      rw [Nat.pos_iff_ne_zero]
      exact fun h0 => hzero (BitVec.eq_of_toNat_eq h0)
    refine ⟨?_, sourcesOf_ascending _, fun _ => ⟨?_, by simp, fun _ => rfl, by simp, hlen⟩, by simp, by simp [hnone], hrest⟩
    · simpa [hasChannel] using hexist
    · simpa [hlen] using hpos

/-! ## The invariant of the block -/

/-- The invariant of a state, by its parts, from another with the same parameters. -/
theorem State.Inv.of_parts (h : s.Inv) (hd : t.fifoDepth = s.fifoDepth) (hn : t.nchMax = s.nchMax)
    (hch : ∀ x ∈ t.channels, x.Inv s.fifoDepth) (hm : t.mux.Inv s.nchMax) : t.Inv := by
  obtain ⟨hcount, hdepth, -, -⟩ := h
  unfold State.Inv
  rw [hd, hn]
  exact ⟨hcount, hdepth, hch, hm⟩

theorem State.Inv.channels (h : s.Inv) : ∀ x ∈ s.channels, x.Inv s.fifoDepth := by
  obtain ⟨-, -, hch, -⟩ := h
  exact hch

theorem State.Inv.channel (h : s.Inv) (hc : s.channel? c = some x) : x.Inv s.fifoDepth :=
  h.channels x (State.mem_channels hc)

theorem State.Inv.mux (h : s.Inv) : s.mux.Inv s.nchMax := by
  obtain ⟨-, -, -, hm⟩ := h
  exact hm

theorem State.Inv.setChannel (h : s.Inv) (hx : x.Inv s.fifoDepth) : (s.setChannel c x).Inv :=
  h.of_parts rfl (State.setChannel_nchMax ..) (State.forall_setChannel h.channels hx) h.mux

theorem State.Inv.setMux (h : s.Inv) (hm : m.Inv s.nchMax) : (s.setMux m).Inv :=
  h.of_parts rfl rfl h.channels hm

theorem State.Inv.applyReset (h : s.Inv) : s.applyReset.Inv := by
  refine h.of_parts rfl (State.applyReset_nchMax ..) ?_ (.afterReset _)
  intro x hx
  obtain ⟨x0, hx0, rfl⟩ := List.mem_map.1 hx
  exact (h.channels x0 hx0).afterReset

theorem State.Inv.muxStep (h : s.Inv) (hstep : muxStep s = .next t) : t.Inv := by
  rcases muxStep_next hstep with rfl | ⟨hr, hi, rfl⟩ | ⟨hr, hi, c, x, -, hc, ⟨v, q, hq, rfl⟩ | ⟨-, -, rfl⟩⟩
  · exact h
  · exact h.setMux (h.mux.finish hr hi)
  · refine h.of_parts rfl (State.setChannel_nchMax ..) ?_ (h.mux.advance hr hi)
    exact State.forall_setChannel h.channels ((h.channel hc).dequeue hq)
  · exact h.setMux (h.mux.raiseSrc (by simp [hr]))

/-- Everything a host access does to the depth and the multiplexer: nothing, or the change of one MUX_CTRL or MUX_CFG write. -/
theorem exec_access_mux {i : Instr} (h : exec i s = .next t) (ha : i.isAccess = true) :
    t.fifoDepth = s.fifoDepth ∧
      (t.mux = s.mux ∨
        ((s.mux.mstate = .idle ∨ s.mux.mstate = .done) ∧ t.mux = s.muxStarted) ∨
        t.mux = s.mux.abort ∨
        (s.mux.mstate = .run ∧ t.mux = { s.mux with mfCfgw := true }) ∨
        (s.mux.mstate ≠ .run ∧ ∃ n src, t.mux = { s.mux with mnch := n, msrc := src })) := by
  cases i with
  | hdr | hdrBadpred | dataHi | dataLo | endRun => cases ha
  | idW | muxCtrlNop | globalRoW | chCtrlNop | chStatusW | chPosW | chScountW | chPsW | chOutW | rsvdW | idR
  | muxCtrlR | muxCfgR | muxStatusR | muxOcountR | rsvdR =>
    cases next_eq h
    exact ⟨rfl, .inl rfl⟩
  | muxCtrlAbort =>
    cases next_eq h
    exact ⟨rfl, .inr (.inr (.inl rfl))⟩
  | muxCtrlStart =>
    simp only [exec, execMuxCtrlStart] at h
    split at h <;> cases next_eq h
    · exact ⟨rfl, .inr (.inl ⟨‹_›, rfl⟩)⟩
    · exact ⟨rfl, .inl rfl⟩
  | muxCfgW =>
    simp only [exec, execMuxCfgW] at h
    split at h <;> cases next_eq h
    · exact ⟨rfl, .inr (.inr (.inr (.inl ⟨‹_›, rfl⟩)))⟩
    · exact ⟨rfl, .inr (.inr (.inr (.inr ⟨‹_›, _, _, rfl⟩)))⟩
  | chCtrlStart | chCtrlAbort | chBaseW | chLenW | chSrateW | chHist1W | chHist2W | chCoefW =>
    rcases updateChannel_next h with rfl | ⟨x, -, rfl⟩ <;> exact ⟨rfl, .inl rfl⟩
  | chCtrlR | chStatusR | chBaseR | chLenR | chSrateR | chHist1R | chHist2R | chPosR | chScountR | chPsR | chCoefR =>
    obtain ⟨w, rfl⟩ := readChannel_next h
    exact ⟨rfl, .inl rfl⟩
  | chOutR c =>
    rcases execChOutR_next h with ⟨w, rfl⟩ | ⟨x, v, q, -, -, -, rfl⟩ <;> exact ⟨rfl, .inl rfl⟩

theorem State.Inv.hostAccess {i : Instr} (h : s.Inv) (he : exec i s = .next t) (ha : i.isAccess = true) : t.Inv := by
  obtain ⟨-, -, hchannels⟩ := exec_access_channels he ha
  obtain ⟨hdepth, hmux⟩ := exec_access_mux he ha
  have hmInv : t.mux.Inv s.nchMax := by
    rcases hmux with e | ⟨hs, e⟩ | e | ⟨-, e⟩ | ⟨hr, n, src, e⟩ <;> rw [e]
    · exact h.mux
    · exact State.muxStarted_inv h.mux hs
    · exact .abort ..
    · exact h.mux
    · exact h.mux.configure hr n src
  rcases hchannels with e | ⟨c, x, y, hc, hxy, e⟩
  · exact h.of_parts hdepth (congrArg List.length e) (e ▸ h.channels) hmInv
  · refine h.of_parts hdepth ((congrArg List.length e).trans (State.setChannel_nchMax ..)) ?_ hmInv
    rw [e]
    exact State.forall_setChannel h.channels ((h.channel hc).hostChange hxy)

/-- Settles O32, by the agent that moves: each of an engine's turn, the multiplexer's step, reset, a new image and a host access keeps the invariant of what it writes. -/
theorem stepKeepsTheInvariant : Obligations.StepKeepsTheInvariant := by
  intro s t h hstep
  have hused : ∀ rest, State.Inv { s with pending := rest } := fun _ => h
  rcases step_cases hstep with ⟨-, rfl⟩ | ⟨c, x, y, rest, -, hc, ht, rfl⟩ | ⟨rest, -, hm⟩ | ⟨rest, -, rfl⟩ |
    ⟨c, image, x, rest, -, hc, -, hwf, rfl⟩ | ⟨a, rest, i, -, ha, -, he⟩
  · exact h
  · exact (hused rest).setChannel ((h.channel hc).turn ht)
  · exact (hused rest).muxStep hm
  · exact (hused rest).applyReset
  · obtain ⟨-, hx⟩ := h.channel hc
    exact (hused rest).setChannel ⟨hwf, hx⟩
  · exact (hused rest).hostAccess he ha

end Sys2Proof.Machine
end

section
/-! PROOFS. The family of 20_memory.md: which accesses the block defines, reserved and read-only registers, the byte a step cannot read, and who writes payload memory and an ended run's results. -/

namespace Sys2Proof.Machine

variable {s t : State} {c : Chan} {x y : Channel} {depth : QueueDepth}

/-! ## Payload images (R60) -/

theorem cellsWf_cons {size lo a : Nat} {b : Byte} {rest : List Host.Cell} :
    cellsWf size lo ((a, b) :: rest) = true ↔
      lo ≤ a ∧ a < size ∧ b ≠ 0#8 ∧ cellsWf size (a + 1) rest = true := by
  simp [cellsWf, and_assoc]

/-- Cells that rise from `lo` list nothing below it. -/
theorem cellsRead_of_lt {size lo a : Nat} {cells : List Host.Cell} (h : cellsWf size lo cells = true) (ha : a < lo) :
    cellsRead cells a = 0#8 := by
  induction cells generalizing lo with
  | nil => rfl
  | cons p rest ih =>
    obtain ⟨hlo, -, -, hrest⟩ := cellsWf_cons.1 h
    have hne : p.1 ≠ a := by omega
    simpa [cellsRead, hne] using ih hrest (by omega)

/-- The first cell's offset is the least one that does not read 0, so no canonical list that reads the same starts above it. -/
theorem le_of_cellsRead_head {size lo lo' a : Nat} {b : Byte} {rest cells : List Host.Cell}
    (h : cellsWf size lo ((a, b) :: rest) = true) (h' : cellsWf size lo' cells = true)
    (hread : cellsRead ((a, b) :: rest) a = cellsRead cells a) : lo' ≤ a := by
  obtain ⟨-, -, hb, -⟩ := cellsWf_cons.1 h
  by_contra hlt
  rw [cellsRead_of_lt h' (by omega)] at hread
  exact hb (by simpa [cellsRead] using hread)

/-- Two canonical lists of cells that read the same below `size` are the same. -/
theorem cells_eq_of_cellsRead_eq {size lo : Nat} {cells cells' : List Host.Cell} (h : cellsWf size lo cells = true)
    (h' : cellsWf size lo cells' = true) (hread : ∀ a < size, cellsRead cells a = cellsRead cells' a) :
    cells = cells' := by
  induction cells generalizing lo cells' with
  | nil =>
    cases cells' with
    | nil => rfl
    | cons p' rest' =>
      obtain ⟨-, hlt, -, -⟩ := cellsWf_cons.1 h'
      have hle := le_of_cellsRead_head h' (lo' := p'.1 + 1) (cells := []) rfl (hread _ hlt).symm
      omega
  | cons p rest ih =>
    obtain ⟨a, b⟩ := p
    obtain ⟨-, hlt, hb, hrest⟩ := cellsWf_cons.1 h
    cases cells' with
    | nil =>
      have hle := le_of_cellsRead_head h (lo' := a + 1) (cells := []) rfl (hread _ hlt)
      omega
    | cons p' rest' =>
      obtain ⟨a', b'⟩ := p'
      obtain ⟨-, hlt', hb', hrest'⟩ := cellsWf_cons.1 h'
      -- each list's first offset is at most the other's, so they agree, and so do their bytes
      have hle' : a' ≤ a := le_of_cellsRead_head h (cellsWf_cons.2 ⟨le_rfl, hlt', hb', hrest'⟩) (hread a hlt)
      have hle : a ≤ a' := le_of_cellsRead_head h' (cellsWf_cons.2 ⟨le_rfl, hlt, hb, hrest⟩) (hread a' hlt').symm
      obtain rfl : a = a' := le_antisymm hle hle'
      obtain rfl : b = b' := by simpa [cellsRead] using hread a hlt
      rw [ih hrest hrest' fun z hz => ?_]
      by_cases hza : a = z
      · rw [cellsRead_of_lt hrest (by omega), cellsRead_of_lt hrest' (by omega)]
      · simpa [cellsRead, hza] using hread z hz

/-- Settles O57: the cells of a canonical image are determined by what they read below its size. -/
theorem payloadImagesAreCanonical : Obligations.PayloadImagesAreCanonical := by
  intro m m' hwf hwf' hsize hread
  obtain ⟨size, cells⟩ := m
  obtain ⟨size', cells'⟩ := m'
  obtain rfl : size = size' := hsize
  simp only [Memory.wf, Bool.and_eq_true] at hwf hwf'
  obtain ⟨-, hcells⟩ := hwf
  obtain ⟨-, hcells'⟩ := hwf'
  rw [cells_eq_of_cellsRead_eq hcells hcells' fun a ha => by simpa [Memory.read, ha] using hread a]

/-! ## Replacing a payload image (R70) -/

theorem step_load {image : Memory} {rest : List Event} (hp : s.pending = .load c image :: rest) :
    step s = loadPayload c image { s with pending := rest } := by
  simp only [step, State.fetch, hp, State.retire_of_pending hp]

theorem loadPayload_of_not_run {image : Memory} (hc : s.channel? c = some x) (hr : x.state ≠ .run)
    (hwf : image.wf = true) : loadPayload c image s = .next (s.setChannel c { x with pm := image }) := by
  simp [loadPayload, hc, hr, hwf]

theorem loadPayload_of_run {image : Memory} (hc : s.channel? c = some x) (hr : x.state = .run) :
    loadPayload c image s = .refused .payloadWhileRunning := by
  simp [loadPayload, hc, hr]

/-- Settles O58: the step of an image's event is its replacement. -/
theorem payloadReplacedOnlyOutsideRun : Obligations.PayloadReplacedOnlyOutsideRun := by
  intro s c x image rest hp hc hwf
  have hc' : ({ s with pending := rest } : State).channel? c = some x := hc
  rw [step_load hp]
  exact ⟨fun hr => loadPayload_of_not_run hc' hr hwf, loadPayload_of_run hc'⟩

/-! ## The accesses the block defines (R62) -/

theorem step_of_fetch_refuse {r : Refusal} (h : s.fetch = .refuse r) : step s = .refused r := by
  simp only [step, h]

/-- The key of an access of the defined width, within the space. -/
theorem fetch_access {a : Access} {rest : List Event} (hp : s.pending = .host a :: rest) (hw : a.width = 4)
    (hl : a.addr < 0x2000) :
    s.fetch = .code (.access (accessKey a.write (BitVec.ofNat 13 a.addr) a.data)) := by
  simp [State.fetch, hp, fetchAccess, hw, Nat.not_le.2 hl]

/-- An access that decodes to an instruction runs it. -/
theorem step_access_instr {a : Access} {rest : List Event} {i : Instr} (hp : s.pending = .host a :: rest)
    (hw : a.width = 4) (hl : a.addr < 0x2000)
    (hd : decodeAccess s.nchMax (accessKey a.write (BitVec.ofNat 13 a.addr) a.data) = .instr i) :
    step s = exec i { s with pending := rest } := by
  simp only [step, fetch_access hp hw hl, decode, hd, State.retire_of_pending hp]

/-- The decoder's alignment test, on the address as the host issues it. -/
theorem ofNat_aligned_iff (n : Nat) : (BitVec.ofNat 13 n).extractLsb' 0 2 = 0#2 ↔ n % 4 = 0 := by
  have hmod : n % 8192 % 4 = n % 4 := Nat.mod_mod_of_dvd n (by decide)
  rw [← BitVec.toNat_inj]
  simp [hmod]

theorem step_access_misaligned {a : Access} {rest : List Event} (hp : s.pending = .host a :: rest) (hw : a.width = 4)
    (hl : a.addr < 0x2000) (ha : a.addr % 4 ≠ 0) : step s = .refused .accessMisaligned := by
  rcases decodeAccess_total s.nchMax (accessKey a.write (BitVec.ofNat 13 a.addr) a.data) with ⟨-, hd⟩ | ⟨hal, -⟩
  · simp only [step, fetch_access hp hw hl, decode, hd, refusalOf]
  · rw [keyAddr_accessKey, ofNat_aligned_iff] at hal
    exact absurd hal ha

theorem step_access_aligned {a : Access} {rest : List Event} (hp : s.pending = .host a :: rest) (hw : a.width = 4)
    (hl : a.addr < 0x2000) (ha : a.addr % 4 = 0) : ∃ t, step s = .next t := by
  rcases decodeAccess_total s.nchMax (accessKey a.write (BitVec.ofNat 13 a.addr) a.data) with ⟨hal, -⟩ | ⟨-, i, hd, hi⟩
  · rw [keyAddr_accessKey, ne_eq, ofNat_aligned_iff] at hal
    exact absurd ha hal
  · rw [step_access_instr hp hw hl hd]
    exact exec_access_next _ hi

/-- Settles O8: width and range are checked at the fetch, the alignment by the decoder, and every access that decodes completes. -/
theorem onlyUndefinedAccessesAreRefused : Obligations.OnlyUndefinedAccessesAreRefused := by
  intro s a rest hp
  refine ⟨fun hbad => ?_, fun hw ha hl => step_access_aligned hp hw hl ha⟩
  by_cases hw : a.width = 4
  · by_cases hl : a.addr < 0x2000
    · have ha : a.addr % 4 ≠ 0 := by omega
      exact ⟨_, step_access_misaligned hp hw hl ha⟩
    · exact ⟨.accessOutOfSpace, step_of_fetch_refuse (by simp [State.fetch, hp, fetchAccess, hw, Nat.not_lt.1 hl])⟩
  · exact ⟨.accessWidth, step_of_fetch_refuse (by simp [State.fetch, hp, fetchAccess, hw])⟩

/-! ## Reserved and read-only registers (R63, R151) -/

/-- A reserved access gives the host 0 if it is a read, and changes nothing if it is a write. -/
theorem exec_decodeReserved (wr : Bool) (a : BitVec 13) (d : Word) :
    exec (decodeReserved wr a d) s = .next (if wr then s else { s with rdata := some 0 }) := by
  cases wr <;> rfl

/-- Settles O9: a reserved address decodes to its reserved row, and each read-only write is an ignored one. -/
theorem reservedReadsZeroIgnoresWrites : Obligations.ReservedReadsZeroIgnoresWrites := by
  refine ⟨fun s a rest hp hw hl hres => ?_, fun s c a g d => ?_⟩
  · rw [step_access_instr hp hw hl (decodeAccess_reserved _ _ _ _ hres), exec_decodeReserved]
  · exact ⟨rfl, rfl, rfl, rfl, rfl, rfl, rfl, rfl, rfl⟩

/-! ## The byte a step cannot read (R65, R222) -/

theorem Memory.read_of_le {m : Memory} {a : Nat} (h : m.size ≤ a) : m.read a = none := by
  simp [Memory.read, Nat.not_lt.2 h]

theorem Channel.raiseFault_range :
    x.raiseFault .range = { x with state := .fault, fRange := true, cause := .range } := rfl

/-- A turn that needs a byte, and is not held, takes RANGE when the byte lies outside the image. -/
theorem Channel.turn_of_unreadable
    (hs : x.selects = some .hdr ∨ (x.selects = some .dataHi ∧ hasRoom depth x))
    (hpm : x.pm.size ≤ x.address) : x.turn depth = some (x.raiseFault .range) := by
  rcases hs with hs | ⟨hs, hroom⟩
  · simp [Channel.turn, hs, Memory.read_of_le hpm]
  · simp [Channel.turn, hs, Channel.queueFull_eq_false_iff.2 hroom, Memory.read_of_le hpm]

/-- Settles O17: the sequencer selects HDR or DATA_HI, and the turn of either takes RANGE. -/
theorem unreadableByteTakesRange : Obligations.UnreadableByteTakesRange := by
  intro s c x rest hp hc hrun hnph hpos hroom hpm
  have hs : x.selects = some .hdr ∨ (x.selects = some .dataHi ∧ hasRoom s.fifoDepth x) := by
    by_cases h8 : x.pos % 8 = 0
    · exact .inl (Channel.selects_hdr.2 ⟨hrun, hnph, hpos, h8⟩)
    · exact .inr ⟨Channel.selects_dataHi.2 ⟨hrun, hnph, hpos, h8⟩, hroom.resolve_left h8⟩
  rw [step_engine hp hc, Channel.turn_of_unreadable hs hpm, Channel.raiseFault_range]

/-! ## Who writes payload memory (R60, R70) -/

theorem HostChange.pm {i : Option Instr} (h : HostChange i c x y) : y.pm = x.pm := by
  cases h <;> rfl

/-- Of all a step can make of a channel, only a new image outside RUN changes its image. -/
theorem StepChange.pm (h : StepChange s c x y) (hr : x.state = .run) : y.pm = x.pm := by
  cases h with
  | same | drained | reset => rfl
  | turn _ _ ht =>
    obtain ⟨⟨-, -, -, -, hpm⟩, -⟩ := Channel.turn_keeps ht
    exact hpm
  | load _ _ hn => exact absurd hr hn
  | host _ _ _ hc => exact hc.pm

theorem State.payloadByte_of_channel? (h : s.channel? c = some x) (a : Nat) : s.payloadByte c a = x.pm.read a := by
  simp [State.payloadByte, h]

theorem State.payloadByte_congr (h : t.channels = s.channels) (c : Chan) (a : Nat) :
    t.payloadByte c a = s.payloadByte c a := by
  simp only [State.payloadByte, State.channel?_congr h]

/-- An instruction that is no host access is one of the five engine instructions. -/
theorem engine_of_not_isAccess {i : Instr} (h : i.isAccess = false) :
    ∃ c k sh hi lo, i ∈ [.hdr c k sh, .hdrBadpred c k sh, .dataHi c hi lo, .dataLo c, .endRun c] := by
  cases i with
  | hdr c k sh => exact ⟨c, k, sh, 0, 0, by simp⟩
  | hdrBadpred c k sh => exact ⟨c, k, sh, 0, 0, by simp⟩
  | dataHi c hi lo => exact ⟨c, 0, 0, hi, lo, by simp⟩
  | dataLo c => exact ⟨c, 0, 0, 0, 0, by simp⟩
  | endRun c => exact ⟨c, 0, 0, 0, 0, by simp⟩
  | _ => cases h

theorem exec_payloadByte {i : Instr} (h : exec i s = .next t) (c : Chan) (a : Nat) :
    t.payloadByte c a = s.payloadByte c a := by
  cases hi : i.isAccess with
  | false =>
    obtain ⟨d, k, sh, hi, lo, hmem⟩ := engine_of_not_isAccess hi
    obtain ⟨-, hbytes, -⟩ := engineInstructionFrame s t d i k sh hi lo hmem h
    exact hbytes c a
  | true =>
    obtain ⟨-, -, hch | ⟨d, x, y, hd, hxy, hch⟩⟩ := exec_access_channels h hi
    · exact State.payloadByte_congr hch c a
    · rw [State.payloadByte_congr hch, setChannel_payloadByte hd hxy.pm]

/-- Settles O26: no instruction writes an image, and the host's replacement is refused in RUN. -/
theorem payloadIsNotWrittenDuringRun : Obligations.PayloadIsNotWrittenDuringRun := by
  refine ⟨fun i s t h => exec_payloadByte h, fun s t c x h hc hr a => ?_⟩
  obtain ⟨y, hy, hxy⟩ := step_channel h hc
  rw [State.payloadByte_of_channel? hy, State.payloadByte_of_channel? hc, hxy.pm hr]

/-! ## The results of an ended run (R71) -/

/-- What R71 keeps of a channel through a step that runs `i`; a history register stays unless `i` is the host's write of it (log 18). -/
def SameResults (i : Option Instr) (c : Chan) (x y : Channel) : Prop :=
  y.state = x.state ∧ y.pos = x.pos ∧ y.scount = x.scount ∧ y.ps = x.ps ∧
    ((∀ d, i ≠ some (.chHist1W c d)) → y.hist1 = x.hist1) ∧ ((∀ d, i ≠ some (.chHist2W c d)) → y.hist2 = x.hist2)

theorem SameResults.refl (i : Option Instr) (c : Chan) (x : Channel) : SameResults i c x x :=
  ⟨rfl, rfl, rfl, rfl, fun _ => rfl, fun _ => rfl⟩

theorem HostChange.sameResults {i : Option Instr} (h : HostChange i c x y) (hr : x.state ≠ .run)
    (hstart : ∀ d, i ≠ some (.chCtrlStart c d)) (habort : ∀ d, i ≠ some (.chCtrlAbort c d)) : SameResults i c x y := by
  cases h with
  | start d hi => exact absurd hi (hstart d)
  | abort d hi => exact absurd hi (habort d)
  | warn hrun => exact absurd hrun hr
  | pop => exact .refl i c x
  | config _ _ _ _ _ _ _ hist1 hist2 => exact ⟨rfl, rfl, rfl, rfl, hist1, hist2⟩

theorem StepChange.sameResults (h : StepChange s c x y) (hr : x.state ≠ .run)
    (hreset : s.pending.head? ≠ some .reset) (hstart : ∀ d, s.nextInstr ≠ some (.chCtrlStart c d))
    (habort : ∀ d, s.nextInstr ≠ some (.chCtrlAbort c d)) : SameResults s.nextInstr c x y := by
  cases h with
  | same | drained | load => exact .refl _ c x
  | turn _ _ ht =>
    obtain ⟨-, -, -, -, -, hidle⟩ := Channel.turn_keeps ht
    rw [hidle hr]
    exact .refl _ c x
  | reset hp => exact absurd hp hreset
  | host _ _ _ hc => exact hc.sameResults hr hstart habort

/-- Settles O30: an engine outside RUN has no turn, and the host's writes but START and ABORT are to the configuration. -/
theorem endedRunKeepsItsResults : Obligations.EndedRunKeepsItsResults := by
  intro s t c x h hc hended hreset hstart habort
  have hr : x.state ≠ .run := by rcases hended with he | he <;> simp [he]
  obtain ⟨y, hy, hxy⟩ := step_channel h hc
  exact ⟨y, hy, hxy.sameResults hr hreset hstart habort⟩

end Sys2Proof.Machine
end

section
/-! PROOFS. The family of 30_encoding.md: the decoder and the encoder are inverse, the decoder follows the opcode table, a step runs what is decoded, and a whole run of an engine. -/

namespace Sys2Proof

open Machine

variable {nch : Nat} {wr : Bool} {a : BitVec 13} {c : Chan} {off : BitVec 8} {d : Word} {i : Instr} {key : BitVec 46}
  {r r' : TableRow}

/-! ## Decoding an encoded instruction (R82, R84, R92) -/

theorem decodeCommand_of_start {start abort nop : Instr} (h : isStartWord d = true) :
    decodeCommand d start abort nop = start := by
  simp_all [isStartWord, decodeCommand]

theorem decodeCommand_of_abort {start abort nop : Instr} (h : isAbortWord d = true) :
    decodeCommand d start abort nop = abort := by
  simp_all [isAbortWord, decodeCommand]

theorem decodeCommand_of_nop {start abort nop : Instr} (h : isNopWord d = true) :
    decodeCommand d start abort nop = nop := by
  simp_all [isNopWord, decodeCommand]

theorem decodeHeader_of_pair (c : Chan) (k : BitVec 3) (sh : BitVec 4) :
    decodeHeader c (0#1 ++ k ++ sh) = .hdr c k sh := by
  have fields : ∀ (k : BitVec 3) (sh : BitVec 4), (0#1 ++ k ++ sh).getLsbD 7 = false ∧
      (0#1 ++ k ++ sh).extractLsb' 4 3 = k ∧ (0#1 ++ k ++ sh).extractLsb' 0 4 = sh := by decide
  obtain ⟨h7, hk, hsh⟩ := fields k sh
  simp only [decodeHeader, h7, hk, hsh, Bool.false_eq_true, if_false]

theorem decodeHeader_of_badPair (c : Chan) (k : BitVec 3) (sh : BitVec 4) :
    decodeHeader c (1#1 ++ k ++ sh) = .hdrBadpred c k sh := by
  have fields : ∀ (k : BitVec 3) (sh : BitVec 4), (1#1 ++ k ++ sh).getLsbD 7 = true ∧
      (1#1 ++ k ++ sh).extractLsb' 4 3 = k ∧ (1#1 ++ k ++ sh).extractLsb' 0 4 = sh := by decide
  obtain ⟨h7, hk, hsh⟩ := fields k sh
  simp only [decodeHeader, h7, hk, hsh, if_true]

theorem nibbles_append (hi lo : BitVec 4) :
    (hi ++ lo).extractLsb' 4 4 = hi ∧ (hi ++ lo).extractLsb' 0 4 = lo := by
  revert hi lo; decide

/-- An access to a register of the global window decodes to what its offset gives. -/
theorem decode_of_decodeGlobal {wr : Bool} {off : BitVec 8} (ho : off.extractLsb' 0 2 = 0#2)
    (hi : decodeGlobal wr (globalAddr off) off d = i) :
    decode nch (.access (accessKey wr (globalAddr off) d)) = .instr i := by
  rw [decode, decodeAccess_global _ _ _ _ ho, hi]

/-- An access to a register of a channel the block has decodes to what its offset gives. -/
theorem decode_of_decodeChannel {wr : Bool} {off : BitVec 8} (hc : hasChannel nch c = true)
    (ho : off.extractLsb' 0 2 = 0#2) (hi : decodeChannel wr (channelAddr c off) c off d = i) :
    decode nch (.access (accessKey wr (channelAddr c off) d)) = .instr i := by
  rw [decode, decodeAccess_channel _ _ _ _ _ ho hc, hi]

/-- Settles O2: by the instruction; an access is read back by its window, its offset and, for a command, its word. -/
theorem decodeOfEncodeIsTheInstruction : Obligations.DecodeOfEncodeIsTheInstruction := by
  intro nch i h
  cases i with
  | hdr c k sh => simp only [encode, decode, show hasChannel nch c = true from h, if_true, decodeHeader_of_pair]
  | hdrBadpred c k sh =>
    simp only [encode, decode, show hasChannel nch c = true from h, if_true, decodeHeader_of_badPair]
  | dataHi c hi lo =>
    obtain ⟨hhi, hlo⟩ := nibbles_append hi lo
    simp only [encode, decode, show hasChannel nch c = true from h, if_true, hhi, hlo]
  | dataLo | endRun => exact if_pos h
  | idR | idW | muxCtrlR | muxCfgW | muxCfgR | muxStatusR | muxOcountR => exact decode_of_decodeGlobal (by decide) rfl
  | globalRoW ocount d => cases ocount <;> exact decode_of_decodeGlobal (by decide) rfl
  | muxCtrlStart d => exact decode_of_decodeGlobal (by decide) (decodeCommand_of_start h)
  | muxCtrlAbort d => exact decode_of_decodeGlobal (by decide) (decodeCommand_of_abort h)
  | muxCtrlNop d => exact decode_of_decodeGlobal (by decide) (decodeCommand_of_nop h)
  | chCtrlStart c d =>
    obtain ⟨hc, hd⟩ := Bool.and_eq_true_iff.1 h
    exact decode_of_decodeChannel hc (by decide) (decodeCommand_of_start hd)
  | chCtrlAbort c d =>
    obtain ⟨hc, hd⟩ := Bool.and_eq_true_iff.1 h
    exact decode_of_decodeChannel hc (by decide) (decodeCommand_of_abort hd)
  | chCtrlNop c d =>
    obtain ⟨hc, hd⟩ := Bool.and_eq_true_iff.1 h
    exact decode_of_decodeChannel hc (by decide) (decodeCommand_of_nop hd)
  | chCtrlR | chStatusR | chStatusW | chBaseW | chBaseR | chLenW | chLenR | chSrateW | chSrateR | chHist1W | chHist1R
  | chHist2W | chHist2R | chPosR | chPosW | chScountR | chScountW | chPsR | chPsW | chOutR | chOutW =>
    exact decode_of_decodeChannel h (by decide) rfl
  | chCoefW c j d => exact decode_of_decodeChannel h (coefOffset_align j) (decodeChannel_coef true _ c j d)
  | chCoefR c j => exact decode_of_decodeChannel h (coefOffset_align j) (decodeChannel_coef false _ c j 0)
  | rsvdR a => exact decodeAccess_reserved nch false a 0 h
  | rsvdW a d => exact decodeAccess_reserved nch true a d h

/-! ## Register and reserved addresses (R61, R63) -/

/-- The offsets of the global window that hold a register (R39). -/
def globalRegister (off : BitVec 8) : Bool := off = 0x00 ∨ off = 0x10 ∨ off = 0x14 ∨ off = 0x18 ∨ off = 0x1C

/-- The offsets of a channel window that hold a register (R34): the named registers, and the coefficients at 0x40 to 0x7C. -/
def channelRegister (off : BitVec 8) : Bool :=
  off = 0x00 ∨ off = 0x04 ∨ off = 0x08 ∨ off = 0x0C ∨ off = 0x10 ∨ off = 0x14 ∨ off = 0x18 ∨ off = 0x1C ∨
    off = 0x20 ∨ off = 0x24 ∨ off = 0x28 ∨ off.extractLsb' 6 2 = 1#2

theorem globalAddr_toNat (off : BitVec 8) : (globalAddr off).toNat = off.toNat := by
  revert off; decide

theorem channelAddr_toNat (c : Chan) (off : BitVec 8) :
    (channelAddr c off).toNat = 0x1000 + 0x100 * c.toNat + off.toNat := by
  obtain ⟨hlt, heq⟩ := channelReg_eq c off
  rw [← heq, BitVec.toNat_ofNat, Nat.mod_eq_of_lt hlt, channelReg]

/-- The decoder's alignment test (R62), as arithmetic. -/
theorem aligned_iff {w : Nat} (v : BitVec w) : v.extractLsb' 0 2 = 0#2 ↔ v.toNat % 4 = 0 := by
  rw [← BitVec.toNat_inj]
  simp

/-- In the global window an aligned address is reserved exactly when it holds no register. -/
theorem reservedAddr_globalAddr (ho : off.extractLsb' 0 2 = 0#2) :
    reservedAddr nch (globalAddr off) = !globalRegister off := by
  have hlt := off.isLt
  have ranges : ∀ off : BitVec 8, off.extractLsb' 0 2 = 0#2 →
      (decide (off.toNat % 4 = 0) && (decide (4 ≤ off.toNat) && decide (off.toNat ≤ 0xC) ||
        decide (0x20 ≤ off.toNat) && decide (off.toNat ≤ 0xFC))) = !globalRegister off := by decide
  simp only [reservedAddr, globalAddr_toNat, hlt, if_true, Nat.mod_eq_of_lt hlt]
  exact ranges off ho

/-- In a channel's window an aligned address is reserved exactly when the block does not have the channel, or it holds no register. -/
theorem reservedAddr_channelAddr (ho : off.extractLsb' 0 2 = 0#2) :
    reservedAddr nch (channelAddr c off) = !(hasChannel nch c && channelRegister off) := by
  have hlt := off.isLt
  have hclt := c.isLt
  have ranges : ∀ off : BitVec 8, off.extractLsb' 0 2 = 0#2 →
      (decide (0x2C ≤ off.toNat) && decide (off.toNat ≤ 0x3C) || decide (0x80 ≤ off.toNat) && decide (off.toNat ≤ 0xFC)) =
        !channelRegister off := by decide
  have haligned := (aligned_iff off).1 ho
  have hoff : (0x1000 + 0x100 * c.toNat + off.toNat) % 0x100 = off.toNat := by omega
  have h4 : (0x1000 + 0x100 * c.toNat + off.toNat) % 4 = 0 := by omega
  have hwindow : (0x1000 + 0x100 * c.toNat + off.toNat) / 0x100 % 0x10 = c.toNat := by omega
  have hglobal : ¬ 0x1000 + 0x100 * c.toNat + off.toNat < 0x100 := by omega
  have hgap : ¬ 0x1000 + 0x100 * c.toNat + off.toNat < 0x1000 := by omega
  simp only [reservedAddr, channelAddr_toNat, hoff, h4, hwindow, hglobal, hgap, if_false, Bool.or_assoc,
    ranges off ho, hasChannel, decide_true, Bool.true_and, Bool.not_and, ← decide_not, Nat.not_lt]

/-- Every aligned address between the global window and the channels' is reserved. -/
theorem reservedAddr_gap (hlo : 0x100 ≤ a.toNat) (hhi : a.toNat < 0x1000) (ha : a.extractLsb' 0 2 = 0#2) :
    reservedAddr nch a = true := by
  simp [reservedAddr, (aligned_iff a).1 ha, Nat.not_lt.2 hlo, hhi]

/-- An address lies in the global window, in a channel's window, or between them (R61). -/
theorem addr_cases (a : BitVec 13) :
    (∃ off, a = globalAddr off) ∨ (0x100 ≤ a.toNat ∧ a.toNat < 0x1000) ∨ ∃ c off, a = channelAddr c off := by
  have hlt := a.isLt
  by_cases hglobal : a.toNat < 0x100
  · refine .inl ⟨BitVec.ofNat 8 a.toNat, BitVec.eq_of_toNat_eq ?_⟩
    rw [globalAddr_toNat, BitVec.toNat_ofNat, Nat.mod_eq_of_lt hglobal]
  · by_cases hgap : a.toNat < 0x1000
    · exact .inr (.inl ⟨by omega, hgap⟩)
    · refine .inr (.inr ⟨BitVec.ofNat 4 (a.toNat / 0x100), BitVec.ofNat 8 a.toNat, BitVec.eq_of_toNat_eq ?_⟩)
      rw [channelAddr_toNat, BitVec.toNat_ofNat, BitVec.toNat_ofNat]
      omega

/-! ## Encoding a decoded unit (R92) -/

/-- The instruction is well formed, and its unit is the access of `wr`, `a` and `d`, but for the data bits of a read. -/
def IsAccessInstr (nch : Nat) (wr : Bool) (a : BitVec 13) (d : Word) (i : Instr) : Prop :=
  i.wellFormed nch = true ∧ encode i = if wr then encodeWrite a d else encodeRead a

theorem canonicalUnit_accessKey (wr : Bool) (a : BitVec 13) (d : Word) :
    canonicalUnit (.access (accessKey wr a d)) = if wr then encodeWrite a d else encodeRead a := by
  cases wr <;> simp [canonicalUnit, encodeWrite, encodeRead]

theorem isAccessInstr_ite {p : Prop} [Decidable p] {x y : Instr} (hx : p → IsAccessInstr nch wr a d x)
    (hy : ¬ p → IsAccessInstr nch wr a d y) : IsAccessInstr nch wr a d (if p then x else y) := by
  split
  · exact hx ‹_›
  · exact hy ‹_›

theorem isAccessInstr_dir {w r : Instr} (hw : IsAccessInstr nch true a d w) (hr : IsAccessInstr nch false a d r) :
    IsAccessInstr nch wr a d (if wr then w else r) := by
  cases wr
  · exact hr
  · exact hw

/-- A command's word meets the check of the row it decodes to. -/
theorem isAccessInstr_decodeCommand {start abort nop : Instr}
    (hs : isStartWord d = true → IsAccessInstr nch wr a d start)
    (ha : isAbortWord d = true → IsAccessInstr nch wr a d abort)
    (hn : isNopWord d = true → IsAccessInstr nch wr a d nop) :
    IsAccessInstr nch wr a d (decodeCommand d start abort nop) := by
  unfold decodeCommand
  split
  next h1 => exact ha h1
  next h1 =>
    split
    next h0 => exact hs (by simp only [isStartWord, h0, h1, Bool.not_false, Bool.and_self])
    next h0 => exact hn (by simp only [isNopWord, h0, h1, Bool.not_false, Bool.and_self])

theorem isAccessInstr_decodeReserved (h : reservedAddr nch a = true) :
    IsAccessInstr nch wr a d (decodeReserved wr a d) := by
  cases wr <;> exact ⟨h, rfl⟩

theorem isAccessInstr_decodeGlobal (ho : off.extractLsb' 0 2 = 0#2) :
    IsAccessInstr nch wr (globalAddr off) d (decodeGlobal wr (globalAddr off) off d) := by
  unfold decodeGlobal
  refine isAccessInstr_ite (fun h => ?_) (fun _ => ?_)
  · subst h
    exact isAccessInstr_dir ⟨rfl, rfl⟩ ⟨rfl, rfl⟩
  refine isAccessInstr_ite (fun h => ?_) (fun _ => ?_)
  · subst h
    exact isAccessInstr_dir
      (isAccessInstr_decodeCommand (fun hd => ⟨hd, rfl⟩) (fun hd => ⟨hd, rfl⟩) (fun hd => ⟨hd, rfl⟩)) ⟨rfl, rfl⟩
  iterate 3
    refine isAccessInstr_ite (fun h => ?_) (fun _ => ?_)
    · subst h
      exact isAccessInstr_dir ⟨rfl, rfl⟩ ⟨rfl, rfl⟩
  refine isAccessInstr_decodeReserved ?_
  simp only [reservedAddr_globalAddr ho, globalRegister, *, or_self, decide_false, Bool.not_false]

/-- An aligned offset in 0x40 to 0x7C is that of the coefficient its bits [5:2] name (R34). -/
theorem coefOffset_extract (ho : off.extractLsb' 0 2 = 0#2) (hcoef : off.extractLsb' 6 2 = 1#2) :
    off = coefOffset (off.extractLsb' 2 4) := by
  revert off; decide

theorem isAccessInstr_decodeChannel (hc : hasChannel nch c = true) (ho : off.extractLsb' 0 2 = 0#2) :
    IsAccessInstr nch wr (channelAddr c off) d (decodeChannel wr (channelAddr c off) c off d) := by
  have both : ∀ {b : Bool}, b = true → (hasChannel nch c && b) = true := fun hb => Bool.and_eq_true_iff.2 ⟨hc, hb⟩
  unfold decodeChannel
  refine isAccessInstr_ite (fun h => ?_) (fun _ => ?_)
  · subst h
    exact isAccessInstr_dir
      (isAccessInstr_decodeCommand (fun hd => ⟨both hd, rfl⟩) (fun hd => ⟨both hd, rfl⟩) (fun hd => ⟨both hd, rfl⟩))
      ⟨hc, rfl⟩
  iterate 10
    refine isAccessInstr_ite (fun h => ?_) (fun _ => ?_)
    · subst h
      exact isAccessInstr_dir ⟨hc, rfl⟩ ⟨hc, rfl⟩
  refine isAccessInstr_ite (fun hcoef => ?_) (fun _ => ?_)
  · have hoff := coefOffset_extract ho hcoef
    exact isAccessInstr_dir ⟨hc, by rw [encode, ← hoff]; rfl⟩ ⟨hc, by rw [encode, ← hoff]; rfl⟩
  refine isAccessInstr_decodeReserved ?_
  simp only [reservedAddr_channelAddr ho, channelRegister, *, Bool.and_false, or_self, decide_false, Bool.not_false]

/-- Every host access that decodes is a well-formed instruction's own. -/
theorem isAccessInstr_of_decodeAccess (h : decodeAccess nch (accessKey wr a d) = .instr i) :
    IsAccessInstr nch wr a d i := by
  rcases decodeAccess_total nch (accessKey wr a d) with ⟨-, hrej⟩ | ⟨ha, -⟩
  · rw [hrej] at h
    cases h
  rw [keyAddr_accessKey] at ha
  have reserved : reservedAddr nch a = true → IsAccessInstr nch wr a d i := by
    intro hres
    rw [decodeAccess_reserved _ _ _ _ hres] at h
    cases h
    exact isAccessInstr_decodeReserved hres
  rcases addr_cases a with ⟨off, rfl⟩ | ⟨hlo, hhi⟩ | ⟨c, off, rfl⟩
  · rw [globalAddr_align] at ha
    rw [decodeAccess_global _ _ _ _ ha] at h
    cases h
    exact isAccessInstr_decodeGlobal ha
  · exact reserved (reservedAddr_gap hlo hhi ha)
  · rw [channelAddr_align] at ha
    cases hc : hasChannel nch c with
    | false => exact reserved (by rw [reservedAddr_channelAddr ha, hc]; rfl)
    | true =>
      rw [decodeAccess_channel _ _ _ _ _ ha hc] at h
      cases h
      exact isAccessInstr_decodeChannel hc ha

/-- A header byte is that of the instruction it decodes to. -/
theorem encode_decodeHeader (c : Chan) (b : Byte) : encode (decodeHeader c b) = .header c b := by
  unfold decodeHeader
  split
  next h7 => rw [encode, header_fields_bad b h7]
  next h7 => rw [encode, header_fields b (by simpa using h7)]

theorem wellFormed_decodeHeader (h : hasChannel nch c = true) (b : Byte) :
    (decodeHeader c b).wellFormed nch = true := by
  unfold decodeHeader
  split <;> exact h

/-- Settles O3: by the unit; an access by the window its address lies in. -/
theorem encodeOfDecodeIsTheUnit : Obligations.EncodeOfDecodeIsTheUnit := by
  intro nch u i h
  have engine : ∀ {c : Chan} {j : Instr},
      (if hasChannel nch c then Decoded.instr j else .reject .noSuchEngine) = .instr i → hasChannel nch c = true ∧ i = j := by
    intro c j h
    split at h
    next hc => exact ⟨hc, (Decoded.instr.inj h).symm⟩
    next => cases h
  cases u with
  | header c b =>
    obtain ⟨hc, rfl⟩ := engine h
    exact ⟨wellFormed_decodeHeader hc b, encode_decodeHeader c b⟩
  | data c b =>
    obtain ⟨hc, rfl⟩ := engine h
    exact ⟨hc, by rw [encode, data_fields]; rfl⟩
  | latched c | ended c =>
    obtain ⟨hc, rfl⟩ := engine h
    exact ⟨hc, rfl⟩
  | access key =>
    rw [← accessKey_fields key] at h ⊢
    rw [canonicalUnit_accessKey]
    exact isAccessInstr_of_decodeAccess h

/-! ## The opcode table (R92) -/

/-- The unit of every well-formed instruction is admitted by the row of its mnemonic. -/
theorem encode_admitted (i : Instr) : Laws.EncodeAdmitted.Statement i := by
  open Laws.EncodeAdmitted in
  cases i
  exacts [hdr _ _ _, hdrBadpred _ _ _, dataHi _ _ _, dataLo _, endRun _, idR, idW _, muxCtrlStart _, muxCtrlAbort _,
    muxCtrlNop _, muxCtrlR, muxCfgW _, muxCfgR, muxStatusR, muxOcountR, globalRoW _ _, chCtrlStart _ _,
    chCtrlAbort _ _, chCtrlNop _ _, chCtrlR _, chStatusR _, chStatusW _ _, chBaseW _ _, chBaseR _, chLenW _ _,
    chLenR _, chSrateW _ _, chSrateR _, chHist1W _ _, chHist1R _, chHist2W _ _, chHist2R _, chPosR _, chPosW _ _,
    chScountR _, chScountW _ _, chPsR _, chPsW _ _, chOutR _, chOutW _ _, chCoefW _ _ _, chCoefR _ _, rsvdR _,
    rsvdW _ _]

theorem accessKey_inj {wr' : Bool} {a' : BitVec 13} {d' : Word} :
    accessKey wr a d = accessKey wr' a' d' ↔ wr = wr' ∧ a = a' ∧ d = d' := by
  refine ⟨fun h => ⟨?_, ?_, ?_⟩, fun ⟨hw, ha, hd⟩ => by rw [hw, ha, hd]⟩
  · simpa using congrArg keyWrite h
  · simpa using congrArg keyAddr h
  · simpa using congrArg keyData h

/-- A row admits a key field by field. -/
theorem admits_accessKey : r.admits (accessKey wr a d) = true ↔
    (wr && keyWrite r.mask) = keyWrite r.pattern ∧ a &&& keyAddr r.mask = keyAddr r.pattern ∧
      d &&& keyData r.mask = keyData r.pattern := by
  have fields : accessKey wr a d &&& r.mask =
      accessKey (wr && keyWrite r.mask) (a &&& keyAddr r.mask) (d &&& keyData r.mask) := by
    conv_lhs => rw [← accessKey_fields r.mask]
    apply BitVec.eq_of_getLsbD_eq
    intro k hk
    simp only [BitVec.getLsbD_and, accessKey_getLsbD]
    split
    · rfl
    · split
      · rfl
      · cases decide (k - 45 = 0) <;> simp
  rw [TableRow.admits, beq_iff_eq, fields]
  constructor
  · intro h
    rw [← h, keyWrite_accessKey, keyAddr_accessKey, keyData_accessKey]
    exact ⟨rfl, rfl, rfl⟩
  · rintro ⟨hw, ha, hd⟩
    rw [hw, ha, hd, accessKey_fields]

/-- The data bits of a read key select nothing: they are 0 in the mask of every row for reads. -/
theorem applies_read_data (hr : r ∈ tableRows) {d' : Word} (h : r.applies nch (accessKey false a d') = true) :
    r.applies nch (accessKey false a d) = true := by
  have readRows : ∀ r ∈ tableRows, keyWrite r.pattern = false → keyData r.mask = 0 ∧ keyData r.pattern = 0 := by decide
  simp only [TableRow.applies, Bool.and_eq_true, admits_accessKey, keyAddr_accessKey, Bool.false_and] at h ⊢
  obtain ⟨⟨hw, ha, -⟩, hc⟩ := h
  obtain ⟨hmask, hpattern⟩ := readRows r hr hw.symm
  exact ⟨⟨hw, ha, by simp [hmask, hpattern]⟩, hc⟩

/-- The row of the instruction an access decodes to applies to its key. -/
theorem exists_row_of_decode (h : IsAccessInstr nch wr a d i) :
    ∃ r ∈ tableRows, r.mnemonic = i.mnemonic ∧ r.applies nch (accessKey wr a d) = true := by
  obtain ⟨hwf, henc⟩ := h
  have hadm := encode_admitted i nch hwf
  rw [henc] at hadm
  cases wr with
  | true => exact hadm
  | false =>
    obtain ⟨r, hr, hm, happ⟩ := hadm
    exact ⟨r, hr, hm, applies_read_data hr happ⟩

theorem admits_of_applies (h : r.applies nch key = true) : r.admits key = true := by
  simp only [TableRow.applies, Bool.and_eq_true] at h
  exact h.1

/-- Two rows that match one key agree where both masks are set. -/
theorem patterns_agree (h : r.admits key = true) (h' : r'.admits key = true) :
    r.pattern &&& r'.mask = r'.pattern &&& r.mask := by
  simp only [TableRow.admits, beq_iff_eq] at h h'
  rw [← h, ← h']
  ac_rfl

/-- No two register rows match one key. -/
theorem registerRows_disjoint (hr : r ∈ registerRows) (hr' : r' ∈ registerRows) (h : r.admits key = true)
    (h' : r'.admits key = true) : r' = r := by
  have clash : ∀ r ∈ registerRows, ∀ r' ∈ registerRows,
      r.pattern &&& r'.mask = r'.pattern &&& r.mask → r' = r := by decide
  exact clash r hr r' hr' (patterns_agree h h')

/-- The two reserved rows are told apart by the direction. -/
theorem reservedRows_disjoint (hr : r ∈ reservedRows) (hr' : r' ∈ reservedRows) (h : r.admits key = true)
    (h' : r'.admits key = true) : r' = r := by
  have clash : ∀ r ∈ reservedRows, ∀ r' ∈ reservedRows,
      r.pattern &&& r'.mask = r'.pattern &&& r.mask → r' = r := by decide
  exact clash r hr r' hr' (patterns_agree h h')

theorem maskBits_reserved_lt (hr : r ∈ registerRows) (hr' : r' ∈ reservedRows) : r'.maskBits < r.maskBits := by
  have bits : ∀ r ∈ registerRows, ∀ r' ∈ reservedRows, r'.maskBits < r.maskBits := by decide
  exact bits r hr r' hr'

/-- A row of the global window admits a register's address only (R39): its mask has every address bit, but for the row that leaves `addr[2]` open. -/
theorem globalRow_address (hr : r ∈ globalRows) (h : a &&& keyAddr r.mask = keyAddr r.pattern) :
    ∃ off, a = globalAddr off ∧ globalRegister off = true := by
  have high : ∀ r ∈ globalRows,
      (keyAddr r.mask).extractLsb' 8 5 = BitVec.allOnes 5 ∧ (keyAddr r.pattern).extractLsb' 8 5 = 0#5 := by decide
  have low : ∀ r ∈ globalRows,
      ((keyAddr r.mask).extractLsb' 0 8 = BitVec.allOnes 8 ∧
        globalRegister ((keyAddr r.pattern).extractLsb' 0 8) = true) ∨
      ((keyAddr r.mask).extractLsb' 0 8 = 0xFB#8 ∧ (keyAddr r.pattern).extractLsb' 0 8 = 0x18#8) := by decide
  have readOnly : ∀ off : BitVec 8, off &&& 0xFB#8 = 0x18#8 → globalRegister off = true := by decide
  obtain ⟨hmask, hpattern⟩ := high r hr
  have hhigh : a.extractLsb' 8 5 = 0#5 := by
    rw [← hpattern, ← h, BitVec.extractLsb'_and, hmask, BitVec.and_allOnes]
  have haddr : a = globalAddr (a.extractLsb' 0 8) := by
    rw [globalAddr, ← hhigh, BitVec.extractLsb'_append_extractLsb'_eq_extractLsb' (by rfl)]
    exact BitVec.extractLsb'_eq_self.symm
  refine ⟨_, haddr, ?_⟩
  rcases low r hr with ⟨hmask, hreg⟩ | ⟨hmask, hpattern⟩
  · rwa [← h, BitVec.extractLsb'_and, hmask, BitVec.and_allOnes] at hreg
  · rw [← h, BitVec.extractLsb'_and, hmask] at hpattern
    exact readOnly _ hpattern

/-- The rows of a channel's window. -/
def channelRows : List TableRow := channelCommandRows ++ channelConfigRows ++ channelReadRows

theorem mem_registerRows : r ∈ registerRows ↔ r ∈ globalRows ∨ r ∈ channelRows := by
  simp only [registerRows, channelRows, List.mem_append, or_assoc]

/-- A row of a channel window admits a register's address only (R34): its mask has every offset bit, but for the coefficient rows, which leave `addr[5:2]` open. -/
theorem channelRow_address (hr : r ∈ channelRows) (h : a &&& keyAddr r.mask = keyAddr r.pattern) :
    ∃ c off, a = channelAddr c off ∧ channelRegister off = true := by
  have high : ∀ r ∈ channelRows,
      (keyAddr r.mask).extractLsb' 12 1 = BitVec.allOnes 1 ∧ (keyAddr r.pattern).extractLsb' 12 1 = 1#1 := by decide
  have low : ∀ r ∈ channelRows,
      ((keyAddr r.mask).extractLsb' 0 8 = BitVec.allOnes 8 ∧
        channelRegister ((keyAddr r.pattern).extractLsb' 0 8) = true) ∨
      ((keyAddr r.mask).extractLsb' 0 8 = 0xC3#8 ∧ (keyAddr r.pattern).extractLsb' 0 8 = 0x40#8) := by decide
  have coefficient : ∀ off : BitVec 8, off &&& 0xC3#8 = 0x40#8 → channelRegister off = true := by decide
  obtain ⟨hmask, hpattern⟩ := high r hr
  have hhigh : a.extractLsb' 12 1 = 1#1 := by
    rw [← hpattern, ← h, BitVec.extractLsb'_and, hmask, BitVec.and_allOnes]
  have haddr : a = channelAddr (a.extractLsb' 8 4) (a.extractLsb' 0 8) := by
    rw [channelAddr, ← hhigh, BitVec.extractLsb'_append_extractLsb'_eq_extractLsb' (by rfl),
      BitVec.extractLsb'_append_extractLsb'_eq_extractLsb' (by rfl)]
    exact BitVec.extractLsb'_eq_self.symm
  refine ⟨_, _, haddr, ?_⟩
  rcases low r hr with ⟨hmask, hreg⟩ | ⟨hmask, hpattern⟩
  · rwa [← h, BitVec.extractLsb'_and, hmask, BitVec.and_allOnes] at hreg
  · rw [← h, BitVec.extractLsb'_and, hmask] at hpattern
    exact coefficient _ hpattern

/-- An aligned address that a register row applies to is not reserved. -/
theorem not_reserved_of_applies (hr : r ∈ registerRows) (ha : a.extractLsb' 0 2 = 0#2)
    (h : r.applies nch (accessKey wr a d) = true) : reservedAddr nch a = false := by
  simp only [TableRow.applies, Bool.and_eq_true, admits_accessKey, keyAddr_accessKey] at h
  obtain ⟨⟨-, haddr, -⟩, hchannel⟩ := h
  rcases mem_registerRows.1 hr with hr | hr
  · obtain ⟨off, rfl, hoff⟩ := globalRow_address hr haddr
    rw [globalAddr_align] at ha
    rw [reservedAddr_globalAddr ha, hoff, Bool.not_true]
  · have bit : ∀ r ∈ channelRows, r.pattern.getLsbD 44 = true := by decide
    obtain ⟨c, off, rfl, hoff⟩ := channelRow_address hr haddr
    rw [channelAddr_align] at ha
    rw [bit r hr, channelAddr_channel, Bool.not_true, Bool.false_or] at hchannel
    rw [reservedAddr_channelAddr ha, hchannel, hoff, Bool.and_self, Bool.not_true]

/-- An access that decodes to a reserved row's instruction is to a reserved address. -/
theorem reserved_of_mnemonic (h : IsAccessInstr nch wr a d i) (hr : r ∈ reservedRows)
    (hm : r.mnemonic = i.mnemonic) : reservedAddr nch a = true := by
  have hname : i.mnemonic = "RSVD_R" ∨ i.mnemonic = "RSVD_W" := by
    simp only [reservedRows, List.mem_cons, List.not_mem_nil, or_false] at hr
    rcases hr with rfl | rfl
    · exact .inl hm.symm
    · exact .inr hm.symm
  obtain ⟨hwf, henc⟩ := h
  cases i with
  | rsvdR a' | rsvdW a' d' =>
    obtain rfl : a' = a := by cases wr <;> simp_all [encode, encodeRead, encodeWrite, accessKey_inj]
    exact hwf
  | _ => simp [Instr.mnemonic] at hname

/-- Settles O4: two register rows never match one key, a register row has more mask bits than a reserved one, and none applies to a reserved address. -/
theorem decoderFollowsOpcodeTable : Obligations.DecoderFollowsOpcodeTable := by
  intro nch key halign
  obtain ⟨wr, a, d, rfl⟩ : ∃ wr a d, key = accessKey wr a d := ⟨_, _, _, (accessKey_fields key).symm⟩
  rw [keyAddr_accessKey] at halign
  have ha := (aligned_iff a).2 halign
  obtain ⟨i, hi⟩ : ∃ i, decodeAccess nch (accessKey wr a d) = .instr i := by
    rcases decodeAccess_total nch (accessKey wr a d) with ⟨hne, -⟩ | ⟨-, i, hi, -⟩
    · exact absurd (by rwa [keyAddr_accessKey]) hne
    · exact ⟨i, hi⟩
  have hinstr := isAccessInstr_of_decodeAccess hi
  obtain ⟨r, hr, hm, happ⟩ := exists_row_of_decode hinstr
  refine ⟨i, r, hi, hr, hm, happ, fun r' hr' happ' hne => ?_⟩
  have hadm := admits_of_applies happ
  have hadm' := admits_of_applies happ'
  rcases List.mem_append.1 hr with hreg | hres <;> rcases List.mem_append.1 hr' with hreg' | hres'
  · exact absurd (registerRows_disjoint hreg hreg' hadm hadm') hne
  · exact maskBits_reserved_lt hreg hres'
  · have hreserved := reserved_of_mnemonic hinstr hres hm
    rw [not_reserved_of_applies hreg' ha happ'] at hreserved
    cases hreserved
  · exact absurd (reservedRows_disjoint hres hres' hadm hadm') hne

end Sys2Proof

namespace Sys2Proof.Machine

variable {s t : State} {c : Chan} {x y : Channel} {depth : QueueDepth} {rest : List Event}

/-! ## Words and counts -/

/-- Settles O1: each unit is decoded by evaluation. -/
theorem sampleWordsDecode : Obligations.SampleWordsDecode := by
  unfold Obligations.SampleWordsDecode
  decide

/-- Settles O21: the quotient and the remainder of the length by the frame's 8 bytes. -/
theorem sampleCountOfLength : Obligations.SampleCountOfLength := by
  intro n r
  refine ⟨?_, fun h1 h7 => ?_⟩
  · have hdiv : n * 8 / 8 = n := by omega
    have hmod : n * 8 % 8 = 0 := by omega
    simp [nsamples, hdiv, hmod, Nat.mul_comm]
  · have hdiv : (n * 8 + r) / 8 = n := by omega
    have hmod : (n * 8 + r) % 8 = r := by omega
    simp [nsamples, hdiv, hmod, h1, Nat.mul_comm]

/-! ## The step of a fetched unit (R92, R100) -/

theorem step_of_fetch_code {e : Event} {u : CodeUnit} {i : Instr} (hp : s.pending = e :: rest)
    (hf : s.fetch = .code u) (hd : decode s.nchMax u = .instr i) : step s = exec i { s with pending := rest } := by
  simp only [step, hf, hd, State.retire_of_pending hp]

theorem fetch_engine (hp : s.pending = .engine c :: rest) : s.fetch = s.fetchEngine c := by
  simp only [State.fetch, hp]

/-- Settles O5: the unit a step fetches is the access's key, or what the sequencer selects of the engine. -/
theorem stepRunsDecodedInstruction : Obligations.StepRunsDecodedInstruction := by
  intro s i rest
  refine ⟨fun a hp hw hl hd => step_access_instr hp hw hl hd, fun c x hp hc => ?_⟩
  have fetched : ∀ {u : CodeUnit}, s.fetchEngine c = .code u → decode s.nchMax u = .instr i →
      step s = exec i { s with pending := rest } := fun hf hd => step_of_fetch_code hp ((fetch_engine hp).trans hf) hd
  refine ⟨fun hs => fetched ?_, fun hs => fetched ?_, fun b hs hb => fetched ?_, fun b hs hroom hb => fetched ?_⟩
  · simp only [State.fetchEngine, hc, hs]
  · simp only [State.fetchEngine, hc, hs]
  · simp only [State.fetchEngine, hc, hs, Channel.address, hb]
  · simp only [State.fetchEngine, hc, hs, Channel.address, hb, Channel.queueFull_eq_false_iff.2 hroom,
      Bool.false_eq_true, if_false]

/-! ## Absent channels (R61, R63) -/

/-- Settles O44: a channel access finds no engine to change or to read. -/
theorem absentChannelActsReserved : Obligations.AbsentChannelActsReserved := by
  intro s c j d h
  have hc : s.channel? c = none := State.channel?_eq_none_iff.2 h
  have write : ∀ f, updateChannel c f s = .next s := fun f => updateChannel_none hc
  have read : ∀ view, readChannel c view s = .next { s with rdata := some 0 } := fun view => readChannel_none hc
  have out : execChOutR c s = .next { s with rdata := some 0 } := by simp only [execChOutR, hc, State.returning]
  simp only [List.forall_mem_cons]
  exact ⟨⟨write _, write _, rfl, rfl, write _, write _, write _, write _, write _, rfl, rfl, rfl, rfl, write _, by simp⟩,
    ⟨read _, read _, read _, read _, read _, read _, read _, read _, read _, read _, out, read _, by simp⟩⟩

/-! ## The turns of a running engine (R101 to R105) -/

theorem Channel.turn_of_finish (hr : x.state = .run) (hn : x.nph = false) (hp : x.pos = x.len.toNat) :
    x.turn depth = some { x with state := .done } := by
  simp [Channel.turn, Channel.selects_finish.2 ⟨hr, hn, hp⟩]

theorem Channel.turn_of_header {b : Byte} (hr : x.state = .run) (hn : x.nph = false) (hp : x.pos ≠ x.len.toNat)
    (h8 : x.pos % 8 = 0) (hb : x.pm.read x.address = some b) (hpair : pairExists b = true) :
    x.turn depth = some { x with ps := b, pos := x.pos + 1 } := by
  simp only [Channel.turn, Channel.selects_hdr.2 ⟨hr, hn, hp, h8⟩, hb, pairExists_iff.1 hpair, Bool.false_eq_true,
    if_false]

theorem Channel.turn_of_data {b : Byte} (hr : x.state = .run) (hn : x.nph = false) (hp : x.pos ≠ x.len.toNat)
    (h8 : x.pos % 8 ≠ 0) (hroom : hasRoom depth x) (hb : x.pm.read x.address = some b) :
    x.turn depth = { x with db := b, pos := x.pos + 1, nph := true }.sample (b.extractLsb' 4 4) := by
  simp [Channel.turn, Channel.selects_dataHi.2 ⟨hr, hn, hp, h8⟩, hb, Channel.queueFull_eq_false_iff.2 hroom]

theorem Channel.turn_of_latched (hr : x.state = .run) (hn : x.nph = true) (hroom : hasRoom depth x) :
    x.turn depth = { x with nph := false }.sample (x.db.extractLsb' 0 4) := by
  simp [Channel.turn, Channel.selects_dataLo.2 ⟨hr, hn⟩, Channel.queueFull_eq_false_iff.2 hroom]

/-- SAMPLE, in the reference's terms. -/
theorem Channel.sample_eq_ref {n : BitVec 4} (h : pairExists x.ps = true) :
    x.sample n = some
      { x with
        hist2 := x.hist1
        hist1 := refSample x.coef x.ps x.hist1 x.hist2 n
        outq := x.outq ++ [refSample x.coef x.ps x.hist1 x.hist2 n]
        scount := x.scount + 1 } := by
  rw [Channel.sample_of_pair h, refSample_eq]

theorem hasRoom_unbounded (x : Channel) : hasRoom .unbounded x := by
  intro n h
  cases h

/-! ## A whole run (R80 to R87, R115) -/

/-- `n` turns of one engine, one after the other. -/
def Channel.turns (depth : QueueDepth) : Nat → Channel → Option Channel
  | 0, x => some x
  | n + 1, x => (x.turn depth).bind (Channel.turns depth n)

theorem Channel.turns_succ {n : Nat} (h : x.turn depth = some y) : x.turns depth (n + 1) = y.turns depth n := by
  simp [Channel.turns, h]

theorem State.setChannel_setChannel (s : State) (es es' : List Event) (c : Chan) (x y : Channel) :
    State.setChannel { State.setChannel { s with pending := es } c x with pending := es' } c y =
      State.setChannel { s with pending := es' } c y := by
  simp [State.setChannel]

/-- The machine's steps, while only engine `c` is scheduled, are the turns of its channel. -/
theorem runSteps_turns {n : Nat} (hp : s.pending = List.replicate n (.engine c) ++ rest) (hc : s.channel? c = some x)
    (h : x.turns s.fifoDepth n = some y) : runSteps n s = .next (State.setChannel { s with pending := rest } c y) := by
  induction n generalizing s x with
  | zero =>
    obtain rfl : x = y := Option.some.inj h
    obtain rfl : s.pending = rest := hp
    exact congrArg _ (State.setChannel_of_same hc).symm
  | succ n ih =>
    obtain ⟨z, hz, hy⟩ := Option.bind_eq_some_iff.1 h
    have hstep := step_engine hp hc
    simp only [hz] at hstep
    have hrest := ih (s := State.setChannel { s with pending := List.replicate n (.engine c) ++ rest } c z) rfl
      (State.setChannel_channel?_self hc) hy
    rw [State.setChannel_setChannel] at hrest
    exact (runSteps_of_next hstep).trans hrest

/-- The channel after both nibbles of the data byte `b` (R104, R105), in the reference's terms. -/
def Channel.afterData (x : Channel) (b : Byte) : Channel :=
  let v := refSample x.coef x.ps x.hist1 x.hist2 (b.extractLsb' 4 4)
  let w := refSample x.coef x.ps v x.hist1 (b.extractLsb' 0 4)
  { x with db := b, pos := x.pos + 1, hist2 := v, hist1 := w, outq := x.outq ++ [v, w], scount := x.scount + 2 }

theorem Channel.turns_data {n : Nat} {b : Byte} (hr : x.state = .run) (hn : x.nph = false) (hp : x.pos ≠ x.len.toNat)
    (h8 : x.pos % 8 ≠ 0) (hpair : pairExists x.ps = true) (hb : x.pm.read x.address = some b) :
    x.turns .unbounded (n + 2) = (x.afterData b).turns .unbounded n := by
  have high := (Channel.turn_of_data hr hn hp h8 (hasRoom_unbounded x) hb).trans (Channel.sample_eq_ref hpair)
  rw [Channel.turns_succ high,
    Channel.turns_succ ((Channel.turn_of_latched (by exact hr) rfl (hasRoom_unbounded _)).trans
      (Channel.sample_eq_ref (by exact hpair)))]
  simp [Channel.afterData, hn]

/-- A run of the bytes that are left, from any position, ends in DONE with the reference's samples and history. -/
theorem Channel.turns_refSteps {bs : List Byte} (hr : x.state = .run) (hn : x.nph = false)
    (hlen : x.pos + bs.length = x.len.toNat) (hread : ∀ k < bs.length, x.pm.read (x.address + k) = bs[k]?)
    (hpair : x.pos % 8 ≠ 0 → pairExists x.ps = true) (hheaders : headersExist x.pos bs = true)
    (hcount : x.scount = nsamples x.pos) :
    ∃ ps db, x.turns .unbounded (refSteps x.pos bs) = some
      { x with
        state := .done, pos := x.pos + bs.length, scount := nsamples (x.pos + bs.length), ps := ps, db := db
        hist1 := (refHistory x.coef x.pos x.ps x.hist1 x.hist2 bs).1
        hist2 := (refHistory x.coef x.pos x.ps x.hist1 x.hist2 bs).2
        outq := x.outq ++ refDecode x.coef x.pos x.ps x.hist1 x.hist2 bs } := by
  induction bs generalizing x with
  | nil =>
    refine ⟨x.ps, x.db, (Channel.turns_succ (Channel.turn_of_finish hr hn hlen)).trans ?_⟩
    simp [Channel.turns, refHistory, refDecode, hcount]
  | cons b bs ih =>
    simp only [headersExist, Bool.and_eq_true, Bool.or_eq_true, bne_iff_ne] at hheaders
    obtain ⟨hheader, hheaders⟩ := hheaders
    simp only [List.length_cons] at hlen hread
    have hb : x.pm.read x.address = some b := by simpa using hread 0 (by omega)
    have hp : x.pos ≠ x.len.toNat := by omega
    have hlen' : x.pos + 1 + bs.length = x.len.toNat := by omega
    have hread' : ∀ k < bs.length, x.pm.read (x.base.toNat + (x.pos + 1) + k) = bs[k]? := by
      intro k hk
      have haddr : x.base.toNat + (x.pos + 1) + k = x.address + (k + 1) := by rw [Channel.address]; omega
      rw [haddr, hread (k + 1) (by omega), List.getElem?_cons_succ]
    by_cases h8 : x.pos % 8 = 0
    · have hpb := hheader.resolve_left (by simp [h8])
      obtain ⟨ps, db, h⟩ := ih (x := { x with ps := b, pos := x.pos + 1 }) hr hn hlen' hread' (fun _ => hpb) hheaders
        (by simp [hcount, nsamples_succ_of_header h8])
      refine ⟨ps, db, ?_⟩
      have hsteps : refSteps x.pos (b :: bs) = refSteps (x.pos + 1) bs + 1 := by simp [refSteps, h8, Nat.add_comm]
      rw [hsteps, Channel.turns_succ (Channel.turn_of_header hr hn hp h8 hb hpb), h]
      simp [refHistory, refDecode, h8, Nat.add_assoc, Nat.add_comm 1]
    · obtain ⟨ps, db, h⟩ := ih (x := x.afterData b) hr hn hlen' hread' (fun _ => hpair h8) hheaders
        (by simp [Channel.afterData, hcount, nsamples_succ_of_data h8])
      refine ⟨ps, db, ?_⟩
      have hsteps : refSteps x.pos (b :: bs) = refSteps (x.pos + 1) bs + 2 := by simp [refSteps, h8, Nat.add_comm]
      rw [hsteps, Channel.turns_data hr hn hp h8 (hpair h8) hb]
      refine h.trans ?_
      simp [Channel.afterData, refHistory, refDecode, h8, Nat.add_assoc, Nat.add_comm 1]

/-- Settles O23: the steps are the channel's turns, from position 0. -/
theorem fullRunDecodesThePayload : Obligations.FullRunDecodesThePayload := by
  intro s c x bs rest hc hr hpos hn hcount hdepth hlen hread hheaders hp
  obtain ⟨ps, db, h⟩ := Channel.turns_refSteps (x := x) (bs := bs) hr hn (by simp [hpos, hlen])
    (by simpa [Channel.address, hpos] using hread) (by simp [hpos]) (by rw [hpos]; exact hheaders)
    (by simp [hcount, hpos, nsamples])
  rw [hpos, Nat.zero_add, ← hdepth] at h
  exact ⟨ps, db, runSteps_turns hp hc h⟩

end Sys2Proof.Machine
end

section
/-! PROOFS. The family of 40_decode_datapath.md: the arithmetic of SAMPLE, the sequencer's choice, the effect of each engine instruction, and runs under any schedule. -/

namespace Sys2Proof.Machine

variable {s t : State} {c d : Chan} {x y : Channel} {depth : QueueDepth} {rest : List Event}

/-! ## The exact sum (R102, R108, R110, R111) -/

theorem nibble_bounds (n : BitVec 4) : -8 ≤ n.toInt ∧ n.toInt ≤ 7 := by
  revert n; decide

theorem scaleOf_bounds (ps : Byte) : 1 ≤ scaleOf ps ∧ scaleOf ps ≤ 32768 := by
  revert ps; decide

theorem sample_bounds (v : Sample) : -32768 ≤ v.toInt ∧ v.toInt ≤ 32767 := by
  have hlo := BitVec.le_toInt v
  have hhi := BitVec.toInt_lt (x := v)
  omega

/-- The scaled nibble lies between the least and the greatest nibble at the greatest scale. -/
theorem scaled_nibble_bounds (n : BitVec 4) (ps : Byte) :
    -262144 ≤ n.toInt * scaleOf ps ∧ n.toInt * scaleOf ps ≤ 229376 := by
  obtain ⟨hn, hn'⟩ := nibble_bounds n
  obtain ⟨hs, hs'⟩ := scaleOf_bounds ps
  constructor <;> nlinarith

/-- One history term: its least value has one factor at each end of the range, its greatest both at the lower end. -/
theorem history_term_bounds (u v : Sample) : -1073709056 ≤ u.toInt * v.toInt ∧ u.toInt * v.toInt ≤ 1073741824 := by
  obtain ⟨hu, hu'⟩ := sample_bounds u
  obtain ⟨hv, hv'⟩ := sample_bounds v
  rcases le_total 0 u.toInt with h0 | h0
  · constructor <;> nlinarith
  · constructor <;> nlinarith

/-- Settles O15: each of the three terms has its own range, and one choice of operands puts all three at an end. -/
theorem accumulatorRangeIsTight : Obligations.AccumulatorRangeIsTight := by
  refine ⟨fun n ps c1 c2 h1 h2 => ?_, ⟨-8, 0x0F, -32768, -32768, 32767, 32767, by decide⟩,
    ⟨7, 0x0F, -32768, -32768, -32768, -32768, by decide⟩⟩
  obtain ⟨hn, hn'⟩ := scaled_nibble_bounds n ps
  obtain ⟨hp, hp'⟩ := history_term_bounds c1 h1
  obtain ⟨hq, hq'⟩ := history_term_bounds c2 h2
  rw [accumulator]
  omega

theorem clamp_eq_max_min {a lo hi : Int} (h : lo ≤ hi) : clamp a lo hi = max lo (min hi a) := by
  unfold clamp
  split
  · omega
  · split <;> omega

/-- The sample before it is cut to 16 bits is the clamped floor of the rational quotient. -/
theorem pcmOf_eq_floor (acc : Int) : pcmOf acc = max (-32768) (min 32767 ⌊(acc : ℚ) / 2 ^ 11⌋) := by
  have hfloor : ⌊(acc : ℚ) / 2 ^ 11⌋ = floorShift acc 11 := mod_cast Rat.floor_intCast_div_natCast acc (2 ^ 11)
  rw [hfloor, pcmOf, clamp_eq_max_min (by decide)]

/-- A clamped value fits a sample. -/
theorem toInt_ofInt_pcmOf (acc : Int) : (BitVec.ofInt 16 (pcmOf acc)).toInt = pcmOf acc := by
  have hpcm : pcmOf acc = max (-32768) (min 32767 (floorShift acc 11)) := clamp_eq_max_min (by decide)
  exact BitVec.toInt_ofInt_eq_self (by decide) (by rw [hpcm]; omega) (by rw [hpcm]; omega)

theorem predict_toInt (n : BitVec 4) (ps : Byte) (c1 c2 h1 h2 : Sample) :
    (predict n ps c1 c2 h1 h2).toInt = pcmOf (accumulator n ps c1 c2 h1 h2) :=
  toInt_ofInt_pcmOf _

/-- The scale's exponent is the low nibble of the header byte. -/
theorem scaleOf_eq (ps : Byte) : scaleOf ps = 2 ^ (ps.toNat % 16) := by
  simp [scaleOf]

/-- The pair index is the high nibble of the header byte, when the pair exists. -/
theorem pairOf_toNat {ps : Byte} (h : ps.getLsbD 7 = false) : (pairOf ps).toNat = ps.toNat / 16 := by
  revert ps; decide

/-- Settles O14: the reference's sample, its fields read off the header byte as numbers. -/
theorem sampleIsThePredictorRecurrence : Obligations.SampleIsThePredictorRecurrence := by
  intro ch n h
  refine ⟨refSample ch.coef ch.ps ch.hist1 ch.hist2 n, ?_, Channel.sample_eq_ref (pairExists_iff.2 h)⟩
  rw [refSample, predict_toInt, pcmOf_eq_floor, accumulator, scaleOf_eq, pairOf_toNat h]

/-- A zero nibble adds nothing: the sum is the rounding constant and the two history terms. -/
theorem accumulator_zero_nibble (ps : Byte) (c1 c2 h1 h2 : Sample) :
    accumulator 0 ps c1 c2 h1 h2 = 1024 + c1.toInt * h1.toInt + c2.toInt * h2.toInt := by
  simp [accumulator]

/-- The rounding constant does not change a multiple of 2^11. -/
theorem pcmOf_round (v : Int) : pcmOf (1024 + 2048 * v) = max (-32768) (min 32767 v) := by
  have hfloor : floorShift (1024 + 2048 * v) 11 = v := by
    simp only [floorShift]
    omega
  rw [pcmOf, hfloor, clamp_eq_max_min (by decide)]

/-- A sample is its own clamp. -/
theorem clamp_sample (v : Sample) : max (-32768) (min 32767 v.toInt) = v.toInt := by
  obtain ⟨hlo, hhi⟩ := sample_bounds v
  omega

/-- Settles O16: the sum is 2048 times the weighted history sample, and the rounding constant. -/
theorem coefficientUnitWeights : Obligations.CoefficientUnitWeights := by
  intro ps h1 h2
  have hone : (2048 : Sample).toInt = 2048 := by decide
  have hneg : (-2048 : Sample).toInt = -2048 := by decide
  have hzero : (0 : Sample).toInt = 0 := by decide
  refine ⟨BitVec.eq_of_toInt_eq ?_, BitVec.eq_of_toInt_eq ?_, ?_⟩
  · rw [predict_toInt, accumulator_zero_nibble, hone, hzero, Int.zero_mul, Int.add_zero, pcmOf_round, clamp_sample]
  · rw [predict_toInt, accumulator_zero_nibble, hone, hzero, Int.zero_mul, Int.add_zero, pcmOf_round, clamp_sample]
  · have hterm : 1024 + -2048 * h1.toInt = 1024 + 2048 * -h1.toInt := by omega
    have hbound := sample_bounds h1
    rw [predict_toInt, accumulator_zero_nibble, hneg, hzero, Int.zero_mul, Int.add_zero, hterm, pcmOf_round]
    omega

/-! ## The step of an engine's turn (R100) -/

/-- The step of engine `c`'s event, when its turn goes on. -/
theorem step_engine_of_turn (hp : s.pending = .engine c :: rest) (hc : s.channel? c = some x)
    (ht : x.turn s.fifoDepth = some y) : step s = .next (State.setChannel { s with pending := rest } c y) := by
  rw [step_engine hp hc, ht]

/-- A turn that leaves its channel as it is only uses up its event. -/
theorem step_engine_of_hold (hp : s.pending = .engine c :: rest) (hc : s.channel? c = some x)
    (ht : x.turn s.fifoDepth = some x) : step s = .next { s with pending := rest } := by
  rw [step_engine_of_turn hp hc ht, State.setChannel_of_same (s := { s with pending := rest }) hc]

theorem Channel.turn_of_stopped (hr : x.state ≠ .run) : x.turn depth = some x := by
  simp only [Channel.turn, Channel.selects_none.2 hr]

/-- A pushing step holds while the queue is full. -/
theorem Channel.turn_of_full (hs : x.selects = some .dataLo ∨ x.selects = some .dataHi) (hf : ¬ hasRoom depth x) :
    x.turn depth = some x := by
  rcases hs with hs | hs <;> simp [Channel.turn, hs, Channel.queueFull_eq_true_iff.2 hf]

/-- Settles O6: the sequencer's four choices, and the turns that hold. -/
theorem sequencerSelectsInOrder : Obligations.SequencerSelectsInOrder := by
  intro s c x rest hc hp
  exact ⟨fun hr => ⟨Channel.selects_none.2 hr, step_engine_of_hold hp hc (Channel.turn_of_stopped hr)⟩,
    fun hr hn => Channel.selects_dataLo.2 ⟨hr, hn⟩,
    fun hr hn hpos => Channel.selects_finish.2 ⟨hr, hn, hpos⟩,
    fun hr hn hpos h8 => Channel.selects_hdr.2 ⟨hr, hn, hpos, h8⟩,
    fun hr hn hpos h8 => Channel.selects_dataHi.2 ⟨hr, hn, hpos, h8⟩,
    fun hs hfull => step_engine_of_hold hp hc (Channel.turn_of_full hs hfull)⟩

/-! ## The engine instructions (R101, R103 to R105) -/

theorem Memory.size_le_of_read_none {m : Memory} {a : Nat} (h : m.read a = none) : m.size ≤ a := by
  by_contra hlt
  simp [Memory.read, Nat.not_le.1 hlt] at h

/-- The byte of an engine that selects HDR names no pair: it is latched, not consumed, and the channel takes PRED. -/
theorem Channel.turn_of_bad_header {b : Byte} (hs : x.selects = some .hdr) (hb : x.pm.read x.address = some b)
    (h7 : b.getLsbD 7 = true) :
    x.turn depth = some { x with ps := b, state := .fault, fPred := true, cause := .pred } := by
  simp only [Channel.turn, hs, hb, h7, if_true]
  rfl

/-- Settles O10: the sequencer selects HDR, and the byte, if there is one, names a pair or not by its bit 7. -/
theorem hdrLatchesAndConsumesItsByte : Obligations.HdrLatchesAndConsumesItsByte := by
  intro s c x k sh hc hr hn hp h8
  have hs : x.selects = some .hdr := Channel.selects_hdr.2 ⟨hr, hn, hp, h8⟩
  have taken : ∀ {body : Channel → Option Channel} {y : Channel}, body x = some y →
      engineStep c .hdr body s = .next (s.setChannel c y) := engineStep_of_taken hc hs (by simp [EngineStep.pushes])
  refine ⟨fun hlt => ⟨taken (Channel.consuming_of_lt hlt), taken (Channel.consuming_of_lt hlt)⟩, fun hle => ?_,
    fun rest hpend => ⟨fun hb => ?_, fun b hb => ?_⟩⟩
  · simp only [List.forall_mem_cons]
    exact ⟨taken (Channel.consuming_of_le hle), taken (Channel.consuming_of_le hle), by simp⟩
  · exact step_engine_of_turn hpend hc (Channel.turn_of_unreadable (.inl hs) (Memory.size_le_of_read_none hb))
  · cases h7 : b.getLsbD 7 with
    | true => exact step_engine_of_turn hpend hc (Channel.turn_of_bad_header hs hb h7)
    | false => exact step_engine_of_turn hpend hc (Channel.turn_of_header hr hn hp h8 hb (pairExists_iff.2 h7))

/-- Settles O11: the sequencer selects DATA_HI, and SAMPLE of the high nibble is the reference's sample. -/
theorem dataHiDecodesHighNibble : Obligations.DataHiDecodesHighNibble := by
  intro s c x hi lo hc hr hn hp h8
  have hs : x.selects = some .dataHi := Channel.selects_dataHi.2 ⟨hr, hn, hp, h8⟩
  refine ⟨fun hfull => engineStep_of_full hc rfl hfull, fun hroom hlt h7 => ?_, fun hroom hle => ?_,
    fun rest hpend hroom => ⟨fun hb => ?_, fun b hb h7 => ?_⟩⟩
  · exact engineStep_of_taken hc hs (fun _ => hroom)
      ((Channel.consuming_of_lt hlt).trans (Channel.sample_eq_ref (pairExists_iff.2 h7)))
  · exact engineStep_of_taken hc hs (fun _ => hroom) (Channel.consuming_of_le hle)
  · exact step_engine_of_turn hpend hc
      (Channel.turn_of_unreadable (.inr ⟨hs, hroom⟩) (Memory.size_le_of_read_none hb))
  · exact step_engine_of_turn hpend hc
      ((Channel.turn_of_data hr hn hp h8 hroom hb).trans (Channel.sample_eq_ref (pairExists_iff.2 h7)))

/-- Settles O12: the sequencer selects DATA_LO, and SAMPLE of the low nibble is the reference's sample. -/
theorem dataLoDecodesLatchedNibble : Obligations.DataLoDecodesLatchedNibble := by
  intro s c x hc hr hn
  refine ⟨fun hfull => engineStep_of_full hc rfl hfull, fun hroom h7 => ?_⟩
  exact engineStep_of_taken hc (Channel.selects_dataLo.2 ⟨hr, hn⟩) (fun _ => hroom)
    (Channel.sample_eq_ref (pairExists_iff.2 h7))

/-- Settles O13: the sequencer selects END. -/
theorem endOnlySetsDone : Obligations.EndOnlySetsDone := by
  intro s c x hc hr hn hp
  exact engineStep_of_taken (body := fun x => some { x with state := .done }) hc (Channel.selects_finish.2 ⟨hr, hn, hp⟩)
    (by simp [EngineStep.pushes]) rfl

/-! ## The end of a run (R115) -/

/-- Settles O22: the invariant counts the samples of the bytes consumed, and at END those are all of them. -/
theorem doneRunPushedAllSamples : Obligations.DoneRunPushedAllSamples := by
  intro s c x rest hinv hp hc hr hn hpos
  obtain ⟨-, -, -, -, -, -, -, hcount⟩ := hinv.channel hc
  have hscount : x.scount = nsamples x.len.toNat := by simpa [hr, hn, hpos] using hcount
  exact ⟨_, _, step_engine_of_turn hp hc (Channel.turn_of_finish hr hn hpos),
    State.setChannel_channel?_self (s := { s with pending := rest }) hc, rfl, hscount, hpos⟩

/-! ## Two engines' turns (R113) -/

/-- Replacing two different engines, in either order. -/
theorem State.setChannel_comm (s : State) (x y : Channel) (h : c ≠ d) :
    (s.setChannel c x).setChannel d y = (s.setChannel d y).setChannel c x := by
  have hne : c.toNat ≠ d.toNat := fun e => h (BitVec.eq_of_toNat_eq e)
  simp only [State.setChannel, List.set_comm _ _ hne]

/-- The turns of two different engines, one after the other. -/
theorem runSteps_two_engines (h : c ≠ d) (hp : s.pending = .engine c :: .engine d :: rest)
    (hc : s.channel? c = some x) (hd : s.channel? d = some y) {x' y' : Channel} (hx : x.turn s.fifoDepth = some x')
    (hy : y.turn s.fifoDepth = some y') :
    runSteps 2 s = .next ((State.setChannel { s with pending := rest } c x').setChannel d y') := by
  have hd' : (State.setChannel { s with pending := .engine d :: rest } c x').channel? d = some y :=
    (State.setChannel_channel?_ne h.symm).trans hd
  rw [runSteps_of_next (step_engine_of_turn hp hc hx), runSteps_of_next (step_engine_of_turn rfl hd' hy), runSteps_zero]
  rfl

/-- A step of an engine's event that goes on is a turn of a channel the block has. -/
theorem step_engine_next (hp : s.pending = .engine c :: rest) (h : step s = .next t) :
    ∃ x x', s.channel? c = some x ∧ x.turn s.fifoDepth = some x' ∧
      t = State.setChannel { s with pending := rest } c x' := by
  cases hc : s.channel? c with
  | none =>
    rw [step_engine_none hp hc] at h
    cases h
  | some x =>
    rw [step_engine hp hc] at h
    split at h
    · exact ⟨x, _, rfl, ‹_›, next_eq h⟩
    · cases h

/-- Several steps that go on are a step that goes on, and the rest from there. -/
theorem runSteps_succ_next {k : Nat} (h : runSteps (k + 1) s = .next t) :
    ∃ u, step s = .next u ∧ runSteps k u = .next t := by
  rw [runSteps_succ] at h
  cases hstep : step s with
  | next u => exact ⟨u, rfl, by simpa only [hstep] using h⟩
  | fault f => simp [hstep] at h
  | refused r => simp [hstep] at h

/-- Settles O19: each turn takes its own channel only, so both orders replace the same two channels by the same. -/
theorem engineStepsCommute : Obligations.EngineStepsCommute := by
  intro s t c d rest hne hp h
  obtain ⟨u, hstep, h⟩ := runSteps_succ_next h
  obtain ⟨x, x', hc, hx, rfl⟩ := step_engine_next hp hstep
  obtain ⟨u, hstep, h⟩ := runSteps_succ_next h
  obtain ⟨y, y', hd', hy, rfl⟩ := step_engine_next rfl hstep
  obtain rfl := next_eq h
  have hd : s.channel? d = some y := (State.setChannel_channel?_ne hne.symm).symm.trans hd'
  rw [runSteps_two_engines (s := { s with pending := .engine d :: .engine c :: rest }) hne.symm rfl hd hc hy hx]
  exact congrArg _ (State.setChannel_comm { s with pending := rest } y' x' hne.symm)

/-! ## Runs under any schedule (R118) -/

/-- Settles O24: among turns and host reads the channel goes through queue-free turns, which push the samples ahead and end in one way only. -/
theorem runResultIsScheduleIndependent : Obligations.RunResultIsScheduleIndependent := by
  refine ⟨fun s t c x y k hinv hx hr he h hy => ?_, fun s1 s2 t1 t2 c x1 x2 y1 y2 k1 k2 hx1 hx2 _ hsame he1 he2 h1 h2
    hy1 hy2 hend1 hend2 => ?_⟩
  · obtain ⟨-, -, hrun, -⟩ := hinv.channel hx
    obtain ⟨hpos, -⟩ := hrun hr
    obtain ⟨-, n, p, hiter, hq, hcount⟩ := runSteps_channel_free h hx hy (turnsAndReads_take he k)
    have hahead : x.samplesAhead = p ++ (if y.state = .run then y.core.samplesAhead else []) :=
      Channel.samplesAhead_iterate (x := x.core) (y := y.core) hiter hr hpos
    refine ⟨p.length, by simp [hahead], hcount, by simpa [hahead] using hq, fun hend => by simp [hahead, hend]⟩
  · obtain ⟨-, n1, p1, hiter1, -⟩ := runSteps_channel_free h1 hx1 hy1 (turnsAndReads_take he1 k1)
    obtain ⟨-, n2, p2, hiter2, -⟩ := runSteps_channel_free h2 hx2 hy2 (turnsAndReads_take he2 k2)
    have hcore : x1.core = x2.core := hsame
    rw [← hcore] at hiter2
    exact (Channel.iterate_unique (Channel.core_core x1) hiter1 hiter2 hend1 hend2).1

end Sys2Proof.Machine
end

section
/-! PROOFS. The family of 41_channel_control.md: commands, configuration writes and reads of the registers of a channel, the status word and the samples a host pops, and the configuration of a running channel. -/

namespace Sys2Proof.Machine

variable {s : State} {c : Chan} {x y : Channel} {depth : QueueDepth}

/-! ## The configuration of a running channel (R147) -/

theorem SameConfiguration.refl (x : Channel) : SameConfiguration x x :=
  ⟨rfl, rfl, rfl, rfl, rfl⟩

/-- The one host access that writes the configuration is a configuration write, which is ignored in RUN. -/
theorem HostChange.sameConfiguration {i : Option Instr} (h : HostChange i c x y) (hr : x.state = .run) :
    SameConfiguration x y := by
  cases h with
  | start | abort | warn | pop => exact .refl x
  | config hn => exact absurd hr hn

theorem StepChange.sameConfiguration (h : StepChange s c x y) (hr : x.state = .run)
    (hreset : s.pending.head? ≠ some .reset) : SameConfiguration x y := by
  cases h with
  | same | drained => exact .refl x
  | turn _ _ ht =>
    obtain ⟨hconf, -⟩ := Channel.turn_keeps ht
    exact hconf
  | reset hp => exact absurd hp hreset
  | load _ _ hn => exact absurd hr hn
  | host _ _ _ hc => exact hc.sameConfiguration hr

/-- Settles O27, by what the step made of the channel. -/
theorem configurationConstantDuringRun : Obligations.ConfigurationConstantDuringRun := by
  intro s t c x h hreset hc hr
  obtain ⟨y, hy, hxy⟩ := step_channel h hc
  exact ⟨y, hy, hxy.sameConfiguration hr hreset⟩

/-! ## Words put together from fields (R35, R38) -/

/-- Each field of a word counts from its own place. -/
theorem toNat_append_add {n m : Nat} (a : BitVec n) (b : BitVec m) :
    (a ++ b).toNat = 2 ^ m * a.toNat + b.toNat := by
  rw [BitVec.toNat_append, ← Nat.shiftLeft_add_eq_or_of_lt b.isLt, Nat.shiftLeft_eq, Nat.mul_comm]

theorem RunState.code_toNat (r : RunState) :
    r.code.toNat = (match r with | .idle => 0 | .run => 1 | .done => 2 | .fault => 3) := by
  cases r <;> rfl

theorem ChannelCause.code_toNat (e : ChannelCause) :
    e.code.toNat = (match e with | .none => 0 | .pred => 1 | .range => 2) := by
  cases e <;> rfl

theorem Channel.status_toNat (depth : QueueDepth) (x : Channel) :
    (x.status depth).toNat = x.state.code.toNat + 2 ^ 8 * (BitVec.ofBool x.fPred).toNat
      + 2 ^ 9 * (BitVec.ofBool x.fRange).toNat + 2 ^ 10 * (BitVec.ofBool x.fCfgw).toNat
      + 2 ^ 11 * (BitVec.ofBool x.queueEmpty).toNat + 2 ^ 12 * (BitVec.ofBool (x.queueFull depth)).toNat
      + 2 ^ 16 * x.cause.code.toNat := by
  simp only [Channel.status, toNat_append_add, BitVec.toNat_zero]
  omega

theorem outWord_eq (v : Sample) : outWord v = BitVec.ofNat 32 (2 ^ 16 + v.toNat) := by
  have hv := v.isLt
  apply BitVec.eq_of_toNat_eq
  simp only [outWord, toNat_append_add, BitVec.toNat_ofNat]
  omega

/-! ## The status word (R149) -/

/-- Of a queue within the depth, Q_FULL says that it holds `FIFO_DEPTH` samples. -/
theorem Channel.queueFull_iff_of_withinDepth (h : withinDepth depth x.outq.length) :
    x.queueFull depth = true ↔ depth = .bounded x.outq.length := by
  cases depth with
  | unbounded => simp [Channel.queueFull]
  | bounded n =>
    have hle : x.outq.length ≤ n := h
    simp only [Channel.queueFull, decide_eq_true_eq, QueueDepth.bounded.injEq]
    omega

/-- Settles O42: Q_EMPTY and Q_FULL by what they say of the queue, and the word by the places of its fields. -/
theorem channelStatusFields : Obligations.ChannelStatusFields := by
  intro s c x hc
  refine ⟨x.status s.fifoDepth, x.queueFull s.fifoDepth, readChannel_some hc,
    Channel.queueFull_iff_of_withinDepth, ?_⟩
  rw [Channel.status_toNat]
  -- the matches on the state and the cause may be compiled apart from those of the lemmas: they agree by rfl
  simp only [RunState.code_toNat, ChannelCause.code_toNat, BitVec.toNat_ofBool, Bool.toNat, Bool.cond_eq_ite,
    Channel.queueEmpty, List.isEmpty_iff]
    <;> rfl

/-! ## Reading a sample (R152) -/

theorem execChOutR_of_owned (hc : s.channel? c = some x) (ho : s.mux.mstate = .run ∧ c ∈ s.mux.chlist) :
    execChOutR c s = .next (s.returning 0) := by
  simp [execChOutR, hc, ho]

theorem execChOutR_of_empty (hc : s.channel? c = some x) (hq : x.outq = []) :
    execChOutR c s = .next (s.returning 0) := by
  simp [execChOutR, hc, hq]

theorem execChOutR_of_cons {v : Sample} {q : List Sample} (hc : s.channel? c = some x)
    (ho : ¬ (s.mux.mstate = .run ∧ c ∈ s.mux.chlist)) (hq : x.outq = v :: q) :
    execChOutR c s = .next ((s.setChannel c { x with outq := q }).returning (outWord v)) := by
  simp only [execChOutR, hc, if_neg ho, hq]

/-- Settles O43, one read for each branch of R152. -/
theorem outReadPopsOneSample : Obligations.OutReadPopsOneSample := by
  intro s c x hc
  refine ⟨fun hr hm => execChOutR_of_owned hc ⟨hr, hm⟩, execChOutR_of_empty hc, fun v q ho hq => ?_⟩
  rw [← outWord_eq]
  exact execChOutR_of_cons hc ho hq

/-! ## Commands (R141 to R145) -/

theorem execChCtrlStart_of_idle_or_done (d : Word) (hc : s.channel? c = some x)
    (h : x.state = .idle ∨ x.state = .done) : execChCtrlStart c d s = .next (s.setChannel c x.start) := by
  rw [execChCtrlStart, updateChannel_some hc, if_pos h]

/-- A START that begins no run puts the channel back as it was. -/
theorem execChCtrlStart_of_run_or_fault (d : Word) (hc : s.channel? c = some x)
    (h : x.state = .run ∨ x.state = .fault) : execChCtrlStart c d s = .next s := by
  have hn : ¬ (x.state = .idle ∨ x.state = .done) := by rcases h with h | h <;> simp [h]
  rw [execChCtrlStart, updateChannel_some hc, if_neg hn, State.setChannel_of_same hc]

/-- Settles O36, by the state of the engine. -/
theorem channelStartBeginsARun : Obligations.ChannelStartBeginsARun :=
  fun _ _ _ d hc => ⟨execChCtrlStart_of_idle_or_done d hc, execChCtrlStart_of_run_or_fault d hc⟩

/-- Settles O37: ABORT is a host write of the channel, and the other command an ignored one. -/
theorem channelAbortReturnsToIdle : Obligations.ChannelAbortReturnsToIdle :=
  fun _ _ _ _ hc => ⟨updateChannel_some hc, rfl⟩

/-! ## Configuration writes (R146, R147) -/

theorem sampleStored_eq (d : Word) : sampleStored d = BitVec.ofNat 16 d.toNat := by
  simp [sampleStored, BitVec.extractLsb']

/-- Settles O38: each of the six is a configuration write outside RUN. -/
theorem configurationWriteStores : Obligations.ConfigurationWriteStores := by
  intro s c x i d hc hr
  rw [← sampleStored_eq]
  refine ⟨configWrite_not_run hc hr, configWrite_not_run hc hr, configWrite_not_run hc hr, configWrite_not_run hc hr,
    configWrite_not_run hc hr, x.coef.set i.toNat (sampleStored d) i.isLt, configWrite_not_run hc hr, fun j hj => ?_⟩
  rw [Vector.getElem_set]
  simp only [eq_comm]

/-- Settles O39: each of the six is a configuration write in RUN. -/
theorem configurationWriteIgnoredInRun : Obligations.ConfigurationWriteIgnoredInRun := by
  intro s c x j d hc hr i hi
  simp only [List.mem_cons, List.not_mem_nil, or_false] at hi
  rcases hi with rfl | rfl | rfl | rfl | rfl | rfl
  all_goals exact configWrite_run hc hr

/-! ## Reads without side effect (R148, R150) -/

theorem sampleView_eq (v : Sample) : sampleView v = BitVec.ofInt 32 v.toInt := rfl

/-- Settles O40: each is a read of the channel, and the views are R37's. -/
theorem configurationReadsReturnStored : Obligations.ConfigurationReadsReturnStored := by
  intro s c x i hc
  have hi : x.coef.toList.getD i.toNat 0 = x.coef[i.toNat]'i.isLt := by
    have := i.isLt
    simp [List.getD_eq_getElem?_getD, this]
  rw [hi, ← sampleView_eq, ← sampleView_eq, ← sampleView_eq]
  exact ⟨readChannel_some hc, readChannel_some hc, readChannel_some hc, readChannel_some hc, readChannel_some hc,
    readChannel_some hc⟩

theorem counterView_eq (n : Nat) : counterView n = BitVec.ofNat 32 (n % 2 ^ 32) := by
  apply BitVec.eq_of_toNat_eq
  simp [counterView]

/-- Settles O41: each is a read of the channel, and the views are R45's. -/
theorem counterReadsReturnViews : Obligations.CounterReadsReturnViews := by
  intro s c x hc
  rw [← counterView_eq, ← counterView_eq, BitVec.ofNat_toNat]
  exact ⟨readChannel_some hc, readChannel_some hc, readChannel_some hc, readChannel_some hc⟩

end Sys2Proof.Machine
end

section
/-! PROOFS. The family of 42_multiplexer.md: the multiplexer's commands, registers and step, and whole multiplexer runs under any schedule. -/

namespace Sys2Proof.Machine

variable {s t : State} {c d : Chan} {x y z : Channel} {m : Mux} {rest : List Event} {v w : Sample} {q : List Sample}

/-! ## Commands (R171 to R175, R179, R180) -/

/-- Settles O48: ABORT and the other command, each by its meaning. -/
theorem muxAbortReturnsToIdle : Obligations.MuxAbortReturnsToIdle :=
  fun _ _ => ⟨rfl, rfl⟩

/-- Settles O47: neither state is one that a START leaves. -/
theorem muxStartIgnoredInRunAndFault : Obligations.MuxStartIgnoredInRunAndFault := by
  intro s d h
  have hn : ¬ (s.mux.mstate = .idle ∨ s.mux.mstate = .done) := by rcases h with h | h <;> simp [h]
  rw [exec, execMuxCtrlStart, if_neg hn]

theorem execMuxCtrlStart_of_idle_or_done (d : Word) (h : s.mux.mstate = .idle ∨ s.mux.mstate = .done) :
    execMuxCtrlStart d s = .next (s.setMux s.muxStarted) :=
  if_pos h

/-- Settles O46: the three flags are the model's checks, one of which fails. -/
theorem muxStartFailsItsChecks : Obligations.MuxStartFailsItsChecks := by
  intro s d eCount eRate eLen hidle hcount hrate hlen hfail
  have hcount : chcountBad s.mux.mnch s.nchMax (sourcesOf s.mux.msrc) = eCount :=
    Bool.eq_iff_iff.2 (chcountBad_iff.trans hcount.symm)
  have hrate : rateBad (s.validSources (sourcesOf s.mux.msrc)) = eRate :=
    Bool.eq_iff_iff.2 (rateBad_iff.trans hrate.symm)
  have hlen : lenBad (s.validSources (sourcesOf s.mux.msrc)) = eLen :=
    Bool.eq_iff_iff.2 (lenBad_iff.trans hlen.symm)
  have hfail : (eCount || eRate || eLen) = true := by simpa [or_assoc] using hfail
  have hstarted : s.muxStarted = s.mux.raiseStart eCount eRate eLen := by
    simp only [State.muxStarted, hcount, hrate, hlen, hfail, if_true]
  rw [exec, execMuxCtrlStart_of_idle_or_done d hidle, hstarted]
  rfl

/-- When the lengths agree (R175), the first channel's sample count is every channel's. -/
theorem firstLength_eq_nsamples {chs : List Channel} (h : lenBad chs = false) (hx : x ∈ chs) :
    firstLength chs = nsamples x.len.toNat := by
  cases chs with
  | nil => simp at hx
  | cons ch chs =>
    by_contra hne
    have hbad : lenBad (ch :: chs) = true :=
      (someDiffer_iff _).2 ⟨_, List.mem_map.2 ⟨ch, by simp, rfl⟩, _, List.mem_map.2 ⟨x, hx, rfl⟩, hne⟩
    simp [h] at hbad

/-- Settles O45: none of the three checks fails, and the channels latched are those `MSRC` selects. -/
theorem muxStartBeginsARun : Obligations.MuxStartBeginsARun := by
  intro s d hidle hmnch hexist hnum hsame
  have hcount : chcountBad s.mux.mnch s.nchMax (sourcesOf s.mux.msrc) = false := by
    rw [Bool.eq_false_iff, ne_eq, chcountBad_iff]
    rintro (h | ⟨c, hc, hle⟩ | h)
    · exact hmnch h
    · exact absurd (hexist c hc) (Nat.not_lt.2 hle)
    · exact h hnum
  have hrate : rateBad (s.validSources (sourcesOf s.mux.msrc)) = false := by
    rw [Bool.eq_false_iff, ne_eq, rateBad_iff]
    rintro ⟨c, e, x, y, hc, he, hx, hy, hne⟩
    exact hne (hsame c e x y hc he hx hy).1
  have hlen : lenBad (s.validSources (sourcesOf s.mux.msrc)) = false := by
    rw [Bool.eq_false_iff, ne_eq, lenBad_iff]
    rintro ⟨c, e, x, y, hc, he, hx, hy, hne⟩
    exact hne (hsame c e x y hc he hx hy).2
  refine ⟨sourcesOf s.mux.msrc, firstLength (s.validSources (sourcesOf s.mux.msrc)), ?_,
    (sourcesOf_length _).trans hnum, sourcesOf_ascending _, mem_sourcesOf _, fun c hc x hx => ?_⟩
  · rw [exec, execMuxCtrlStart_of_idle_or_done d hidle]
    simp [State.muxStarted, hcount, hrate, hlen]
  · exact firstLength_eq_nsamples hlen (mem_validSources.2 ⟨c, (mem_sourcesOf _ c).1 hc, hx⟩)

/-! ## Registers (R181 to R185) -/

/-- Settles O49: the fields of the word written, as numbers. -/
theorem muxConfigurationWrite : Obligations.MuxConfigurationWrite := by
  intro s d
  have hmnch : BitVec.ofNat 8 d.toNat = d.extractLsb' 0 8 := by simp [BitVec.extractLsb']
  have hmsrc : BitVec.ofNat 16 (d.toNat / 2 ^ 16) = d.extractLsb' 16 16 := by
    simp [BitVec.extractLsb', Nat.shiftRight_eq_div_pow]
  rw [hmnch, hmsrc]
  exact ⟨fun hr => if_neg hr, fun hr => if_pos hr⟩

theorem Mux.cfgWord_eq (m : Mux) : m.cfgWord = BitVec.ofNat 32 (m.msrc.toNat * 2 ^ 16 + m.mnch.toNat) := by
  have hsrc := m.msrc.isLt
  have hnch := m.mnch.isLt
  apply BitVec.eq_of_toNat_eq
  simp only [Mux.cfgWord, toNat_append_add, BitVec.toNat_ofNat]
  omega

theorem idWord_eq (n : Nat) : idWord n = BitVec.ofNat 32 (n % 256) := by
  apply BitVec.eq_of_toNat_eq
  simp only [idWord, toNat_append_add, BitVec.toNat_ofNat]
  omega

/-- Settles O50: each is a read of a word, and the words are those of R40, R45 and R183. -/
theorem globalReadsReturnViews : Obligations.GlobalReadsReturnViews := by
  intro s
  rw [← Mux.cfgWord_eq, ← counterView_eq, ← idWord_eq]
  exact ⟨rfl, rfl, rfl, rfl⟩

theorem MuxCause.code_toNat (e : MuxCause) :
    e.code.toNat = (match e with | .none => 0 | .chcount => 1 | .rate => 2 | .len => 3 | .src => 4) := by
  cases e <;> rfl

theorem Mux.status_toNat (m : Mux) :
    m.status.toNat = m.mstate.code.toNat + 2 ^ 8 * (BitVec.ofBool m.mfChcount).toNat
      + 2 ^ 9 * (BitVec.ofBool m.mfRate).toNat + 2 ^ 10 * (BitVec.ofBool m.mfLen).toNat
      + 2 ^ 11 * (BitVec.ofBool m.mfSrc).toNat + 2 ^ 12 * (BitVec.ofBool m.mfCfgw).toNat
      + 2 ^ 16 * m.mcause.code.toNat := by
  simp only [Mux.status, toNat_append_add, BitVec.toNat_zero]
  omega

/-- Settles O51: the word is the sum of its fields at their places. -/
theorem muxStatusFields : Obligations.MuxStatusFields := by
  intro s
  refine ⟨s.mux.status, rfl, ?_⟩
  rw [Mux.status_toNat]
  -- the matches on the state and the cause may be compiled apart from those of the lemmas: they agree by rfl
  simp only [RunState.code_toNat, MuxCause.code_toNat, BitVec.toNat_ofBool, Bool.toNat, Bool.cond_eq_ite]
    <;> rfl

/-! ## The multiplexer's turn (R176, R178) -/

theorem step_mux (hp : s.pending = .mux :: rest) : step s = muxStep { s with pending := rest } := by
  simp only [step, State.fetch, hp, State.retire_of_pending hp]

theorem muxStep_of_not_run (hr : s.mux.mstate ≠ .run) : muxStep s = .next s :=
  if_neg hr

theorem muxStep_of_finished (hr : s.mux.mstate = .run) (hi : s.mux.mi = s.mux.ml) :
    muxStep s = .next (s.setMux { s.mux with mstate := .done }) := by
  simp only [muxStep, hr, hi, if_true]

theorem muxStep_of_cons (hr : s.mux.mstate = .run) (hi : s.mux.mi ≠ s.mux.ml)
    (hdue : s.mux.chlist[s.mux.mj]? = some c) (hc : s.channel? c = some x) (hq : x.outq = v :: q) :
    muxStep s = .next (s.emitSample c x v q) := by
  simp only [muxStep, hr, hi, hdue, hc, hq, if_true, if_false]

theorem muxStep_of_empty (hr : s.mux.mstate = .run) (hi : s.mux.mi ≠ s.mux.ml)
    (hdue : s.mux.chlist[s.mux.mj]? = some c) (hc : s.channel? c = some x) (hq : x.outq = []) :
    muxStep s = if x.state = .fault then .next (s.setMux s.mux.raiseSrc) else .next s := by
  simp only [muxStep, hr, hi, hdue, hc, hq, if_true, if_false]

/-- Settles O7: the turns that hold, and the step with nothing pending. -/
theorem heldMultiplexerChangesNothing : Obligations.HeldMultiplexerChangesNothing := by
  intro s rest
  refine ⟨fun hp => ?_, fun hp hr => ?_, fun d x hp hr hi hdue hd hq hf => ?_⟩
  · simp only [step, State.fetch, hp]
  · rw [step_mux hp]
    exact muxStep_of_not_run (s := { s with pending := rest }) hr
  · rw [step_mux hp, muxStep_of_empty (s := { s with pending := rest }) hr hi hdue hd hq, if_neg hf]

theorem sampleBytes_eq (v : Sample) :
    sampleBytes v = [BitVec.ofNat 8 v.toNat, BitVec.ofNat 8 (v.toNat / 2 ^ 8)] := by
  simp [sampleBytes, BitVec.extractLsb', Nat.shiftRight_eq_div_pow]

theorem Mux.advance_eq (m : Mux) : m.advance =
    { m with
      ocount := m.ocount + 1
      mj := if m.mj + 1 = m.chlist.length then 0 else m.mj + 1
      mi := if m.mj + 1 = m.chlist.length then m.mi + 1 else m.mi } := by
  unfold Mux.advance
  split <;> rfl

/-- Settles O52: the step of the multiplexer's event is the multiplexer's step, in each of its branches. -/
theorem muxStepMovesOneSample : Obligations.MuxStepMovesOneSample := by
  intro s rest hp hr
  rw [step_mux hp]
  refine ⟨fun hi => muxStep_of_finished (s := { s with pending := rest }) hr hi,
    fun c x hi hdue hc => ⟨fun v q hq => ?_, fun hq hf => ?_, fun hq hf => ?_⟩⟩
  · rw [muxStep_of_cons (s := { s with pending := rest }) hr hi hdue hc hq, ← sampleBytes_eq, ← Mux.advance_eq]
    rfl
  · rw [muxStep_of_empty (s := { s with pending := rest }) hr hi hdue hc hq, if_pos hf]
    rfl
  · rw [muxStep_of_empty (s := { s with pending := rest }) hr hi hdue hc hq, if_neg hf]

/-! ## The order of the samples (R176, R177, R186) -/

/-- In RUN the counters are the quotient and the remainder of `OCOUNT` by the number of channels, and a sample is due exactly while `OCOUNT` is below the samples of the run. -/
theorem Mux.Inv.counters {nch : Nat} (h : m.Inv nch) (hr : m.mstate = .run) :
    m.ocount % m.chlist.length = m.mj ∧ m.ocount / m.chlist.length = m.mi ∧
      (m.mi ≠ m.ml ↔ m.ocount < m.ml * m.chlist.length) := by
  obtain ⟨-, -, hrun, -⟩ := h
  obtain ⟨hj, hle, hend, ho, -⟩ := hrun hr
  refine ⟨?_, ?_, fun hi => ?_, fun hlt hi => ?_⟩
  · rw [ho, Nat.mul_add_mod_of_lt hj]
  · rw [ho, Nat.add_comm, Nat.add_mul_div_right _ _ (by omega), Nat.div_eq_of_lt hj, Nat.zero_add]
  · have hrow : (m.mi + 1) * m.chlist.length ≤ m.ml * m.chlist.length := Nat.mul_le_mul_right _ (by omega)
    rw [Nat.add_mul, Nat.one_mul] at hrow
    omega
  · rw [ho, hend hi, hi] at hlt
    omega

/-- Settles O53: the counters name the due channel, and only the move of a sample changes `mux_out`. -/
theorem interleaveOrderFollowsCount : Obligations.InterleaveOrderFollowsCount := by
  intro s t rest hinv hp hr hstep
  obtain ⟨hmod, hdiv, hdue⟩ := hinv.mux.counters hr
  rw [step_mux hp] at hstep
  rw [hmod, hdiv]
  refine ⟨fun hout => ?_, fun c x v q hlt hj hc hq => ?_⟩
  · rcases muxStep_next hstep with rfl | ⟨-, -, rfl⟩ | ⟨-, hi, c, x, hj, hc, ⟨v, q, hq, rfl⟩ | ⟨-, -, rfl⟩⟩
    case inr.inr.inl =>
      exact ⟨c, x, v, q, hj, rfl, hdue.1 hi, hc, hq, rfl, Mux.advance_ocount _,
        State.setChannel_channel?_self (s := { s with pending := rest }) hc,
        fun d hd => State.setChannel_channel?_ne (s := { s with pending := rest }) hd⟩
    all_goals exact absurd rfl hout
  · rw [muxStep_of_cons (s := { s with pending := rest }) hr (hdue.2 hlt) hj hc hq] at hstep
    obtain rfl := next_eq hstep
    rfl

/-- Settles O54: the step to DONE keeps the invariant, which counts the samples, and the declared count of channels. -/
theorem doneMuxRunMovedEverySample : Obligations.DoneMuxRunMovedEverySample := by
  intro s t rest hinv hp hr hstep hdone
  obtain ⟨-, -, -, hcount, -⟩ := (stepKeepsTheInvariant s t hinv hstep).mux
  obtain ⟨-, -, hrun, -⟩ := hinv.mux
  obtain ⟨-, -, -, -, hmnch⟩ := hrun hr
  rw [step_mux hp] at hstep
  rcases muxStep_next hstep with rfl | ⟨-, -, rfl⟩ | ⟨-, -, c, x, -, -, ⟨v, q, -, rfl⟩ | ⟨-, -, rfl⟩⟩
  · simp [hr] at hdone
  · rw [hcount hdone]
    exact congrArg (· * s.mux.ml) hmnch
  · simp [Mux.advance_mstate, hr] at hdone
  · simp at hdone

/-! ## A whole run over queues that hold every sample (R177, R186, R187) -/

variable {queues : List (List Sample)} {i j : Nat}

theorem refInterleave_succ (queues : List (List Sample)) (i : Nat) :
    refInterleave queues (i + 1) = refInterleave queues i ++ refRow queues i := by
  simp [refInterleave, List.range_succ]

theorem refRow_take_succ (h : queues[j]? = some q) (hi : q[i]? = some v) :
    refRow (queues.take (j + 1)) i = refRow (queues.take j) i ++ sampleBytes v := by
  simp [refRow, List.take_add_one, h, List.getD_eq_getElem?_getD, hi]

/-- The multiplexer is in RUN over different channels whose queues are `queues`, in their order, each with `ML` samples at least. -/
structure RunsOver (s : State) (queues : List (List Sample)) : Prop where
  run : s.mux.mstate = .run
  nodup : s.mux.chlist.Nodup
  length : queues.length = s.mux.chlist.length
  holds : ∀ (k : Nat) (c : Chan), s.mux.chlist[k]? = some c →
    ∃ x, s.channel? c = some x ∧ queues[k]? = some x.outq ∧ s.mux.ml ≤ x.outq.length

/-- The samples moved of the queue at place `k`, when `i` whole rows and the first `j` samples of the next are moved. -/
def movedOf (i j k : Nat) : Nat := if k < j then i + 1 else i

/-- The row and the column due after those `i`, `j`, in rows of `n` samples (R176). -/
def nextPlace (n i j : Nat) : Nat × Nat := if j + 1 = n then (i + 1, 0) else (i, j + 1)

theorem movedOf_nextPlace_self (n i j : Nat) : movedOf (nextPlace n i j).1 (nextPlace n i j).2 j = i + 1 := by
  unfold nextPlace
  split <;> simp [movedOf]

theorem movedOf_nextPlace_ne {n k : Nat} (hk : k < n) (hne : k ≠ j) :
    movedOf (nextPlace n i j).1 (nextPlace n i j).2 k = movedOf i j k := by
  unfold nextPlace
  split
  · have : k < j := by omega
    simp [movedOf, this]
  · have : k < j + 1 ↔ k < j := by omega
    simp [movedOf, this]

theorem nextPlace_lt {n : Nat} (h : j < n) : (nextPlace n i j).2 < n := by
  unfold nextPlace
  split
  · exact Nat.zero_lt_of_lt h
  · exact Nat.lt_of_le_of_ne h ‹_›

theorem nextPlace_count (n i j : Nat) : (nextPlace n i j).1 * n + (nextPlace n i j).2 = i * n + j + 1 := by
  unfold nextPlace
  split
  next hlast => simp only [Nat.add_mul]; omega
  next => rfl

/-- `t` is `s` after the multiplexer has moved rows 0 to `i - 1` of the queues, and the first `j` samples of row `i`. -/
structure MovedTo (s : State) (queues : List (List Sample)) (i j : Nat) (t : State) : Prop where
  mux : t.mux = { s.mux with mi := i, mj := j, ocount := i * s.mux.chlist.length + j }
  muxOut : t.muxOut = s.muxOut ++ refInterleave queues i ++ refRow (queues.take j) i
  queue : ∀ k c x, s.mux.chlist[k]? = some c → s.channel? c = some x →
    t.channel? c = some { x with outq := x.outq.drop (movedOf i j k) }

/-- A run begins with nothing moved. -/
theorem MovedTo.start (hi : s.mux.mi = 0) (hj : s.mux.mj = 0) (ho : s.mux.ocount = 0) :
    MovedTo s queues 0 0 s where
  mux := by cases hm : s.mux; simp_all
  muxOut := by simp [refInterleave, refRow]
  queue := fun _ _ _ _ hc => by simpa [movedOf] using hc

/-- The due channel's queue after `i` whole rows, and what its head's move makes of the block. -/
theorem MovedTo.muxStep (h : MovedTo s queues i j t) (hs : RunsOver s queues) (hi : i < s.mux.ml)
    (hdue : s.mux.chlist[j]? = some c) (hc : s.channel? c = some x) (hv : x.outq[i]? = some v) :
    muxStep t = .next (t.emitSample c { x with outq := x.outq.drop i } v (x.outq.drop (i + 1))) := by
  obtain ⟨hlt, rfl⟩ := List.getElem?_eq_some_iff.1 hv
  refine muxStep_of_cons (by simpa [h.mux] using hs.run) (by simpa [h.mux] using Nat.ne_of_lt hi)
    (by simpa [h.mux] using hdue) ?_ (List.drop_eq_getElem_cons hlt)
  simpa [movedOf] using h.queue j c x hdue hc

/-- Within a row the next channel is due after the move, and after the last channel the next row. -/
theorem MovedTo.emitSample (h : MovedTo s queues i j t) (hs : RunsOver s queues)
    (hdue : s.mux.chlist[j]? = some c) (hc : s.channel? c = some x)
    (hq : queues[j]? = some x.outq) (hv : x.outq[i]? = some v) :
    MovedTo s queues (nextPlace s.mux.chlist.length i j).1 (nextPlace s.mux.chlist.length i j).2
      (t.emitSample c { x with outq := x.outq.drop i } v (x.outq.drop (i + 1))) where
  mux := by
    rw [State.emitSample_mux, Mux.advance_eq, h.mux, nextPlace_count]
    unfold nextPlace
    split <;> rfl
  muxOut := by
    rw [State.emitSample_muxOut, h.muxOut, List.append_assoc, ← refRow_take_succ hq hv]
    unfold nextPlace
    split
    next hlast =>
      rw [refInterleave_succ, List.take_of_length_le (hs.length.trans hlast.symm).le]
      simp [refRow]
    next => rfl
  queue := by
    intro k d y hk hd
    have hklt : k < s.mux.chlist.length := (List.getElem?_eq_some_iff.1 hk).1
    have ht := h.queue j c x hdue hc
    by_cases hkj : k = j
    · subst k
      obtain rfl : c = d := Option.some.inj (hdue.symm.trans hk)
      obtain rfl : x = y := Option.some.inj (hc.symm.trans hd)
      rw [movedOf_nextPlace_self]
      exact State.setChannel_channel?_self ht
    · have hne : d ≠ c := by
        rintro rfl
        exact hkj ((List.getElem?_inj hklt hs.nodup).1 (hk.trans hdue.symm))
      rw [movedOf_nextPlace_ne hklt hkj, ← h.queue k d y hk hd]
      exact State.setChannel_channel?_ne hne

/-- One turn of the multiplexer moves the next sample. -/
theorem MovedTo.step {es : List Event} (h : MovedTo s queues i j t) (hs : RunsOver s queues)
    (hp : t.pending = .mux :: es) (hi : i < s.mux.ml) (hj : j < s.mux.chlist.length) :
    ∃ i' j' u, step t = .next u ∧ u.pending = es ∧ MovedTo s queues i' j' u ∧ j' < s.mux.chlist.length ∧
      i' * s.mux.chlist.length + j' = i * s.mux.chlist.length + j + 1 := by
  have hdue := List.getElem?_eq_getElem hj
  obtain ⟨x, hc, hq, hml⟩ := hs.holds j _ hdue
  have hv := List.getElem?_eq_getElem (show i < x.outq.length by omega)
  have hused : MovedTo s queues i j { t with pending := es } := ⟨h.mux, h.muxOut, h.queue⟩
  refine ⟨_, _, _, (step_mux hp).trans (hused.muxStep hs hi hdue hc hv), rfl,
    hused.emitSample hs hdue hc hq hv, nextPlace_lt hj,
    nextPlace_count ..⟩

/-- As long as samples are due, as many are moved as the multiplexer has turns. -/
theorem movedTo_of_turns {n k : Nat} (hs : RunsOver s queues) (hi : s.mux.mi = 0) (hj : s.mux.mj = 0)
    (ho : s.mux.ocount = 0) (hpos : 0 < s.mux.chlist.length)
    (hp : s.pending = List.replicate (n + k) .mux ++ rest) (hn : n ≤ s.mux.ml * s.mux.chlist.length) :
    ∃ i j t, runSteps n s = .next t ∧ t.pending = List.replicate k .mux ++ rest ∧ MovedTo s queues i j t ∧
      j < s.mux.chlist.length ∧ i * s.mux.chlist.length + j = n := by
  induction n generalizing k with
  | zero =>
    exact ⟨0, 0, s, rfl, by simpa using hp, .start hi hj ho, hpos, by simp⟩
  | succ n ih =>
    obtain ⟨i, j, t, hrun, hpt, hmoved, hjlt, hcount⟩ := ih (k := k + 1) (by rw [hp]; congr 2; omega) (by omega)
    have hilt : i < s.mux.ml := by
      by_contra hle
      have := Nat.mul_le_mul_right s.mux.chlist.length (Nat.not_lt.1 hle)
      omega
    obtain ⟨i', j', u, hstep, hpu, hmoved', hjlt', hcount'⟩ := hmoved.step hs hpt hilt hjlt
    refine ⟨i', j', u, ?_, hpu, hmoved', hjlt', by omega⟩
    rw [runSteps_add hrun, runSteps_of_next hstep, runSteps_zero]

/-- Settles O55: the turns move the rows one after the other, and the last ends the run. -/
theorem fullMuxRunInterleavesTheQueues : Obligations.FullMuxRunInterleavesTheQueues := by
  intro s queues rest hr hi hj ho hne hnodup hlen hqueues hp
  have hpos := List.length_pos_iff.2 hne
  obtain ⟨i, j, t, hrun, hpt, hmoved, hjlt, hcount⟩ :=
    movedTo_of_turns (k := 1) ⟨hr, hnodup, hlen, hqueues⟩ hi hj ho hpos hp le_rfl
  obtain ⟨hrow, hcol⟩ := (Nat.div_mod_unique hpos).2 ⟨by rw [Nat.mul_comm, Nat.add_comm, hcount], hjlt⟩
  rw [Nat.mul_div_cancel _ hpos] at hrow
  rw [Nat.mul_mod_left] at hcol
  subst i j
  have hstep : step t = .next (State.setMux { t with pending := rest } { t.mux with mstate := .done }) :=
    (step_mux hpt).trans (muxStep_of_finished (s := { t with pending := rest }) (by simpa [hmoved.mux] using hr)
      (by simp [hmoved.mux]))
  refine ⟨_, (runSteps_add hrun).trans ((runSteps_of_next hstep).trans (runSteps_zero _)), rfl, rfl, ?_, ?_,
    fun c hc x hx => ?_⟩
  · simp [hmoved.mux]
  · simp [hmoved.muxOut, refRow]
  · obtain ⟨k, hk⟩ := List.mem_iff_getElem?.1 hc
    have hqueue := hmoved.queue k c x hk hx
    rw [movedOf, if_neg (Nat.not_lt_zero k)] at hqueue
    exact hqueue

/-! ## What a channel feeds the multiplexer (R118, R188) -/

/-- `y` is what `x` has become after some of its engine's turns, `n` samples having been taken from the head of its queue. -/
def Channel.Feeds (x : Channel) (n : Nat) (y : Channel) : Prop :=
  ∃ k p, Channel.iterate k x.core = some (y.core, p) ∧ n ≤ (x.outq ++ p).length ∧ y.outq = (x.outq ++ p).drop n

theorem Channel.Feeds.refl (x : Channel) : x.Feeds 0 x :=
  ⟨0, [], rfl, Nat.zero_le _, by simp⟩

theorem Channel.Feeds.trans {n k : Nat} (h : x.Feeds n y) (h' : y.Feeds k z) : x.Feeds (n + k) z := by
  obtain ⟨a, p, hxy, hn, hy⟩ := h
  obtain ⟨b, r, hyz, hk, hz⟩ := h'
  have hout : y.outq ++ r = (x.outq ++ (p ++ r)).drop n := by
    rw [hy, ← List.append_assoc, List.drop_append_of_le_length hn]
  refine ⟨a + b, p ++ r, Channel.iterate_add hxy hyz, ?_, ?_⟩
  · rw [hout, List.length_drop] at hk
    simp only [List.length_append] at hn hk ⊢
    omega
  · rw [hz, hout, List.drop_drop]

/-- A turn takes no sample. -/
theorem Channel.Feeds.turn {depth : QueueDepth} (h : x.turn depth = some y) : x.Feeds 0 y := by
  rcases Channel.turn_free h with rfl | ⟨p, hfree, hq, -⟩
  · exact .refl y
  · exact ⟨1, p ++ [], Channel.iterate_succ hfree rfl, Nat.zero_le _, by simpa using hq⟩

/-- The head of the queue taken. -/
theorem Channel.Feeds.take (h : x.outq = v :: q) : x.Feeds 1 { x with outq := q } :=
  ⟨0, [], rfl, by simp [h], by simp [h]⟩

theorem Channel.iterate_add_inv {n k : Nat} {r : List Sample} (h : Channel.iterate (n + k) x = some (z, r)) :
    ∃ y p q, Channel.iterate n x = some (y, p) ∧ Channel.iterate k y = some (z, q) ∧ r = p ++ q := by
  induction n generalizing x r with
  | zero => exact ⟨x, [], r, rfl, by simpa using h, rfl⟩
  | succ n ih =>
    rw [Nat.add_right_comm] at h
    obtain ⟨w, a, b, hfirst, hrest, rfl⟩ := Channel.iterate_succ_inv h
    obtain ⟨y, p, q, hn, hk, rfl⟩ := ih hrest
    exact ⟨y, a ++ p, q, Channel.iterate_succ hfirst hn, hk, (List.append_assoc ..).symm⟩

/-- Of two channels that come from one after as many samples taken, that with more turns comes from the other by the turns it has more. -/
theorem Channel.Feeds.of_more_turns {n a b : Nat} {p r : List Sample} (hp : Channel.iterate a x.core = some (y.core, p))
    (hn : n ≤ (x.outq ++ p).length) (hy : y.outq = (x.outq ++ p).drop n)
    (hr : Channel.iterate (a + b) x.core = some (z.core, r)) (hz : z.outq = (x.outq ++ r).drop n) : y.Feeds 0 z := by
  obtain ⟨y', p', e, ha, hb, rfl⟩ := Channel.iterate_add_inv hr
  obtain ⟨rfl, rfl⟩ := Prod.mk.inj (Option.some.inj (hp.symm.trans ha))
  refine ⟨b, e, hb, Nat.zero_le _, ?_⟩
  rw [hz, hy, List.drop_zero, ← List.append_assoc, List.drop_append_of_le_length hn]

/-- Of two channels that come from one after as many samples taken, one comes from the other by turns alone. -/
theorem Channel.Feeds.total {n : Nat} (hy : x.Feeds n y) (hz : x.Feeds n z) : y.Feeds 0 z ∨ z.Feeds 0 y := by
  obtain ⟨a, p, hp, hn, hy⟩ := hy
  obtain ⟨b, r, hr, hk, hz⟩ := hz
  rcases Nat.le_total a b with hab | hab
  · obtain ⟨e, rfl⟩ := Nat.exists_eq_add_of_le hab
    exact .inl (.of_more_turns hp hn hy hr hz)
  · obtain ⟨e, rfl⟩ := Nat.exists_eq_add_of_le hab
    exact .inr (.of_more_turns hr hk hz hp hy)

/-- Turns alone push to the tail of the queue, and do nothing to a stopped engine. -/
theorem Channel.Feeds.outq_append (h : x.Feeds 0 y) :
    ∃ p, y.outq = x.outq ++ p ∧ (x.state ≠ .run → p = []) := by
  obtain ⟨k, p, hiter, -, hq⟩ := h
  refine ⟨p, hq, fun hr => ?_⟩
  rw [Channel.iterate_of_stopped (x := x.core) hr rfl] at hiter
  exact (Prod.mk.inj (Option.some.inj hiter)).2.symm

/-- The next sample a channel feeds does not depend on how far its engine is ahead. -/
theorem Channel.Feeds.head_unique {n : Nat} {r : List Sample} (hy : x.Feeds n y) (hz : x.Feeds n z)
    (hv : y.outq = v :: q) (hw : z.outq = w :: r) : v = w := by
  rcases hy.total hz with h | h
  · obtain ⟨p, hp, -⟩ := h.outq_append
    rw [hv, hw, List.cons_append] at hp
    exact (List.cons.inj hp).1.symm
  · obtain ⟨p, hp, -⟩ := h.outq_append
    rw [hv, hw, List.cons_append] at hp
    exact (List.cons.inj hp).1

/-- A channel that has stopped with an empty queue feeds no further sample. -/
theorem Channel.Feeds.not_cons_of_stopped {n : Nat} (hy : x.Feeds n y) (hz : x.Feeds n z) (hv : y.outq = v :: q)
    (hempty : z.outq = []) (hstop : z.state ≠ .run) : False := by
  rcases hy.total hz with h | h
  · obtain ⟨p, hp, -⟩ := h.outq_append
    simp [hv, hempty] at hp
  · obtain ⟨p, hp, hnone⟩ := h.outq_append
    simp [hv, hempty, hnone hstop] at hp

/-! ## The multiplexer's run without the machine (R188) -/

/-- How far a multiplexer run has come: the multiplexer, the bytes appended, and the samples taken of each channel. -/
structure MuxStage where
  mux : Mux
  out : List Byte
  taken : Chan → Nat

/-- One move of the multiplexer in RUN, over the channels the run began with: the end, the due channel's next sample, or SRC when that channel has faulted and feeds no more. -/
inductive MuxMove (start : Chan → Option Channel) (a : MuxStage) : MuxStage → Prop
  | finish (hr : a.mux.mstate = .run) (hi : a.mux.mi = a.mux.ml) :
    MuxMove start a { a with mux := { a.mux with mstate := .done } }
  | sample (hr : a.mux.mstate = .run) (hi : a.mux.mi ≠ a.mux.ml) (c : Chan) (x y : Channel) (v : Sample)
    (q : List Sample) (hdue : a.mux.chlist[a.mux.mj]? = some c) (hx : start c = some x) (hf : x.Feeds (a.taken c) y)
    (hq : y.outq = v :: q) :
    MuxMove start a ⟨a.mux.advance, a.out ++ sampleBytes v, Function.update a.taken c (a.taken c + 1)⟩
  | src (hr : a.mux.mstate = .run) (hi : a.mux.mi ≠ a.mux.ml) (c : Chan) (x y : Channel)
    (hdue : a.mux.chlist[a.mux.mj]? = some c) (hx : start c = some x) (hf : x.Feeds (a.taken c) y)
    (hq : y.outq = []) (hs : y.state = .fault) :
    MuxMove start a { a with mux := a.mux.raiseSrc }

variable {start : Chan → Option Channel} {a b : MuxStage}

/-- A stage has one move at most: the counters name the due channel, and what it feeds is one sample or none. -/
theorem MuxMove.rightUnique : Relator.RightUnique (MuxMove start) := by
  intro a b b' h h'
  cases h with
  | finish hr hi =>
    cases h' with
    | finish => rfl
    | sample _ hi' => exact absurd hi hi'
    | src _ hi' => exact absurd hi hi'
  | sample hr hi c x y v q hdue hx hf hq =>
    cases h' with
    | finish _ hi' => exact absurd hi' hi
    | sample _ _ c' x' y' v' q' hdue' hx' hf' hq' =>
      obtain rfl := Option.some.inj (hdue.symm.trans hdue')
      obtain rfl := Option.some.inj (hx.symm.trans hx')
      rw [hf.head_unique hf' hq hq']
    | src _ _ c' x' y' hdue' hx' hf' hq' hs' =>
      obtain rfl := Option.some.inj (hdue.symm.trans hdue')
      obtain rfl := Option.some.inj (hx.symm.trans hx')
      exact (hf.not_cons_of_stopped hf' hq hq' (by simp [hs'])).elim
  | src hr hi c x y hdue hx hf hq hs =>
    cases h' with
    | finish _ hi' => exact absurd hi' hi
    | sample _ _ c' x' y' v' q' hdue' hx' hf' hq' =>
      obtain rfl := Option.some.inj (hdue.symm.trans hdue')
      obtain rfl := Option.some.inj (hx.symm.trans hx')
      exact (hf'.not_cons_of_stopped hf hq' hq (by simp [hs])).elim
    | src => rfl

theorem not_muxMove_of_ended (h : a.mux.mstate ≠ .run) : ¬ MuxMove start a b := by
  intro hm
  cases hm with
  | finish hr | sample hr | src hr => exact h hr

/-- Two runs from one stage that have ended have come to the same stage. -/
theorem muxMoves_end_unique {b b' : MuxStage} (h : Relation.ReflTransGen (MuxMove start) a b)
    (h' : Relation.ReflTransGen (MuxMove start) a b') (hb : b.mux.mstate ≠ .run) (hb' : b'.mux.mstate ≠ .run) :
    b = b' := by
  rcases Relation.ReflTransGen.total_of_right_unique MuxMove.rightUnique h h' with h | h
  · exact ((Relation.reflTransGen_iff_eq fun _ => not_muxMove_of_ended hb).1 h).symm
  · exact (Relation.reflTransGen_iff_eq fun _ => not_muxMove_of_ended hb').1 h

/-! ## The machine's run as those moves -/

/-- Everything a host read can do: give the host a word, and perhaps pop the head of a queue that is not the multiplexer's. -/
theorem exec_read_next {i : Instr} (h : exec i s = .next t) (hi : Instr.isRead i = true) :
    (∃ w, t = s.returning w) ∨
    ∃ c x v q, s.channel? c = some x ∧ x.outq = v :: q ∧ ¬ (s.mux.mstate = .run ∧ c ∈ s.mux.chlist) ∧
      t = (s.setChannel c { x with outq := q }).returning (outWord v) := by
  cases i with
  | idR | muxCtrlR | muxCfgR | muxStatusR | muxOcountR | rsvdR => exact .inl ⟨_, next_eq h⟩
  | chCtrlR | chStatusR | chBaseR | chLenR | chSrateR | chHist1R | chHist2R | chPosR | chScountR | chPsR | chCoefR =>
    exact .inl (readChannel_next h)
  | chOutR c => exact (execChOutR_next h).imp_right fun hpop => ⟨c, hpop⟩
  | _ => cases hi

/-- The multiplexer and `mux_out` stay, and the channels the multiplexer owns only have turns. -/
structure OnlyTurns (s t : State) : Prop where
  mux : t.mux = s.mux
  muxOut : t.muxOut = s.muxOut
  feeds : s.mux.mstate = .run → ∀ c ∈ s.mux.chlist, ∀ z, t.channel? c = some z →
    ∃ y, s.channel? c = some y ∧ y.Feeds 0 z

theorem OnlyTurns.of_channels (hm : t.mux = s.mux) (ho : t.muxOut = s.muxOut) (hc : t.channels = s.channels) :
    OnlyTurns s t where
  mux := hm
  muxOut := ho
  feeds := fun _ c _ z hz => ⟨z, State.channel?_congr hc c ▸ hz, .refl z⟩

/-- One channel replaced, by a turn of its own unless the multiplexer does not own it. -/
theorem OnlyTurns.of_setChannel (hm : t.mux = s.mux) (ho : t.muxOut = s.muxOut) (hd : s.channel? d = some x)
    (hc : t.channels = (s.setChannel d y).channels)
    (hf : s.mux.mstate = .run → d ∈ s.mux.chlist → x.Feeds 0 y) : OnlyTurns s t where
  mux := hm
  muxOut := ho
  feeds := by
    intro hr c hmem z hz
    rw [State.channel?_congr hc, State.setChannel_channel?_cases hd] at hz
    split at hz
    next hcd =>
      subst c
      cases hz
      exact ⟨x, hd, hf hr hmem⟩
    next => exact ⟨z, hz, .refl z⟩

/-- A step among turns and host reads is the multiplexer's turn, or leaves it and what it owns to the engines. -/
theorem step_turn_or_read (h : step s = .next t) (he : turnsAndReads s.pending) :
    (∃ rest, turnsAndReads rest ∧ muxStep { s with pending := rest } = .next t) ∨
      (turnsAndReads t.pending ∧ OnlyTurns s t) := by
  have later : ∀ {e : Event} {rest : List Event}, s.pending = e :: rest → turnsAndReads rest := by
    intro e rest hp e' he'
    exact he e' (by simp [hp, he'])
  have mover : ∀ {e : Event} {rest : List Event}, s.pending = e :: rest →
      e = .mux ∨ (∃ d, e = .engine d) ∨ ∃ a, e = .host a ∧ a.write = false := by
    intro e rest hp
    exact he e (by simp [hp])
  rcases step_cases h with ⟨-, rfl⟩ | ⟨d, x, y, rest, hp, hd, ht, rfl⟩ | ⟨rest, hp, hm⟩ | ⟨rest, hp, rfl⟩ |
    ⟨d, image, x, rest, hp, -, -, -, rfl⟩ | ⟨a, rest, -, hp, -⟩
  · exact .inr ⟨he, .of_channels rfl rfl rfl⟩
  · exact .inr ⟨later hp, .of_setChannel rfl rfl hd rfl fun _ _ => .turn ht⟩
  · exact .inl ⟨rest, later hp, hm⟩
  · simpa using mover hp
  · simpa using mover hp
  · have hread : a.write = false := by simpa using mover hp
    obtain ⟨i, -, hi, -, hexec⟩ := step_host hp h
    rcases exec_read_next hexec (hi hread) with ⟨w, rfl⟩ | ⟨d, x, v, q, hd, -, hown, rfl⟩
    · exact .inr ⟨later hp, .of_channels rfl rfl rfl⟩
    · exact .inr ⟨later hp, .of_setChannel rfl rfl hd rfl fun hr hmem => absurd ⟨hr, hmem⟩ hown⟩

/-- The state is at the stage: while the multiplexer runs, what it owns is what the channels it began with feed it. -/
structure AtStage (start : Chan → Option Channel) (a : MuxStage) (s : State) : Prop where
  mux : s.mux = a.mux
  muxOut : s.muxOut = a.out
  feeds : s.mux.mstate = .run → ∀ c ∈ s.mux.chlist, ∀ y, s.channel? c = some y →
    ∃ x, start c = some x ∧ x.Feeds (a.taken c) y

/-- A run that has ended needs no channel. -/
theorem AtStage.of_ended (hm : s.mux = a.mux) (ho : s.muxOut = a.out) (hr : s.mux.mstate ≠ .run) :
    AtStage start a s :=
  ⟨hm, ho, fun h => absurd h hr⟩

theorem AtStage.onlyTurns (h : AtStage start a s) (ht : OnlyTurns s t) : AtStage start a t where
  mux := ht.mux.trans h.mux
  muxOut := ht.muxOut.trans h.muxOut
  feeds := by
    rw [ht.mux]
    intro hr c hc z hz
    obtain ⟨y, hy, hyz⟩ := ht.feeds hr c hc z hz
    obtain ⟨x, hx, hxy⟩ := h.feeds hr c hc y hy
    exact ⟨x, hx, hxy.trans hyz⟩

theorem Mux.advance_chlist (m : Mux) : m.advance.chlist = m.chlist := by
  rw [Mux.advance_eq]

/-- The move of a sample takes it of the due channel and of no other. -/
theorem AtStage.emitSample (h : AtStage start a s) (hr : s.mux.mstate = .run) (hc : s.channel? c = some y)
    (hq : y.outq = v :: q) :
    AtStage start ⟨a.mux.advance, a.out ++ sampleBytes v, Function.update a.taken c (a.taken c + 1)⟩
      (s.emitSample c y v q) where
  mux := congrArg Mux.advance h.mux
  muxOut := congrArg (· ++ sampleBytes v) h.muxOut
  feeds := by
    rw [State.emitSample_mux, Mux.advance_chlist]
    intro _ d hd z hz
    change (s.setChannel c { y with outq := q }).channel? d = some z at hz
    rw [State.setChannel_channel?_cases hc] at hz
    split at hz
    next hdc =>
      subst d
      cases hz
      obtain ⟨x, hx, hxy⟩ := h.feeds hr c hd y hc
      exact ⟨x, hx, by simpa using hxy.trans (.take hq)⟩
    next hdc => simpa [hdc] using h.feeds hr d hd z hz

/-- The multiplexer's turn is a hold or a move. -/
theorem AtStage.muxStep (h : AtStage start a s) (hstep : muxStep s = .next t) :
    ∃ b, Relation.ReflTransGen (MuxMove start) a b ∧ AtStage start b t ∧ t.pending = s.pending := by
  have hmux := h.mux
  rcases muxStep_next hstep with rfl | ⟨hr, hi, rfl⟩ | ⟨hr, hi, c, y, hdue, hc, hcase⟩
  · exact ⟨a, .refl, h, rfl⟩
  · refine ⟨_, .single (.finish (hmux ▸ hr) (hmux ▸ hi)), .of_ended ?_ h.muxOut (by simp), rfl⟩
    rw [State.setMux_mux, hmux]
  · obtain ⟨x, hx, hxy⟩ := h.feeds hr c (List.mem_of_getElem? hdue) y hc
    rcases hcase with ⟨v, q, hq, rfl⟩ | ⟨hq, hf, rfl⟩
    · exact ⟨_, .single (.sample (hmux ▸ hr) (hmux ▸ hi) c x y v q (hmux ▸ hdue) hx hxy hq),
        h.emitSample hr hc hq, rfl⟩
    · refine ⟨_, .single (.src (hmux ▸ hr) (hmux ▸ hi) c x y (hmux ▸ hdue) hx hxy hq hf),
        .of_ended ?_ h.muxOut (by simp), rfl⟩
      rw [State.setMux_mux, hmux]

/-- Any number of turns and host reads are so many moves of the multiplexer. -/
theorem AtStage.runSteps {k : Nat} (h : AtStage start a s) (he : turnsAndReads s.pending)
    (hrun : runSteps k s = .next t) : ∃ b, Relation.ReflTransGen (MuxMove start) a b ∧ AtStage start b t := by
  induction k generalizing s a with
  | zero =>
    obtain rfl := next_eq hrun
    exact ⟨a, .refl, h⟩
  | succ k ih =>
    obtain ⟨u, hstep, hrest⟩ := runSteps_succ_next hrun
    rcases step_turn_or_read hstep he with ⟨rest, he', hm⟩ | ⟨he', hturns⟩
    · obtain ⟨b, hab, hb, hp⟩ := AtStage.muxStep (s := { s with pending := rest }) ⟨h.mux, h.muxOut, h.feeds⟩ hm
      obtain ⟨b', hbb', hb'⟩ := ih hb (hp ▸ he') hrest
      exact ⟨b', hab.trans hbb', hb'⟩
    · exact ih (h.onlyTurns hturns) he' hrest

/-- Settles O56: both runs are moves from the same stage, where each stage has one move at most. -/
theorem muxOutputIsScheduleIndependent : Obligations.MuxOutputIsScheduleIndependent := by
  intro s1 s2 t1 t2 k1 k2 _ hmux hout hchannels he1 he2 hrun1 hrun2 hend1 hend2
  have h1 : AtStage s1.channel? ⟨s1.mux, s1.muxOut, fun _ => 0⟩ s1 := ⟨rfl, rfl, fun _ _ _ y hy => ⟨y, hy, .refl y⟩⟩
  have h2 : AtStage s1.channel? ⟨s1.mux, s1.muxOut, fun _ => 0⟩ s2 := by
    refine ⟨hmux, hout, fun _ c hc y hy => ⟨y, ?_, .refl y⟩⟩
    rw [← hchannels c (hmux ▸ hc), hy]
  obtain ⟨b1, hmoves1, hb1⟩ := h1.runSteps he1 hrun1
  obtain ⟨b2, hmoves2, hb2⟩ := h2.runSteps he2 hrun2
  obtain rfl := muxMoves_end_unique hmoves1 hmoves2 (hb1.mux ▸ hend1) (hb2.mux ▸ hend2)
  exact ⟨hb1.muxOut.trans hb2.muxOut.symm, hb1.mux.trans hb2.mux.symm⟩

end Sys2Proof.Machine
end

section
/-! PROOFS. The family of 43_host_interface.md: a run resumed at a frame boundary, the host's configuration writes for a DSP file, and the payload it supplies. -/

namespace Sys2Proof.Machine

variable {c : Chan} {x y : Channel} {p : List Sample} {base len : Word} {n : Nat} {ps db b : Byte}

/-! ## The queue-free turns of a running engine (R101 to R105) -/

/-- The turn from an empty queue with no bound is the queue-free turn. -/
theorem Channel.freeTurn_of_turn (h : x.core.turn .unbounded = some y) : x.freeTurn = some (y.core, y.outq) := by
  rw [Channel.freeTurn, h, Option.map_some]

theorem Channel.freeTurn_of_latched (hr : x.state = .run) (hn : x.nph = true) (hpair : pairExists x.ps = true) :
    let v := refSample x.coef x.ps x.hist1 x.hist2 (x.db.extractLsb' 0 4)
    x.freeTurn =
      some ({ x with nph := false, hist2 := x.hist1, hist1 := v, outq := [], scount := x.scount + 1 }, [v]) :=
  Channel.freeTurn_of_turn
    ((Channel.turn_of_latched (x := x.core) hr hn (hasRoom_unbounded _)).trans (Channel.sample_eq_ref hpair))

theorem Channel.freeTurn_of_finish (hr : x.state = .run) (hn : x.nph = false) (hpos : x.pos = x.len.toNat) :
    x.freeTurn = some ({ x with outq := [], state := .done }, []) :=
  Channel.freeTurn_of_turn (Channel.turn_of_finish (x := x.core) hr hn hpos)

theorem Channel.freeTurn_of_unreadable (hr : x.state = .run) (hn : x.nph = false) (hpos : x.pos ≠ x.len.toNat)
    (hb : x.pm.read x.address = none) :
    x.freeTurn = some ({ x with outq := [], state := .fault, fRange := true, cause := .range }, []) := by
  have hs : x.core.selects = some .hdr ∨ (x.core.selects = some .dataHi ∧ hasRoom .unbounded x.core) := by
    by_cases h8 : x.pos % 8 = 0
    · exact .inl (Channel.selects_hdr.2 ⟨hr, hn, hpos, h8⟩)
    · exact .inr ⟨Channel.selects_dataHi.2 ⟨hr, hn, hpos, h8⟩, hasRoom_unbounded _⟩
  exact Channel.freeTurn_of_turn (Channel.turn_of_unreadable hs (Memory.size_le_of_read_none hb))

theorem Channel.freeTurn_of_bad_header (hr : x.state = .run) (hn : x.nph = false) (hpos : x.pos ≠ x.len.toNat)
    (h8 : x.pos % 8 = 0) (hb : x.pm.read x.address = some b) (hpair : pairExists b = false) :
    x.freeTurn = some ({ x with outq := [], ps := b, state := .fault, fPred := true, cause := .pred }, []) :=
  Channel.freeTurn_of_turn (Channel.turn_of_bad_header (x := x.core) (Channel.selects_hdr.2 ⟨hr, hn, hpos, h8⟩) hb
    (by simpa [pairExists] using hpair))

theorem Channel.freeTurn_of_header (hr : x.state = .run) (hn : x.nph = false) (hpos : x.pos ≠ x.len.toNat)
    (h8 : x.pos % 8 = 0) (hb : x.pm.read x.address = some b) (hpair : pairExists b = true) :
    x.freeTurn = some ({ x with outq := [], ps := b, pos := x.pos + 1 }, []) :=
  Channel.freeTurn_of_turn (Channel.turn_of_header (x := x.core) hr hn hpos h8 hb hpair)

theorem Channel.freeTurn_of_data (hr : x.state = .run) (hn : x.nph = false) (hpos : x.pos ≠ x.len.toNat)
    (h8 : x.pos % 8 ≠ 0) (hpair : pairExists x.ps = true) (hb : x.pm.read x.address = some b) :
    let v := refSample x.coef x.ps x.hist1 x.hist2 (b.extractLsb' 4 4)
    x.freeTurn = some
      ({ x with
        db := b, pos := x.pos + 1, nph := true, hist2 := x.hist1, hist1 := v, outq := [], scount := x.scount + 1 },
        [v]) :=
  Channel.freeTurn_of_turn ((Channel.turn_of_data (x := x.core) hr hn hpos h8 (hasRoom_unbounded _) hb).trans
    (Channel.sample_eq_ref hpair))

/-- No queue-free turn writes the configuration (R47). -/
theorem Channel.freeTurn_keeps (h : x.freeTurn = some (y, p)) : SameConfiguration x y := by
  obtain ⟨w, hw, he⟩ := Option.map_eq_some_iff.1 h
  obtain ⟨rfl, -⟩ := Prod.mk.inj he
  obtain ⟨hconf, -⟩ := Channel.turn_keeps hw
  exact hconf

/-! ## A run seen within a longer one (R205) -/

/-- The channel of a run that began `n` frames into a stream, as the run over the whole stream has it: with the base and the length of the whole, and the bytes and the samples of those frames counted in. The two byte latches may be others. -/
def Channel.within (x : Channel) (base len : Word) (n : Nat) (ps db : Byte) : Channel :=
  -- the addends stand in this order so that counting one more commutes with the shift by `rfl`
  { x with base := base, len := len, pos := 8 * n + x.pos, scount := 14 * n + x.scount, ps := ps, db := db }

/-- The latches `ps` and `db` decode as the channel's own do: `ps` is the channel's unless a header is next, and `db` is while its low nibble waits. -/
def Channel.LatchesServe (x : Channel) (ps db : Byte) : Prop :=
  (x.nph = true ∨ x.pos % 8 ≠ 0 → ps = x.ps) ∧ (x.nph = true → db = x.db)

/-- The longer run takes the same turn as its part, as long as both or neither are at their end. -/
theorem Channel.freeTurn_within (h : x.freeTurn = some (y, p)) (hbase : base.toNat + 8 * n = x.base.toNat)
    (hlen : x.nph = false → (8 * n + x.pos = len.toNat ↔ x.pos = x.len.toNat))
    (hl : x.LatchesServe ps db) :
    ∃ ps' db', y.LatchesServe ps' db' ∧
      (x.within base len n ps db).freeTurn = some (y.within base len n ps' db', p) := by
  have hread : (x.within base len n ps db).pm.read (x.within base len n ps db).address =
      x.pm.read (x.base.toNat + x.pos) := by
    rw [← hbase, Nat.add_assoc]
    rfl
  have h8 : (8 * n + x.pos) % 8 = x.pos % 8 := Nat.mul_add_mod_self_left ..
  have hl' := hl
  obtain ⟨hps, hdb⟩ := hl
  rcases Channel.freeTurn_cases h with ⟨hr, rfl, rfl⟩ | ⟨hr, hn, hpair, v, rfl, rfl, rfl⟩ | ⟨hr, hn, hpos, rfl, rfl⟩ |
    ⟨hr, hn, hpos, hb, rfl, rfl⟩ | ⟨hr, hn, hpos, hh, rfl, b, hb, ⟨hpair, rfl⟩ | ⟨hpair, rfl⟩⟩ |
    ⟨hr, hn, hpos, hd, hpair, b, v, hb, rfl, rfl, rfl⟩
  · exact ⟨ps, db, hl', Channel.freeTurn_of_stopped hr⟩
  · obtain rfl := hps (.inl hn)
    obtain rfl := hdb hn
    exact ⟨x.ps, x.db, ⟨fun _ => rfl, fun _ => rfl⟩, Channel.freeTurn_of_latched hr hn hpair⟩
  · exact ⟨ps, db, hl', Channel.freeTurn_of_finish hr hn ((hlen hn).2 hpos)⟩
  · exact ⟨ps, db, hl', Channel.freeTurn_of_unreadable hr hn (mt (hlen hn).1 hpos) (hread.trans hb)⟩
  · exact ⟨b, db, ⟨fun _ => rfl, hdb⟩,
      Channel.freeTurn_of_bad_header hr hn (mt (hlen hn).1 hpos) (h8.trans hh) (hread.trans hb) hpair⟩
  · exact ⟨b, db, ⟨fun _ => rfl, hdb⟩,
      Channel.freeTurn_of_header hr hn (mt (hlen hn).1 hpos) (h8.trans hh) (hread.trans hb) hpair⟩
  · obtain rfl := hps (.inr hd)
    exact ⟨x.ps, b, ⟨fun _ => rfl, fun _ => rfl⟩,
      Channel.freeTurn_of_data hr hn (mt (hlen hn).1 hpos) (h8.trans_ne hd) hpair (hread.trans hb)⟩

/-- A part that ends where the longer run ends takes the same turns throughout. -/
theorem Channel.iterate_within {k : Nat} (h : Channel.iterate k x = some (y, p))
    (hbase : base.toNat + 8 * n = x.base.toNat) (hlen : 8 * n + x.len.toNat = len.toNat)
    (hl : x.LatchesServe ps db) :
    ∃ ps' db', Channel.iterate k (x.within base len n ps db) = some (y.within base len n ps' db', p) := by
  induction k generalizing x p ps db with
  | zero =>
    cases h
    exact ⟨ps, db, rfl⟩
  | succ k ih =>
    obtain ⟨w, a, b, hfirst, hrest, rfl⟩ := Channel.iterate_succ_inv h
    obtain ⟨ps', db', hl', hw⟩ := Channel.freeTurn_within (len := len) hfirst hbase (fun _ => by omega) hl
    obtain ⟨-, hwbase, hwlen, -⟩ := Channel.freeTurn_keeps hfirst
    obtain ⟨ps'', db'', hy⟩ := ih hrest (hwbase ▸ hbase) (hwlen ▸ hlen) hl'
    exact ⟨ps'', db'', Channel.iterate_succ hw hy⟩

/-- The turn that ends a run in DONE is END (R101). -/
theorem Channel.freeTurn_done (h : x.freeTurn = some (y, p)) (hr : x.state = .run) (hd : y.state = .done) :
    x.nph = false ∧ x.pos = x.len.toNat ∧ p = [] ∧ y = { x with outq := [], state := .done } := by
  rcases Channel.freeTurn_cases h with ⟨hn, -⟩ | ⟨-, -, -, v, -, -, rfl⟩ | ⟨-, hn, hpos, rfl, rfl⟩ |
    ⟨-, -, -, -, -, rfl⟩ | ⟨-, -, -, -, -, b, -, ⟨-, rfl⟩ | ⟨-, rfl⟩⟩ | ⟨-, -, -, -, -, b, v, -, -, -, rfl⟩
  · exact absurd hr hn
  · cases hr.symm.trans hd
  · exact ⟨hn, hpos, rfl, rfl⟩
  · cases hd
  · cases hd
  · cases hr.symm.trans hd
  · cases hr.symm.trans hd

/-- A run that ends in DONE has read its whole length, and a longer run from the same place goes through its turns up to END, before which it is still in RUN. -/
theorem Channel.iterate_longer {k : Nat} (h : Channel.iterate k x = some (y, p)) (hc : x.core = x)
    (hr : x.state = .run) (hd : y.state = .done) (hpos : x.pos ≤ x.len.toNat) (hlen : x.len.toNat ≤ len.toNat)
    (hl : x.LatchesServe ps db) :
    y.nph = false ∧ y.pos = x.len.toNat ∧ ∃ m ps' db', Channel.iterate m (x.within x.base len 0 ps db) =
      some (Channel.within { y with state := .run } x.base len 0 ps' db', p) := by
  induction k generalizing x p ps db with
  | zero =>
    cases h
    cases hr.symm.trans hd
  | succ k ih =>
    obtain ⟨w, a, b, hfirst, hrest, rfl⟩ := Channel.iterate_succ_inv h
    have hcore := Channel.freeTurn_core hfirst
    by_cases hw : w.state = .run
    · have hmore : x.nph = false → x.pos ≠ x.len.toNat := by
        intro hn he
        rw [Channel.freeTurn_of_finish hr hn he] at hfirst
        cases hfirst
        cases hw
      obtain ⟨ps', db', hl', hlonger⟩ := Channel.freeTurn_within (base := x.base) (len := len) (n := 0) hfirst rfl
        (fun hn => by have := hmore hn; omega) hl
      obtain ⟨-, hwbase, hwlen, -⟩ := Channel.freeTurn_keeps hfirst
      obtain ⟨-, hwpos⟩ := Channel.samplesAhead_freeTurn hfirst hr hpos
      obtain ⟨hn, he, m, ps'', db'', hm⟩ := ih hrest hcore hw hwpos (hwlen ▸ hlen) hl'
      rw [hwbase] at hm
      exact ⟨hn, he.trans (by rw [hwlen]), m + 1, ps'', db'', Channel.iterate_succ hlonger hm⟩
    · rw [Channel.iterate_of_stopped hw hcore] at hrest
      cases hrest
      obtain ⟨hn, he, rfl, rfl⟩ := Channel.freeTurn_done hfirst hr hd
      refine ⟨hn, he, 0, ps, db, ?_⟩
      rw [Channel.iterate, ← hr]
      exact congrArg (fun z : Channel => some (z.within x.base len 0 ps db, [])) hc.symm

/-- The samples pushed, with the one that waits, are those of the bytes consumed (R87). -/
def Channel.Counted (x : Channel) : Prop := x.scount + (if x.nph then 1 else 0) = nsamples x.pos

theorem Channel.freeTurn_counted (h : x.freeTurn = some (y, p)) (hx : x.Counted) : y.Counted := by
  unfold Channel.Counted at hx ⊢
  rcases Channel.freeTurn_cases h with ⟨-, rfl, -⟩ | ⟨-, hn, -, v, -, -, rfl⟩ | ⟨-, -, -, -, rfl⟩ |
    ⟨-, -, -, -, -, rfl⟩ | ⟨-, hn, -, h8, -, b, -, ⟨-, rfl⟩ | ⟨-, rfl⟩⟩ | ⟨-, hn, -, h8, -, b, v, -, -, -, rfl⟩
  · exact hx
  · simpa [hn] using hx
  · exact hx
  · exact hx
  · exact hx
  · simpa [nsamples_succ_of_header h8] using hx
  · simpa [hn, nsamples_succ_of_data h8] using hx

theorem Channel.iterate_counted {k : Nat} (h : Channel.iterate k x = some (y, p)) (hx : x.Counted) : y.Counted := by
  induction k generalizing x p with
  | zero =>
    cases h
    exact hx
  | succ k ih =>
    obtain ⟨w, a, b, hfirst, hrest, rfl⟩ := Channel.iterate_succ_inv h
    exact ih hrest (Channel.freeTurn_counted hfirst hx)

/-! ## A host's program of writes (R91) -/

/-- The host's moves `es` take channel `c` from `x` to `y`, in any block, and change nothing else of it. -/
def HostTakes (c : Chan) (es : List Event) (x y : Channel) : Prop :=
  ∀ (s : State) (rest : List Event), s.channel? c = some x → s.pending = es ++ rest →
    runSteps es.length s = .next (State.setChannel { s with pending := rest } c y)

theorem HostTakes.nil : HostTakes c [] x x := by
  intro s rest hc hp
  obtain rfl : s.pending = rest := hp
  exact congrArg _ (State.setChannel_of_same hc).symm

/-- One program after another. -/
theorem HostTakes.append {es es' : List Event} {z : Channel} (hfirst : HostTakes c es x y)
    (hrest : HostTakes c es' y z) : HostTakes c (es ++ es') x z := by
  intro s rest hc hp
  rw [List.append_assoc] at hp
  have h := hrest (State.setChannel { s with pending := es' ++ rest } c y) rest
    (State.setChannel_channel?_self (s := { s with pending := es' ++ rest }) hc) rfl
  rw [State.setChannel_setChannel] at h
  rw [List.length_append, runSteps_add (hfirst s (es' ++ rest) hc hp), h]

/-- A program of one move is a step. -/
theorem HostTakes.of_step {e : Event} (h : ∀ (s : State) (rest : List Event), s.channel? c = some x →
    s.pending = e :: rest → step s = .next (State.setChannel { s with pending := rest } c y)) :
    HostTakes c [e] x y :=
  fun s rest hc hp => runSteps_of_next (h s rest hc hp)

/-- A configuration write to an engine that is not in RUN (R146). -/
theorem HostTakes.config {off : BitVec 8} {d : Word} {f : Channel → Channel} (hr : x.state ≠ .run)
    (ho : off.extractLsb' 0 2 = 0#2)
    (hf : ∀ u, exec (decodeChannel true (channelAddr c off) c off d) u = configWrite c f u) :
    HostTakes c [hostWrite (channelReg c off.toNat) d] x (f x) :=
  .of_step fun _ _ hc hp => step_hostWrite_config hp hc hr ho hf

theorem HostTakes.start (hs : x.state = .idle ∨ x.state = .done) : HostTakes c [startChannel c] x x.start :=
  .of_step fun s rest hc hp =>
    (step_hostWrite_channel (off := 0x00) hp hc rfl).trans
      (execChCtrlStart_of_idle_or_done (s := { s with pending := rest }) 1 hc hs)

theorem HostTakes.writeBase (hr : x.state ≠ .run) (d : Word) :
    HostTakes c [hostWrite (channelReg c 0x08) d] x { x with base := d } :=
  HostTakes.config (off := 0x08) (f := fun x => { x with base := d }) hr rfl fun _ => rfl

theorem HostTakes.writeLen (hr : x.state ≠ .run) (d : Word) :
    HostTakes c [hostWrite (channelReg c 0x0C) d] x { x with len := d } :=
  HostTakes.config (off := 0x0C) (f := fun x => { x with len := d }) hr rfl fun _ => rfl

theorem HostTakes.writeHist1 (hr : x.state ≠ .run) (v : Sample) :
    HostTakes c [hostWrite (channelReg c 0x14) (sampleView v)] x { x with hist1 := v } := by
  have h := HostTakes.config (c := c) (off := 0x14) (d := sampleView v)
    (f := fun x => { x with hist1 := sampleStored (sampleView v) }) hr rfl fun _ => rfl
  rwa [sampleStored_sampleView] at h

theorem HostTakes.writeHist2 (hr : x.state ≠ .run) (v : Sample) :
    HostTakes c [hostWrite (channelReg c 0x18) (sampleView v)] x { x with hist2 := v } := by
  have h := HostTakes.config (c := c) (off := 0x18) (d := sampleView v)
    (f := fun x => { x with hist2 := sampleStored (sampleView v) }) hr rfl fun _ => rfl
  rwa [sampleStored_sampleView] at h

theorem HostTakes.writeSrate (hr : x.state ≠ .run) (d : Word) :
    HostTakes c [hostWrite (channelReg c 0x10) d] x { x with srate := d } :=
  HostTakes.config (off := 0x10) (f := fun x => { x with srate := d }) hr rfl fun _ => rfl

/-! ## A run resumed at a frame boundary (R205) -/

/-- The host's program between the two parts of a stream (R205). -/
theorem HostTakes.restart (hd : x.state = .done) (base len : Word) :
    HostTakes c [hostWrite (channelReg c 0x08) base, hostWrite (channelReg c 0x0C) len, startChannel c] x
      (Channel.start { x with base := base, len := len }) := by
  have hr : x.state ≠ .run := by simp [hd]
  exact (HostTakes.writeBase hr base).append
    ((HostTakes.writeLen (x := { x with base := base }) hr len).append (HostTakes.start (.inr hd)))

theorem nsamples_frames (n : Nat) : nsamples (8 * n) = 14 * n := by
  rw [Nat.mul_comm, (sampleCountOfLength n 0).1, Nat.mul_comm]

theorem Channel.start_counted (x : Channel) : x.start.core.Counted := by
  simp [Channel.Counted, Channel.core, nsamples]

/-- A run of the first `n` frames that ends in DONE, and a run resumed there, are together a run of the whole stream: the second part begins where the whole run is after the first, and its cleared latches serve, because a header is next. -/
theorem Channel.start_within {x1 x2 : Channel} {p1 p2 : List Sample} {k1 k2 : Nat} {base2 len1 len2 : Word}
    (hlen1 : len1.toNat = 8 * n) (hle : 8 * n ≤ x.len.toNat) (hbase2 : base2.toNat = x.base.toNat + 8 * n)
    (hlen2 : len2.toNat = x.len.toNat - 8 * n)
    (h1 : Channel.iterate k1 (Channel.start { x with len := len1 }).core = some (x1.core, p1)) (hd : x1.state = .done)
    (h2 : Channel.iterate k2 (Channel.start { x1 with base := base2, len := len2 }).core = some (x2.core, p2)) :
    x1.scount = 14 * n ∧
      ∃ k ps db, Channel.iterate k x.start.core = some (x2.core.within x.base x.len n ps db, p1 ++ p2) := by
  obtain ⟨hn, hpos, m, ps, db, hm⟩ := Channel.iterate_longer (len := x.len) (ps := 0) (db := 0) h1 rfl rfl hd
    (Nat.zero_le _) (by rwa [← hlen1] at hle) ⟨fun _ => rfl, fun _ => rfl⟩
  have hn : x1.nph = false := hn
  have hpos : x1.pos = 8 * n := hpos.trans hlen1
  have hcount : x1.scount = 14 * n := by
    have hcounted : x1.core.Counted := Channel.iterate_counted h1 (Channel.start_counted _)
    simpa [Channel.Counted, Channel.core, hn, hpos, nsamples_frames] using hcounted
  obtain ⟨ps', db', hk⟩ := Channel.iterate_within (ps := ps) (db := db) (len := x.len) h2 hbase2.symm
    (show 8 * n + len2.toNat = x.len.toNat by omega) (by simp [Channel.LatchesServe, Channel.core])
  have hboundary : Channel.within { x1.core with state := .run } x.base x.len 0 ps db =
      Channel.within (Channel.start { x1 with base := base2, len := len2 }).core x.base x.len n ps db := by
    simp [Channel.within, Channel.core, Channel.start, hn, hpos, hcount]
  exact ⟨hcount, m + k2, ps', db', Channel.iterate_add (hboundary ▸ hm) hk⟩

/-- Settles O25: both parts are queue-free turns of the one run, which ends in one way only and pushes the samples ahead. -/
theorem resumedDecodeContinues : Obligations.ResumedDecodeContinues := by
  intro s2 t2 t3 c x y2 y3 q k3 n first second base len hle hbase hlen hx hp hfirst hsecond hrun2 hy2 hd hrun3 hy3
  obtain ⟨hpend, k1, p1, h1, -, hcount1⟩ := runSteps_channel_free hrun2 hx hy2 (by simpa [hp] using hfirst)
  rw [hp, List.drop_left] at hpend
  rw [runSteps_add (a := 3) (HostTakes.restart hd base len t2 second hy2 hpend)] at hrun3
  obtain ⟨-, k2, p2, h2, hq, hcount2⟩ := runSteps_channel_free hrun3
    (State.setChannel_channel?_self (s := { t2 with pending := second }) hy2) hy3 (turnsAndReads_take hsecond k3)
  have hlen1 : (BitVec.ofNat 32 (8 * n)).toNat = 8 * n := by
    have := x.len.isLt
    rw [BitVec.toNat_ofNat, Nat.mod_eq_of_lt (by omega)]
  obtain ⟨hcount, k, ps, db, hk⟩ := Channel.start_within hlen1 hle hbase hlen h1 hd h2
  have hp1 : p1.length = 14 * n := by simpa [hcount] using hcount1.symm
  have hp2 : p2.length = y3.scount := by simpa using hcount2.symm
  obtain ⟨r, hahead⟩ : ∃ r, x.start.samplesAhead = p1 ++ p2 ++ r :=
    ⟨_, Channel.samplesAhead_iterate (x := x.start.core) hk rfl (Nat.zero_le _)⟩
  refine ⟨hcount, ⟨by simp only [hahead, List.length_append]; omega, ?_⟩, fun s1 t1 y1 k1 hx1 he1 hrun1 hy1 hend1 hend3 => ?_⟩
  · rw [hahead, List.append_assoc, ← hp1, List.drop_left, ← hp2, List.take_left]
    exact hq
  · obtain ⟨-, k', p, hk', -⟩ := runSteps_channel_free hrun1 hx1 hy1 (turnsAndReads_take he1 k1)
    obtain ⟨hsame, -⟩ := Channel.iterate_unique (Channel.core_core _) hk hk' hend3 hend1
    exact ⟨(congrArg Channel.hist1 hsame :), (congrArg Channel.hist2 hsame :), (congrArg Channel.state hsame :),
      (congrArg Channel.cause hsame :), (congrArg Channel.pos hsame :), (congrArg Channel.scount hsame :)⟩

/-! ## The fields of a DSP file's header (R200, R201) -/

theorem be16_toNat (bs : List Byte) (off : Nat) :
    (be16 bs off).toNat = (bs.getD off 0).toNat * 256 + (bs.getD (off + 1) 0).toNat := by
  rw [be16, toNat_append_add]
  omega

theorem be32_toNat (bs : List Byte) (off : Nat) :
    (be32 bs off).toNat = (bs.getD off 0).toNat * 2 ^ 24 + (bs.getD (off + 1) 0).toNat * 2 ^ 16 +
      (bs.getD (off + 2) 0).toNat * 2 ^ 8 + (bs.getD (off + 3) 0).toNat := by
  rw [be32, toNat_append_add, be16_toNat, be16_toNat, Nat.add_assoc off 2 1]
  omega

theorem DspHeader.payloadLength_toNat (h : DspHeader) : h.payloadLength.toNat = h.nibbleCount.toNat / 2 := by
  have := h.nibbleCount.isLt
  rw [DspHeader.payloadLength, BitVec.toNat_ofNat, Nat.mod_eq_of_lt (by omega)]

/-- The fields the host's program uses, at their offsets. -/
theorem parseDspHeader_fields {file : List Byte} {h : DspHeader} (hh : parseDspHeader file = some h) :
    h.nibbleCount = be32 file 0x04 ∧ h.sampleRate = be32 file 0x08 ∧ h.history1 = be16 file 0x40 ∧
      h.history2 = be16 file 0x42 ∧ h.coefs = (List.range 16).map (fun i => be16 file (0x1C + 2 * i)) := by
  unfold parseDspHeader at hh
  split at hh
  · cases hh
  · cases hh
    exact ⟨rfl, rfl, rfl, rfl, rfl⟩

/-! ## The configuration writes (R202, R203, R204, R207) -/

/-- The coefficient file with the samples stored from index `i` on. -/
def storeCoefs : Vector Sample 16 → Nat → List Sample → Vector Sample 16
  | coef, _, [] => coef
  | coef, i, v :: vs => storeCoefs (coef.setIfInBounds i v) (i + 1) vs

theorem getElem_storeCoefs (coef : Vector Sample 16) (i : Nat) (vs : List Sample) (j : Nat) (hj : j < 16) :
    (storeCoefs coef i vs)[j] = if i ≤ j then vs.getD (j - i) coef[j] else coef[j] := by
  induction vs generalizing coef i with
  | nil => simp [storeCoefs]
  | cons v vs ih =>
    rw [storeCoefs, ih, Vector.getElem_setIfInBounds hj]
    rcases Nat.lt_trichotomy i j with hlt | rfl | hgt
    · have hji : j - i = j - (i + 1) + 1 := by omega
      simp [hlt.ne, hlt.le, Nat.succ_le_of_lt hlt, hji]
    · simp
    · simp [hgt.ne', Nat.not_le.2 hgt, Nat.not_le.2 (Nat.lt_succ_of_lt hgt)]

theorem HostTakes.writeCoef (hr : x.state ≠ .run) (i : Nat) (hi : i < 16) (v : Sample) :
    HostTakes c [hostWrite (channelReg c (0x40 + 4 * i)) (sampleView v)] x
      { x with coef := x.coef.setIfInBounds i v } := by
  obtain ⟨j, rfl⟩ : ∃ j : BitVec 4, j.toNat = i :=
    ⟨BitVec.ofNat 4 i, by rw [BitVec.toNat_ofNat, Nat.mod_eq_of_lt hi]⟩
  have h := HostTakes.config (c := c) (off := coefOffset j) (d := sampleView v)
    (f := fun x => { x with coef := x.coef.set j.toNat (sampleStored (sampleView v)) j.isLt }) hr (coefOffset_align j)
    fun u => by rw [decodeChannel_coef]; rfl
  rw [coefOffset_toNat, sampleStored_sampleView] at h
  have hset : x.coef.setIfInBounds j.toNat v = x.coef.set j.toNat v :=
    Vector.ext fun k hk => by rw [Vector.getElem_setIfInBounds hk, Vector.getElem_set]
  rw [hset]
  exact h

/-- LOADCOEF (R91, R202) stores the samples in order. -/
theorem HostTakes.loadCoefFrom (hr : x.state ≠ .run) (i : Nat) (vs : List Sample) (hi : i + vs.length ≤ 16) :
    HostTakes c (loadCoefFrom c i vs) x { x with coef := storeCoefs x.coef i vs } := by
  induction vs generalizing x i with
  | nil => exact .nil
  | cons v vs ih =>
    rw [List.length_cons] at hi
    exact (HostTakes.writeCoef hr i (by omega) v).append
      (ih (x := { x with coef := x.coef.setIfInBounds i v }) hr (i + 1) (by omega))

/-- The configuration program loads the header's registers. -/
theorem HostTakes.configureChannel (hr : x.state ≠ .run) (p : PayloadPlacement) (h : DspHeader)
    (hlen : h.coefs.length ≤ 16) :
    HostTakes c (configureChannel c p h) x
      { x with
        coef := storeCoefs x.coef 0 h.coefs, hist1 := h.history1, hist2 := h.history2, base := p.base
        len := h.payloadLength, srate := h.sampleRate } := by
  have hcoef := HostTakes.loadCoefFrom (c := c) hr 0 h.coefs (by omega)
  exact hcoef.append ((HostTakes.writeHist1 (by exact hr) _).append ((HostTakes.writeHist2 (by exact hr) _).append
    ((HostTakes.writeBase (by exact hr) _).append ((HostTakes.writeLen (by exact hr) _).append
      (HostTakes.writeSrate (by exact hr) _)))))

theorem loadCoefFrom_length (c : Chan) (i : Nat) (vs : List Sample) : (loadCoefFrom c i vs).length = vs.length := by
  induction vs generalizing i with
  | nil => rfl
  | cons v vs ih => rw [loadCoefFrom, List.length_cons, List.length_cons, ih]

/-- Settles O59: the writes one after the other, and the header's fields as numbers. -/
theorem hostProgramLoadsTheHeader : Obligations.HostProgramLoadsTheHeader := by
  intro s c x p file h rest hc hr hh hp
  obtain ⟨hnibbles, hrate, hhist1, hhist2, hcoefs⟩ := parseDspHeader_fields hh
  have hcount : h.coefs.length = 16 := by rw [hcoefs, List.length_map, List.length_range]
  have hlength : (configureChannel c p h).length = 21 := by
    rw [configureChannel, loadCoef, List.length_append, loadCoefFrom_length, hcount]
    rfl
  have hrun := HostTakes.configureChannel hr p h hcount.le s rest hc hp
  rw [hlength] at hrun
  refine ⟨_, _, _, _, _, fun i hi => ?_, ?_, ?_, ?_, ?_, hrun⟩
  · have hnext : 0x1C + 2 * i + 1 = 0x1D + 2 * i := by omega
    have hcoef : (storeCoefs x.coef 0 h.coefs)[i] = be16 file (0x1C + 2 * i) := by
      rw [getElem_storeCoefs, if_pos (Nat.zero_le i), hcoefs]
      simp [hi]
    rw [hcoef, be16_toNat, hnext]
  · rw [hhist1, be16_toNat]
  · rw [hhist2, be16_toNat]
  · rw [DspHeader.payloadLength_toNat, hnibbles, be32_toNat]
  · rw [hrate, be32_toNat]

/-! ## The payload (R204, R60, R70) -/

theorem PayloadPlacement.bytes_length_le (p : PayloadPlacement) (h : DspHeader) (file : List Byte) :
    (p.bytes h file).length ≤ file.length := by
  cases p with
  | wholeFile => exact le_rfl
  | payloadOnly => exact ((List.take_sublist ..).trans (List.drop_sublist ..)).length_le

theorem DspHeader.payload_getElem? (h : DspHeader) (file : List Byte) (i : Nat) :
    (h.payload file)[i]? = if i < h.payloadLength.toNat then file[0x60 + i]? else none := by
  rw [DspHeader.payload, List.getElem?_take, List.getElem?_drop, dspHeaderSize]

/-- Settles O60: the first move of the program is the image's, and an image made of bytes holds exactly those. -/
theorem hostSuppliesThePayload : Obligations.HostSuppliesThePayload := by
  intro s c x p file es rest hc hr hlen hes hp
  obtain ⟨h, hh, rfl⟩ := Option.map_eq_some_iff.1 hes
  refine ⟨Memory.ofBytes (p.bytes h file), (step_load hp).trans (loadPayload_of_not_run hc hr
    (Memory.ofBytes_wf _ ((p.bytes_length_le h file).trans hlen))), fun n hn => ⟨?_, ?_⟩⟩
  · rintro rfl
    exact ⟨rfl, Memory.ofBytes_read file⟩
  · rintro rfl
    obtain ⟨hnibbles, -⟩ := parseDspHeader_fields hh
    obtain rfl : h.payloadLength.toNat = n := by rw [DspHeader.payloadLength_toNat, hnibbles, be32_toNat, hn]
    refine ⟨List.length_take.trans (by rw [List.length_drop, dspHeaderSize]), fun i => ?_⟩
    rw [Memory.ofBytes_read, PayloadPlacement.bytes, DspHeader.payload_getElem?]

end Sys2Proof.Machine
end

section
/-! PROOFS. The family of 60_exceptions.md: fault flags, warnings and causes through every step, and the steps that never stop. -/

namespace Sys2Proof.Machine

variable {s t : State} {c : Chan} {x y : Channel} {m : Mux} {depth : QueueDepth} {rest : List Event}

/-! ## Steps that go on from the block's own faults (R224, R225) -/

/-- A turn that stops is SAMPLE of a running engine whose header byte names no pair. -/
theorem Channel.turn_eq_none (h : x.turn depth = none) : x.state = .run ∧ pairExists x.ps = false := by
  have hr : x.state = .run := by
    by_contra hr
    simp [Channel.turn_of_stopped hr] at h
  unfold Channel.turn at h
  split at h
  case h_2 =>
    split at h
    · cases h
    · have hpair := Channel.sample_eq_none h
      exact ⟨hr, hpair⟩
  case h_5 =>
    split at h
    · cases h
    · split at h
      · cases h
      · have hpair := Channel.sample_eq_none h
        exact ⟨hr, hpair⟩
  case h_4 =>
    split at h
    · cases h
    · split at h <;> cases h
  all_goals cases h

theorem Channel.Inv.turn_ne_none (h : x.Inv depth) : x.turn depth ≠ none := by
  intro ht
  obtain ⟨hr, hpair⟩ := Channel.turn_eq_none ht
  obtain ⟨-, -, hrun, -⟩ := h
  simp [(hrun hr).2] at hpair

/-- A running multiplexer has a channel due, and the block has that channel. -/
theorem State.Inv.due_channel (h : s.Inv) (hr : s.mux.mstate = .run) :
    ∃ c x, s.mux.chlist[s.mux.mj]? = some c ∧ s.channel? c = some x := by
  obtain ⟨hexist, -, hrun, -⟩ := h.mux
  obtain ⟨hj, -⟩ := hrun hr
  have hdue := List.getElem?_eq_getElem hj
  obtain ⟨x, hx⟩ := Option.isSome_iff_exists.1 (State.channel?_isSome_iff.2 (hexist _ (List.getElem_mem hj)))
  exact ⟨_, x, hdue, hx⟩

theorem State.Inv.muxStep_ne_fault (h : s.Inv) (f : Fault) : Machine.muxStep s ≠ .fault f := by
  intro hf
  obtain ⟨hr, -, hnone⟩ := muxStep_fault hf
  obtain ⟨c, x, hdue, hx⟩ := h.due_channel hr
  simp [hnone c hdue] at hx

theorem loadPayload_ne_fault (c : Chan) (image : Memory) (s : State) (f : Fault) :
    loadPayload c image s ≠ .fault f := by
  unfold loadPayload
  repeat' split
  all_goals simp

/-- A host access completes or is refused (R62). -/
theorem step_host_ne_fault {a : Access} (hp : s.pending = .host a :: rest) (f : Fault) : step s ≠ .fault f := by
  obtain ⟨hrefused, hnext⟩ := onlyUndefinedAccessesAreRefused s a rest hp
  by_cases hdef : a.width = 4 ∧ a.addr % 4 = 0 ∧ a.addr < 0x2000
  · obtain ⟨hw, ha, hl⟩ := hdef
    obtain ⟨t, ht⟩ := hnext hw ha hl
    simp [ht]
  · obtain ⟨r, hr⟩ := hrefused (by omega)
    simp [hr]

/-- Settles O33, by the agent that moves: only an engine's turn and the multiplexer's step can stop, each where the invariant does not hold. -/
theorem noStepFaultsUnderTheInvariant : Obligations.NoStepFaultsUnderTheInvariant := by
  intro s f hinv
  cases hp : s.pending with
  | nil => simp [step, State.fetch, hp]
  | cons e rest =>
    cases e with
    | host a => exact step_host_ne_fault hp f
    | load c image =>
      rw [step_load hp]
      exact loadPayload_ne_fault c image _ f
    | reset => simp [step, State.fetch, hp]
    | mux =>
      rw [step_mux hp]
      exact State.Inv.muxStep_ne_fault (s := { s with pending := rest }) hinv f
    | engine c =>
      cases hc : s.channel? c with
      | none => simp [step_engine_none hp hc]
      | some x =>
        obtain ⟨y, hy⟩ := Option.ne_none_iff_exists'.1 (hinv.channel hc).turn_ne_none
        simp [step_engine_of_turn hp hc hy]

/-! ## What clears no flag of an engine (R229) -/

/-- The flags of an engine that are set stay set. -/
def Channel.KeepsFlags (x y : Channel) : Prop :=
  (x.fPred = true → y.fPred = true) ∧ (x.fRange = true → y.fRange = true) ∧ (x.fCfgw = true → y.fCfgw = true)

theorem Channel.KeepsFlags.refl (x : Channel) : x.KeepsFlags x :=
  ⟨id, id, id⟩

theorem Channel.KeepsFlags.turn (h : x.turn depth = some y) : x.KeepsFlags y := by
  obtain ⟨-, hcfgw, hpred, hrange, -⟩ := Channel.turn_keeps h
  exact ⟨hpred, hrange, fun hw => hcfgw.trans hw⟩

/-- Of the host's accesses only ABORT clears a flag or changes the cause. -/
theorem HostChange.keepsFlags {i : Option Instr} (h : HostChange i c x y)
    (habort : ∀ d, i ≠ some (.chCtrlAbort c d)) : x.KeepsFlags y ∧ y.cause = x.cause := by
  cases h with
  | start | pop | config => exact ⟨.refl x, rfl⟩
  | abort d hi => exact absurd hi (habort d)
  | warn => exact ⟨⟨id, id, fun _ => rfl⟩, rfl⟩

/-- A step but reset and ABORT clears no flag, and changes the cause of a running engine only. -/
theorem StepChange.keepsFlags (h : StepChange s c x y) (hreset : s.pending.head? ≠ some .reset)
    (habort : ∀ d, s.nextInstr ≠ some (.chCtrlAbort c d)) :
    x.KeepsFlags y ∧ (x.state ≠ .run → y.cause = x.cause) := by
  cases h with
  | same | drained | load => exact ⟨.refl x, fun _ => rfl⟩
  | turn _ _ ht =>
    obtain ⟨-, -, -, -, -, hstopped⟩ := Channel.turn_keeps ht
    exact ⟨.turn ht, fun hr => by rw [hstopped hr]⟩
  | reset hp => exact absurd hp hreset
  | host _ _ _ hc =>
    obtain ⟨hflags, hcause⟩ := hc.keepsFlags habort
    exact ⟨hflags, fun _ => hcause⟩

/-- The turns of the agents clear no flag and no cause of an engine, whatever the state. -/
theorem StepChange.keepsFlags_of_turn (h : StepChange s c x y)
    (hturn : s.pending.head? = some .mux ∨ ∃ d, s.pending.head? = some (.engine d)) :
    x.KeepsFlags y ∧ (x.cause ≠ .none → y.cause ≠ .none) := by
  cases h with
  | same | drained => exact ⟨.refl x, id⟩
  | turn _ _ ht =>
    obtain ⟨-, -, -, -, hcause, -⟩ := Channel.turn_keeps ht
    exact ⟨.turn ht, hcause⟩
  | reset hp | load _ hp | host _ _ hp => simp [hp] at hturn

theorem Channel.Inv.not_run_of_cause (h : x.Inv depth) (hc : x.cause ≠ .none) : x.state ≠ .run := by
  obtain ⟨-, -, -, -, hfault, -⟩ := h
  simp [hfault.2 hc]

/-! ## What clears no flag of the multiplexer (R229) -/

/-- The flags of the multiplexer that are set stay set. -/
def Mux.KeepsFlags (m n : Mux) : Prop :=
  (m.mfChcount = true → n.mfChcount = true) ∧ (m.mfRate = true → n.mfRate = true) ∧
    (m.mfLen = true → n.mfLen = true) ∧ (m.mfSrc = true → n.mfSrc = true) ∧ (m.mfCfgw = true → n.mfCfgw = true)

theorem Mux.KeepsFlags.refl (m : Mux) : m.KeepsFlags m :=
  ⟨id, id, id, id, id⟩

/-- The multiplexer's step sets SRC or leaves the flags and the cause as they are. -/
theorem muxStep_keepsFlags (h : muxStep s = .next t) :
    s.mux.KeepsFlags t.mux ∧ (s.mux.mcause ≠ .none → t.mux.mcause ≠ .none) := by
  rcases muxStep_next h with rfl | ⟨-, -, rfl⟩ | ⟨-, -, c, x, -, -, ⟨v, q, -, rfl⟩ | ⟨-, -, rfl⟩⟩
  · exact ⟨.refl _, id⟩
  · exact ⟨.refl s.mux, id⟩
  · rw [State.emitSample_mux, Mux.advance_eq]
    exact ⟨.refl s.mux, id⟩
  · exact ⟨⟨id, id, id, fun _ => rfl, id⟩, fun _ => by simp⟩

theorem Mux.Inv.fault_of_cause {nch : Nat} (h : m.Inv nch) (hc : m.mcause ≠ .none) : m.mstate = .fault := by
  obtain ⟨-, -, -, -, hfault, -⟩ := h
  exact hfault.2 hc

theorem State.muxStarted_mfCfgw (s : State) : s.muxStarted.mfCfgw = s.mux.mfCfgw := by
  simp only [State.muxStarted]
  split <;> rfl

/-- A START is taken where the multiplexer has no fault flag to clear. -/
theorem Mux.KeepsFlags.muxStarted (h : s.mux.Inv s.nchMax) (hf : s.mux.mstate ≠ .fault) :
    s.mux.KeepsFlags s.muxStarted := by
  obtain ⟨-, hcount, hrate, hlen, hsrc⟩ := h.no_flags hf
  simp [Mux.KeepsFlags, hcount, hrate, hlen, hsrc, State.muxStarted_mfCfgw]

/-- Only three instructions write the multiplexer. -/
theorem exec_mux {i : Instr} (h : exec i s = .next t) :
    t.mux = s.mux ∨ ∃ d, i = .muxCtrlStart d ∨ i = .muxCtrlAbort d ∨ i = .muxCfgW d := by
  cases i with
  | muxCtrlStart d | muxCtrlAbort d | muxCfgW d => exact .inr ⟨d, by simp⟩
  | hdr | hdrBadpred | dataHi | dataLo | endRun =>
    simp only [exec, execHdr, execHdrBadpred, execDataHi, execDataLo, execEndRun] at h
    rcases engineStep_next h with rfl | ⟨x, y, -, -, -, -, rfl⟩ <;> exact .inl rfl
  | chCtrlStart | chCtrlAbort | chBaseW | chLenW | chSrateW | chHist1W | chHist2W | chCoefW =>
    rcases updateChannel_next h with rfl | ⟨x, -, rfl⟩ <;> exact .inl rfl
  | chCtrlR | chStatusR | chBaseR | chLenR | chSrateR | chHist1R | chHist2R | chPosR | chScountR | chPsR | chCoefR =>
    obtain ⟨w, rfl⟩ := readChannel_next h
    exact .inl rfl
  | chOutR c =>
    rcases execChOutR_next h with ⟨w, rfl⟩ | ⟨x, v, q, -, -, -, rfl⟩ <;> exact .inl rfl
  | _ =>
    cases next_eq h
    exact .inl rfl

/-- Of the host's accesses only ABORT clears a flag or changes a cause of the multiplexer. -/
theorem exec_keepsMuxFlags {i : Instr} (h : exec i s = .next t) (hinv : s.mux.Inv s.nchMax)
    (habort : ∀ d, i ≠ .muxCtrlAbort d) :
    s.mux.KeepsFlags t.mux ∧ (s.mux.mcause ≠ .none → t.mux.mcause = s.mux.mcause) := by
  rcases exec_mux h with hm | ⟨d, rfl | rfl | rfl⟩
  · rw [hm]
    exact ⟨.refl _, fun _ => rfl⟩
  · simp only [exec, execMuxCtrlStart] at h
    split at h <;> cases next_eq h
    next hs =>
      have hf : s.mux.mstate ≠ .fault := by rcases hs with hs | hs <;> simp [hs]
      exact ⟨.muxStarted hinv hf, fun hc => absurd (hinv.fault_of_cause hc) hf⟩
    next => exact ⟨.refl _, fun _ => rfl⟩
  · exact absurd rfl (habort d)
  · simp only [exec, execMuxCfgW] at h
    split at h <;> cases next_eq h
    · exact ⟨⟨id, id, id, id, fun _ => rfl⟩, fun _ => rfl⟩
    · exact ⟨.refl s.mux, fun _ => rfl⟩

/-- A step but reset and ABORT clears no flag and changes no cause of the multiplexer. -/
theorem step_keepsMuxFlags (h : step s = .next t) (hinv : s.mux.Inv s.nchMax)
    (hreset : s.pending.head? ≠ some .reset) (habort : ∀ d, s.nextInstr ≠ some (.muxCtrlAbort d)) :
    s.mux.KeepsFlags t.mux ∧ (s.mux.mcause ≠ .none → t.mux.mcause = s.mux.mcause) := by
  rcases step_cases h with ⟨-, rfl⟩ | ⟨c, x, x', rest, -, -, -, rfl⟩ | ⟨rest, -, hm⟩ | ⟨rest, hp, -⟩ |
    ⟨c, image, x, rest, -, -, -, -, rfl⟩ | ⟨a, rest, i, -, -, hi, he⟩
  · exact ⟨.refl _, fun _ => rfl⟩
  · exact ⟨.refl _, fun _ => rfl⟩
  · obtain ⟨hflags, -⟩ := muxStep_keepsFlags hm
    refine ⟨hflags, fun hc => ?_⟩
    have hr : s.mux.mstate ≠ .run := by simp [hinv.fault_of_cause hc]
    rw [muxStep_of_not_run (s := { s with pending := rest }) hr] at hm
    rw [next_eq hm]
  · simp [hp] at hreset
  · exact ⟨.refl _, fun _ => rfl⟩
  · exact exec_keepsMuxFlags (s := { s with pending := rest }) he hinv fun d hd => habort d (hd ▸ hi)

/-- The turns of the agents clear no flag and no cause of the multiplexer, whatever the state. -/
theorem step_turn_keepsMuxFlags {e : Event} (h : step s = .next t) (hp : s.pending = e :: rest)
    (he : e = .mux ∨ ∃ c, e = .engine c) :
    s.mux.KeepsFlags t.mux ∧ (s.mux.mcause ≠ .none → t.mux.mcause ≠ .none) := by
  rcases he with rfl | ⟨c, rfl⟩
  · rw [step_mux hp] at h
    exact muxStep_keepsFlags (s := { s with pending := rest }) h
  · obtain ⟨x, x', -, -, rfl⟩ := step_engine_next hp h
    exact ⟨.refl _, id⟩

/-- Settles O28, for the engines by what the step made of the channel, for the multiplexer by the agent that moves; a cause is there only in FAULT, where only ABORT and reset change it. -/
theorem faultFlagsAreSticky : Obligations.FaultFlagsAreSticky := by
  intro s t h
  refine ⟨fun e rest hp he => ⟨fun c x hc => ?_, ?_⟩, fun hinv hreset => ⟨fun c x hc habort => ?_, fun habort => ?_⟩⟩
  · obtain ⟨y, hy, hxy⟩ := step_channel h hc
    obtain ⟨⟨hpred, hrange, hcfgw⟩, hcause⟩ := hxy.keepsFlags_of_turn (by simpa [hp] using he)
    exact ⟨y, hy, hpred, hrange, hcfgw, hcause⟩
  · obtain ⟨⟨hcount, hrate, hlen, hsrc, hcfgw⟩, hcause⟩ := step_turn_keepsMuxFlags h hp he
    exact ⟨hcount, hrate, hlen, hsrc, hcfgw, hcause⟩
  · obtain ⟨y, hy, hxy⟩ := step_channel h hc
    obtain ⟨⟨hpred, hrange, hcfgw⟩, hcause⟩ := hxy.keepsFlags hreset habort
    exact ⟨y, hy, hpred, hrange, hcfgw, fun hx => hcause ((hinv.channel hc).not_run_of_cause hx)⟩
  · obtain ⟨⟨hcount, hrate, hlen, hsrc, hcfgw⟩, hcause⟩ := step_keepsMuxFlags h hinv.mux hreset habort
    exact ⟨hcount, hrate, hlen, hsrc, hcfgw, hcause⟩

end Sys2Proof.Machine
end

section
/-! PROOFS. The family of 70_reset_and_hazards.md: reset meets the invariant, sets every register and leaves no agent a step. -/

namespace Sys2Proof.Machine

variable {s t : State} {c : Chan} {x : Channel} {depth : QueueDepth} {image : Memory} {rest : List Event}

/-! ## The invariant after reset (R6, R250) -/

/-- A channel after reset meets the invariant at any depth, once its image is in canonical form. -/
theorem Channel.afterReset_inv (h : image.wf = true) : (Channel.afterReset image).Inv depth := by
  have hempty : withinDepth depth 0 := by cases depth <;> simp [withinDepth]
  simp [Channel.Inv, Channel.afterReset, h, hempty]

theorem State.fresh_inv {images : List Memory} (hdepth : depth.legal = true)
    (hcount : legalChannelCount images.length = true) (hwf : ∀ m ∈ images, m.wf = true) :
    (State.fresh depth images).Inv := by
  have hnch : (State.fresh depth images).nchMax = images.length := List.length_map _
  refine ⟨hnch ▸ hcount, hdepth, fun x hx => ?_, .afterReset _⟩
  obtain ⟨m, hm, rfl⟩ := List.mem_map.1 hx
  exact Channel.afterReset_inv (hwf m hm)

/-- Settles O31: the reset instance is a fresh block of legal parameters, and every fresh block of such meets the invariant. -/
theorem resetMeetsInvariant : Obligations.ResetMeetsInvariant :=
  ⟨State.fresh_inv (by decide) (by decide) (by decide), fun _ _ => State.fresh_inv⟩

/-! ## The state after reset (R250, R251) -/

theorem step_reset (hp : s.pending = .reset :: rest) :
    step s = .next (State.applyReset { s with pending := rest }) := by
  simp only [step, State.fetch, hp, State.retire_of_pending hp]

/-- Reset takes each channel to its reset values and leaves it its image. -/
theorem State.applyReset_channel?_of_some (h : s.channel? c = some x) :
    s.applyReset.channel? c = some (Channel.afterReset x.pm) := by
  simp [h]

theorem State.exists_applyReset_channel? (h : c.toNat < s.nchMax) :
    ∃ image, s.applyReset.channel? c = some (Channel.afterReset image) := by
  obtain ⟨x, hx⟩ := Option.isSome_iff_exists.1 (State.channel?_isSome_iff.2 h)
  exact ⟨x.pm, State.applyReset_channel?_of_some hx⟩

/-! ## The registers after reset (R250) -/

/-- The global registers but ID read 0 once the multiplexer is as reset leaves it. -/
theorem exec_globalRead_of_afterReset (hm : t.mux = Mux.afterReset) :
    ∀ i ∈ [Instr.muxCtrlR, .muxCfgR, .muxStatusR, .muxOcountR], exec i t = .next (t.returning 0) := by
  have hcfg : Mux.afterReset.cfgWord = 0 := by decide
  have hstatus : Mux.afterReset.status = 0 := by decide
  have hocount : counterView Mux.afterReset.ocount = 0 := by decide
  simp [exec, execMuxCtrlR, execMuxCfgR, execMuxStatusR, execMuxOcountR, readWord, hm, hcfg, hstatus, hocount]

/-- The registers of a channel but CH.STATUS read 0 once the channel is as reset leaves it; a read of OUT finds no sample. -/
theorem exec_channelRead_of_afterReset (hc : t.channel? c = some (Channel.afterReset image)) (j : BitVec 4) :
    ∀ i ∈ [Instr.chCtrlR c, .chBaseR c, .chLenR c, .chSrateR c, .chHist1R c, .chHist2R c, .chPosR c, .chScountR c,
      .chPsR c, .chOutR c, .chCoefR c j], exec i t = .next (t.returning 0) := by
  have hread : ∀ {view : Channel → Word}, view (Channel.afterReset image) = 0 →
      readChannel c view t = .next (t.returning 0) := fun hv => by rw [readChannel_some hc, hv]
  have hcoef : sampleView ((Channel.afterReset image).coef[j.toNat]'j.isLt) = 0 := by
    simp [Channel.afterReset, sampleView]
  simp only [List.forall_mem_cons]
  exact ⟨hread rfl, hread rfl, hread rfl, hread rfl, hread rfl, hread rfl, hread rfl, hread rfl, hread rfl,
    execChOutR_of_empty hc rfl, hread hcoef, by simp⟩

/-- An empty queue is not full at a depth of at least 1, so CH.STATUS shows Q_EMPTY alone. -/
theorem Channel.afterReset_status (h : depth.legal = true) : (Channel.afterReset image).status depth = 0x00000800 := by
  have hfull : (Channel.afterReset image).queueFull depth = false := by
    cases depth with
    | unbounded => rfl
    | bounded n => simpa [QueueDepth.legal, Channel.queueFull, Channel.afterReset, Nat.one_le_iff_ne_zero] using h
  apply BitVec.eq_of_toNat_eq
  rw [Channel.status_toNat, hfull]
  rfl

/-- Settles O34: the fields are those of a channel and a multiplexer after reset, and the registers are views of these fields. -/
theorem resetSetsEveryRegister : Obligations.ResetSetsEveryRegister := by
  intro s rest hp
  refine ⟨_, step_reset hp, rfl, rfl, State.applyReset_nchMax .., rfl, rfl, fun c x hc => ?_, fun hdepth c j hlt => ?_⟩
  · exact ⟨_, State.applyReset_channel?_of_some (s := { s with pending := rest }) hc,
      fun i hi => Vector.getElem_replicate hi, rfl⟩
  · obtain ⟨image, hc⟩ := State.exists_applyReset_channel? (s := { s with pending := rest }) hlt
    refine ⟨List.forall_mem_append.2 ⟨exec_globalRead_of_afterReset rfl, exec_channelRead_of_afterReset hc j⟩, ?_, ?_⟩
    · exact (readChannel_some hc).trans (by rw [State.applyReset_fifoDepth, Channel.afterReset_status hdepth]; rfl)
    · rw [← idWord_eq, ← State.applyReset_nchMax (s := s)]
      rfl

/-! ## The agents after reset (R252) -/

/-- Settles O35: reset leaves neither the multiplexer nor an engine in RUN. -/
theorem noAgentMovesAfterReset : Obligations.NoAgentMovesAfterReset := by
  rintro s e rest (rfl | ⟨c, hlt, rfl⟩)
  · have hr : Mux.afterReset.mstate ≠ .run := by decide
    rw [step_mux rfl]
    exact muxStep_of_not_run hr
  · obtain ⟨image, hc⟩ := State.exists_applyReset_channel? hlt
    exact step_engine_of_hold (s := { s.applyReset with pending := .engine c :: rest }) rfl hc
      (Channel.turn_of_stopped (by simp [Channel.afterReset]))

end Sys2Proof.Machine
end
